-- ==== Sys2Proof/Word.lean ====
section
/-! DEFINITION. The word types of the HuffPress CORE (00_scope.md R10, R12, R13; 20_memory.md R60). -/

namespace Sys2Proof

/-- A register or bus word: `W` = 32 bits, unsigned (R10, R12). -/
abbrev Word := BitVec 32

/-- One element of a buffer: 8 bits (R39 to R41). -/
abbrev Byte := BitVec 8

/-- A symbol: `SYM_W` = 8 bits (R10). -/
abbrev Symbol := BitVec 8

/-- The number of an address space: 3 bits (R60). -/
abbrev Space := BitVec 3

/-- A `BitStr`: a finite sequence of bits, the first being the one nearest the root (R13). -/
abbrev BitStr := List Bool

end Sys2Proof
end

