-- ==== Sys2Proof/Config.lean ====
section
/-! DEFINITION. What is fixed for the machine (00_scope.md R10, 10_state.md R27) and the free values the
spec leaves open (10_state.md R48, 20_memory.md R67). -/

namespace Sys2Proof.Config

/-- `N_SYM`: the number of symbol values, the size of the code table (R10). -/
def nSym : Nat := 256

/-- `L_MAX`: the longest code a CT entry can hold (R10). -/
def lMax : Nat := 255

/-- `N_NODE`: the capacity of the node arena (R10, R43). -/
def nNode : Nat := 511

/-- The largest legal `I_MAX` (R10, R11). -/
def iMaxLimit : Nat := 2 ^ 27

/-- `I_MAX` is legal: 1 ≤ I_MAX ≤ 2^27 (R10). -/
abbrev LegalIMax (iMax : Nat) : Prop := 1 ≤ iMax ∧ iMax ≤ iMaxLimit

/-- `P_MAX` = 8 × I_MAX, the capacity of PBUF (R10). -/
def pMax (iMax : Nat) : Nat := 8 * iMax

/-- `O_MAX` = P_MAX, the capacity of OBUF (R10). -/
def oMax (iMax : Nat) : Nat := pMax iMax

/-- DESIGN CHOICE (log 1): the `I_MAX` of `State.reset`, the value of the spec's own vectors
(95_test_vectors.md); R11 allows a model to fix it for testing. -/
def iMaxAtReset : Nat := 16

/-- REG.ID, "HUFF" (R27). -/
def idWord : Word := 0x48554646#32

/-- REG.VERSION (R27). -/
def versionWord : Word := 0x00000007#32

/-- Free value: the contents of a buffer element after a reset, by the reset's draw number, the space
and the index (R48, R243; log 3). -/
opaque powerUpByte : Nat → Space → Nat → Byte

/-- Free value: what a read while busy returns where R67 leaves it unspecified, by draw number (log 4). -/
opaque busyReadWord : Nat → Word

end Sys2Proof.Config
end

