-- ==== Sys2Proof/Syntax.lean ====
section
/-! DEFINITION. The commands of the HuffPress CORE (30_encoding.md R94): one constructor per row of the
opcode table. A command has no operands (R92) and no immediates (R96). -/

namespace Sys2Proof

/-- A command of the opcode table. -/
inductive Instr where
  /-- COMPRESS, 0x00000001 (R140). -/
  | compress
  /-- DECOMPRESS, 0x00000002 (R160). -/
  | decompress
  /-- CHECK_TABLE, 0x00000003 (R173). -/
  | checkTable
  /-- CLEAR, 0x00000004 (R190). -/
  | clear
deriving DecidableEq, Repr

end Sys2Proof
end

