-- ==== Sys2Proof/WellFormed.lean ====
section
/-! DEFINITION. Well-formedness: of a command (30_encoding.md R92, R96), of a command word (R90, R93), of the
configuration (00_scope.md R10) and of the operands of the host's pseudo-instructions (R98). -/

namespace Sys2Proof

/-- Every command is well formed: it has no operand or immediate that could be out of range (R92, R96). -/
def Instr.wf : Instr → Bool
  | .compress => true
  | .decompress => true
  | .checkTable => true
  | .clear => true

/-- A command word is legal: RSV = 0 and OP one of 0x01 to 0x04 (R90, R94, R95). -/
def CommandWord.wf (v : Word) : Bool :=
  v.extractLsb' 8 24 == 0#24 && decide (1 ≤ (v.extractLsb' 0 8).toNat) && decide ((v.extractLsb' 0 8).toNat ≤ 4)

/-- The parameter `I_MAX` is in its range (R10). -/
def Config.wfIMax (iMax : Nat) : Bool := decide (Config.LegalIMax iMax)

/-- A `loadi` list fits IBUF, so that the write of ILEN is legal (R98, R32). -/
def Pseudo.wfLoadi (iMax : Nat) (cs : List Symbol) : Bool := decide (cs.length ≤ iMax)

/-- A `loadp` list fits PBUF, so that the write of PLEN is legal (R98, R33). -/
def Pseudo.wfLoadp (iMax : Nat) (bs : BitStr) : Bool := decide (bs.length ≤ Config.pMax iMax)

/-- A `setcode` code fits a CT entry: LEN is at most `L_MAX` (R98, R37). -/
def Pseudo.wfCode (bs : BitStr) : Bool := decide (bs.length ≤ Config.lMax)

end Sys2Proof
end

