-- ==== Sys2Proof/Decode.lean ====
section
/-! DEFINITION. Decoding a command word (30_encoding.md R90, R93 to R95), and the encoder written from the same
table (R94). A command word has no byte order (20_memory.md R66): the decoder reads one 32-bit word. -/

namespace Sys2Proof

/-- Why a word is no command: each is an illegal encoding of R95, completed by IllegalCommand (R192). -/
inductive DecodeReject where
  /-- RSV, bits [31:8], is not 0 (R90, R95). -/
  | reservedNonzero
  /-- OP = 0x00 (R95). -/
  | opcodeZero
  /-- OP in 0x05..0xFF (R95). -/
  | opcodeUnassigned
deriving DecidableEq, Repr

/-- OP, bits [7:0] of a command word (R90). -/
def opField (v : Word) : BitVec 8 := v.extractLsb' 0 8

/-- RSV, bits [31:8] of a command word (R90). -/
def rsvField (v : Word) : BitVec 24 := v.extractLsb' 8 24

/-- The decoder of R93, total on every 32-bit word. -/
def decode (v : Word) : Except DecodeReject Instr :=
  if rsvField v ≠ 0#24 then .error .reservedNonzero
  else if opField v = 0x01#8 then .ok .compress
  else if opField v = 0x02#8 then .ok .decompress
  else if opField v = 0x03#8 then .ok .checkTable
  else if opField v = 0x04#8 then .ok .clear
  else if opField v = 0x00#8 then .error .opcodeZero
  else .error .opcodeUnassigned

/-- OP of a command (R94). -/
def opcode : Instr → BitVec 8
  | .compress => 0x01#8
  | .decompress => 0x02#8
  | .checkTable => 0x03#8
  | .clear => 0x04#8

/-- The command word: OP in [7:0], RSV = 0 in [31:8] (R90, R94). -/
def encode (i : Instr) : Word := 0#24 ++ opcode i

/-- The word made of the low `nbits` bits of `w`, every bit above them 0 (log 12). -/
def tableWord (nbits w : Nat) : Word := BitVec.ofNat 32 (w % 2 ^ nbits)

/-- The command the decoder reads from an opcode-table word. -/
def decodeTableWord (nbits w : Nat) : Option Instr :=
  match decode (tableWord nbits w) with
  | .ok i => some i
  | .error _ => none

end Sys2Proof
end

