-- ==== Sys2Proof/Machine/State.lean ====
section
/-! DEFINITION. The state of the HuffPress CORE (10_state.md R22), the host's turns and transaction records
(20_memory.md R60, 30_encoding.md R99), the reset state (10_state.md R48), and the ways a step can stop. -/

namespace Sys2Proof.Machine

/-- Why a step stops with a fault. The spec has no fault but this one, which it calls unreachable
(41_compress.md R155, 60_exceptions.md R228). -/
inductive Fault where
  /-- A payload longer than P_MAX (R155). Nothing raises it: the model writes the payload without the guard
  R155 allows (log 10). Safe: no step ends in it. -/
  | capacityFault
deriving DecidableEq, Repr

/-- Why a step is refused. -/
inductive Refusal where
  /-- `exec` has no meaning for the command of this mnemonic. No arm raises it. Safe. -/
  | notModelled (mnemonic : String)
deriving DecidableEq, Repr

/-- A bus transaction of the host: one 32-bit word at (space, index) (R60). -/
inductive BusOp where
  /-- `MemRead(space, index)` (R61). -/
  | read (space : Space) (index : Word)
  /-- `MemWrite(space, index, v)` (R62). -/
  | write (space : Space) (index v : Word)
deriving DecidableEq, Repr

/-- One move of an agent (R4, R60, R240). -/
inductive Turn where
  /-- The CORE may take its step (R45). -/
  | core
  /-- The HOST performs one transaction (R60). -/
  | bus (op : BusOp)
  /-- The reset input takes a level: `true` asserts it, `false` releases it (R240). -/
  | rst (asserted : Bool)
deriving DecidableEq, Repr

/-- The kind letter of a transaction record: `R` or `W` (R99). -/
inductive BusKind where
  | r
  | w
deriving DecidableEq, Repr

/-- A transaction record `K space index data`; a read's data is the value returned (R99). -/
structure BusRecord where
  kind : BusKind
  space : Space
  index : Word
  data : Word
deriving DecidableEq, Repr

/-- An entry of the code table (R37). `CODE[k]` is bit `k` of `code`. -/
structure CTEntry where
  valid : Bool
  len : BitVec 8
  freq : Word
  code : BitVec 256
deriving DecidableEq, Repr

/-- The entry with VALID 0, LEN 0, FREQ 0 and every CODE bit 0 (R48, R144, R190). -/
def CTEntry.zero : CTEntry := { valid := false, len := 0#8, freq := 0#32, code := 0#256 }

/-- The elements of a buffer that have been written since the last reset, by index. -/
abbrev Memory := List Host.Cell

/-- Indices strictly rising, none below `lo`. -/
def Memory.risingFrom : Nat → Memory → Bool
  | _, [] => true
  | lo, (a, _) :: m => decide (lo ≤ a) && Memory.risingFrom (a + 1) m

/-- The canonical form: indices strictly rising and below the capacity. An unlisted element holds no written
value, so no listed value equals it (log 3). -/
def Memory.wf (cap : Nat) (m : Memory) : Bool :=
  Memory.risingFrom 0 m && m.all fun c => decide (c.1 < cap)

/-- The state: the record of R22, the parameter `I_MAX` (R10), and the model's own fields. -/
structure State where
  /-- The parameter `I_MAX`; no step changes it (R10, log 1). -/
  iMax : Nat
  /-- BUSY (R23, R30). -/
  busy : Bool
  /-- PEND, the command word at issue (R23). -/
  pend : Word
  /-- CTRL.IE (R28). -/
  ie : Bool
  /-- STATUS.DONE (R30). -/
  done : Bool
  /-- STATUS.IGNWR (R30). -/
  ignwr : Bool
  /-- STATUS.ERR (R30, R210). -/
  err : BitVec 4
  /-- ERRINFO (R31, R211). -/
  errInfo : Word
  /-- ILEN (R32). -/
  iLen : Nat
  /-- PLEN (R33). -/
  pLen : Nat
  /-- OLEN (R34). -/
  oLen : Nat
  /-- ORIG_BITS (R35). -/
  origBits : Word
  /-- COMP_BITS (R35). -/
  compBits : Word
  /-- RATIO, UQ16.16 (R35). -/
  ratio : Word
  /-- NALPHA (R36). -/
  nAlpha : Nat
  /-- CT (R37). -/
  ct : Vector CTEntry 256
  /-- IBUF (R39). -/
  ibuf : Memory
  /-- PBUF (R40). -/
  pbuf : Memory
  /-- OBUF (R41). -/
  obuf : Memory
  /-- Model's own: selects the free buffer contents of the last reset (log 3). -/
  fill : Nat
  /-- Model's own: the number of free values drawn so far (log 4). -/
  draws : Nat
  /-- Model's own: the level of the reset input (R80, R240; log 7). -/
  rst : Bool
  /-- Model's own: the moves still to come, the next first (log 5). -/
  turns : List Turn
  /-- Model's own: the host's transaction records, newest first (log 6). -/
  trace : List BusRecord
deriving DecidableEq, Repr

/-- The reset state of R48 for a given `I_MAX`. -/
def State.resetWith (iMax : Nat) : State where
  iMax := iMax
  busy := false
  pend := 0#32
  ie := false
  done := false
  ignwr := false
  err := 0#4
  errInfo := 0#32
  iLen := 0
  pLen := 0
  oLen := 0
  origBits := 0#32
  compBits := 0#32
  ratio := 0#32
  nAlpha := 0
  ct := Vector.replicate 256 CTEntry.zero
  ibuf := []
  pbuf := []
  obuf := []
  fill := 0
  draws := 1
  rst := false
  turns := []
  trace := []

/-- The machine right after reset (R48, R240), with the `I_MAX` of the spec's vectors (log 1). -/
def State.reset : State := State.resetWith Config.iMaxAtReset

end Sys2Proof.Machine
end

