-- ==== Sys2Proof/Machine/Ops.lean ====
section
/-! DEFINITION. The shared operations: buffer elements (10_state.md R39 to R41), issue (R29), completion and
error completion (R45; 60_exceptions.md R210 to R214), the code table's bits (R37, R38), reset (R240). -/

namespace Sys2Proof.Machine

/-! ### Buffers -/

/-- The value written to element `i`, or none where nothing has been written since the last reset. -/
def Memory.get? : Memory → Nat → Option Byte
  | [], _ => none
  | (a, b) :: m, i => if a = i then some b else Memory.get? m i

/-- Writes element `i`, keeping the list in its canonical form. -/
def Memory.set : Memory → Nat → Byte → Memory
  | [], i, v => [(i, v)]
  | (a, b) :: m, i, v =>
    if i < a then (i, v) :: (a, b) :: m
    else if i = a then (i, v) :: m
    else (a, b) :: Memory.set m i v

/-- Writes consecutive elements from index `start` on. -/
def Memory.setFrom : Memory → Nat → List Byte → Memory
  | m, _, [] => m
  | m, start, v :: vs => Memory.setFrom (m.set start v) (start + 1) vs

/-- The space numbers of R63. -/
def spREG : Space := 0#3
/-- IBUF (R63). -/
def spIBUF : Space := 1#3
/-- PBUF (R63). -/
def spPBUF : Space := 2#3
/-- OBUF (R63). -/
def spOBUF : Space := 3#3
/-- CT (R63). -/
def spCT : Space := 4#3

/-- What a buffer element holds: the written value, or the free contents of the last reset (R48, R243). -/
def State.element (s : State) (m : Memory) (space : Space) (i : Nat) : Byte :=
  match m.get? i with
  | some b => b
  | none => Config.powerUpByte s.fill space i

/-- `IBUF[i]` (R39). -/
def State.readIBUF (s : State) (i : Nat) : Byte := s.element s.ibuf spIBUF i
/-- `PBUF[i]` (R40). -/
def State.readPBUF (s : State) (i : Nat) : Byte := s.element s.pbuf spPBUF i
/-- `OBUF[i]` (R41). -/
def State.readOBUF (s : State) (i : Nat) : Byte := s.element s.obuf spOBUF i

/-! ### Issue and completion -/

/-- A CMD write of `v` while idle: PEND <- v, BUSY <- 1, DONE <- 0, and nothing else (R29). -/
def State.issue (s : State) (v : Word) : State := { s with pend := v, busy := true, done := false }

/-- The word the CORE step decodes (R93). -/
def State.commandWord (s : State) : Word := s.pend

/-- The end of every command: BUSY <- 0, DONE <- 1, ERR <- code, ERRINFO <- info (R45). PEND keeps the command word: while
idle it may have any value (93_implementation_defined.md), and keeping it is the model's choice. DESIGN CHOICE (log 2),
unsafe for a claim about PEND while idle; no behaviour depends on it (R23). -/
def State.complete (s : State) (code : BitVec 4) (info : Word) : State :=
  { s with busy := false, done := true, err := code, errInfo := info }

/-- Success: code 0, info 0 (R45, R210). -/
def State.succeed (s : State) : State := s.complete 0#4 0#32

/-- The errors of R210, each with the information R211 records for it. -/
inductive CmdError where
  | emptyInput
  | emptyPayload
  | emptyTable
  | malformedPayload (i : Nat)
  | duplicateCode (s t : Symbol)
  | nonPrefixFree (s t : Symbol)
  | incompleteCode (last : Nat)
  | illegalCommand (v : Word)
deriving DecidableEq, Repr

/-- The class of an error (R212). -/
inductive ErrorClass where
  | validation
  | structural
  | interface
deriving DecidableEq, Repr

/-- The error's code in STATUS.ERR (R210). -/
def CmdError.code : CmdError → BitVec 4
  | .emptyInput => 1#4
  | .emptyPayload => 2#4
  | .emptyTable => 3#4
  | .malformedPayload _ => 4#4
  | .duplicateCode _ _ => 5#4
  | .nonPrefixFree _ _ => 6#4
  | .incompleteCode _ => 7#4
  | .illegalCommand _ => 8#4

/-- `s + 256 × t`: `s` in bits [7:0], `t` in [15:8], bits [31:16] zero (R211). -/
def pairInfo (s t : Symbol) : Word := 0#16 ++ t ++ s

/-- What ERRINFO records for the error (R211). -/
def CmdError.info : CmdError → Word
  | .emptyInput => 0#32
  | .emptyPayload => 0#32
  | .emptyTable => 0#32
  | .malformedPayload i => BitVec.ofNat 32 i
  | .duplicateCode s t => pairInfo s t
  | .nonPrefixFree s t => pairInfo s t
  | .incompleteCode last => BitVec.ofNat 32 last
  | .illegalCommand v => v

/-- A host tells the classes apart by the code alone (R212): the class of an ERR value, none for 0 and the
reserved codes 9 to 15. -/
def errorClass (code : BitVec 4) : Option ErrorClass :=
  if code = 0#4 then none
  else if code ≤ 4#4 then some .validation
  else if code ≤ 7#4 then some .structural
  else if code = 8#4 then some .interface
  else none

/-- `raise E(info)`: the error completion of R214, which writes nothing but BUSY, DONE, ERR and ERRINFO. -/
def State.raise (s : State) (e : CmdError) : State := s.complete e.code e.info

/-- IllegalCommand(v) of R192: IllegalCommandError with ERRINFO the whole word. -/
def State.illegalCommand (s : State) (v : Word) : State := s.raise (.illegalCommand v)

/-! ### The code table -/

/-- `CT[x]` (R37). -/
def State.entry (s : State) (x : Symbol) : CTEntry := s.ct[x.toNat]'x.isLt

/-- The code of an entry: `[CODE[0], ..., CODE[LEN-1]]` (R15, R37). -/
def CTEntry.codeBits (e : CTEntry) : BitStr := (List.range e.len.toNat).map fun k => e.code.getLsbD k

/-- `CODE[k] = bits[k]` for `k < |bits|`, 0 above (R144). -/
def packCode (bits : BitStr) : BitVec 256 := (BitVec.ofBoolListLE bits).setWidth 256

/-- CODE word `j`: bit `b` is `CODE[32 × j + b]` (R38). -/
def CTEntry.codeWord (e : CTEntry) (j : Nat) : Word := e.code.extractLsb' (32 * j) 32

/-- The entry with CODE word `j` replaced by `v` (R38). -/
def CTEntry.setCodeWord (e : CTEntry) (j : Nat) (v : Word) : CTEntry :=
  { e with code := (e.code &&& ~~~(((0xFFFFFFFF#32).setWidth 256) <<< (32 * j))) ||| ((v.setWidth 256) <<< (32 * j)) }

/-- META: [31] VALID, [7:0] LEN (R38). -/
def CTEntry.metaWord (e : CTEntry) : Word := BitVec.ofBool e.valid ++ 0#23 ++ e.len

/-! ### Reset -/

/-- The reset event of R240: every piece of R22's state takes its reset value, a busy command is abandoned, and
the buffers get fresh free contents. The model's own lists of moves and records stay. -/
def State.resetEvent (s : State) : State :=
  { State.resetWith s.iMax with
    fill := s.draws, draws := s.draws + 1, rst := s.rst, turns := s.turns, trace := s.trace }

/-- The reset input takes a level; the state is reset while it is asserted and when it is released (R240). -/
def State.setReset (s : State) (asserted : Bool) : State := { s with rst := asserted }.resetEvent

end Sys2Proof.Machine
end

