-- ==== Sys2Proof/Machine/Control.lean ====
section
/-! DEFINITION. CLEAR and the illegal command words (43_control.md R190 to R192). -/

namespace Sys2Proof.Machine

/-- What CLEAR writes: ILEN, PLEN, OLEN, ORIG_BITS, COMP_BITS, RATIO, NALPHA and every CT entry to zero (R190). -/
def State.clearOutputs (s : State) : State :=
  { s with
    iLen := 0, pLen := 0, oLen := 0, origBits := 0#32, compBits := 0#32, ratio := 0#32, nAlpha := 0
    ct := Vector.replicate 256 CTEntry.zero }

/-- CLEAR (R190). It cannot fail. -/
def execClear (s : State) : Host.Outcome State Fault Refusal := .next s.clearOutputs.succeed

/-- A command word that R93 does not select completes with IllegalCommandError (R192). -/
def execIllegal (v : Word) (s : State) : Host.Outcome State Fault Refusal := .next (s.illegalCommand v)

end Sys2Proof.Machine
end

