-- ==== Sys2Proof/Machine/Operands.lean ====
section
/-! DEFINITION. The implicit operands of the commands (30_encoding.md R92): the input stream, the payload and the
code table as the decoder sees it (42_decompress.md R161). -/

namespace Sys2Proof.Machine

/-- `[IBUF[0], ..., IBUF[ILEN-1]]` (R140). -/
def State.inputStream (s : State) : List Symbol := (List.range s.iLen).map s.readIBUF

/-- `[PBUF[0], ..., PBUF[PLEN-1]]`, the payload's characters (R160). -/
def State.payload (s : State) : List Byte := (List.range s.pLen).map s.readPBUF

/-- The 256 symbol values in increasing order. -/
def allSymbols : List Symbol := (List.range Config.nSym).map fun k => BitVec.ofNat 8 k

/-- `T`, the symbols whose entry has VALID = 1, in increasing order (R161). -/
def State.tableSymbols (s : State) : List Symbol := allSymbols.filter fun x => (s.entry x).valid

/-- `code(x)` (R161). -/
def State.codeOf (s : State) (x : Symbol) : BitStr := (s.entry x).codeBits

/-- The payload character of a bit: 0x30 + bit (R40, R145). -/
def bitChar (b : Bool) : Byte := if b then 0x31#8 else 0x30#8

/-- The bit a payload character stands for, `PBUF[i] - 0x30`, once it is 0x30 or 0x31 (R40, R168). -/
def charBit (c : Byte) : Bool := (c - 0x30#8).getLsbD 0

/-- A character other than 0x30 and 0x31 is malformed (R40, R165). -/
def malformed (c : Byte) : Bool := c != 0x30#8 && c != 0x31#8

end Sys2Proof.Machine
end

