-- ==== Sys2Proof/Machine/Decoder.lean ====
section
/-! DEFINITION. DECOMPRESS and CHECK_TABLE, the Decoder (42_decompress.md R160 to R175), and the two other decoders
R172 allows, early stop and trie, which no meaning calls. -/

namespace Sys2Proof.Machine

/-! ### The table checks -/

/-- `xs` is a proper prefix of `ys` (R13). -/
def properPrefix (xs ys : BitStr) : Bool := xs.isPrefixOf ys && decide (xs.length < ys.length)

/-- The pairs (s, t) of `T` with s < t, in increasing order when `T` is increasing (R162). -/
def pairsLt (T : List Symbol) : List (Symbol × Symbol) :=
  T.flatMap fun s => (T.filter fun t => decide (s < t)).map fun t => (s, t)

/-- The pairs (s, t) of `T` with s ≠ t, in increasing order when `T` is increasing (R162). -/
def pairsNe (T : List Symbol) : List (Symbol × Symbol) :=
  T.flatMap fun s => (T.filter fun t => s != t).map fun t => (s, t)

/-- `TableCheck(T)` (R162): the smallest duplicate pair (R166), or else the smallest prefix pair (R167), or none. -/
def tableCheck (T : List Symbol) (code : Symbol → BitStr) : Option CmdError :=
  match (pairsLt T).find? fun p => code p.1 == code p.2 with
  | some p => some (.duplicateCode p.1 p.2)
  | none =>
    match (pairsNe T).find? fun p => properPrefix (code p.1) (code p.2) with
    | some p => some (.nonPrefixFree p.1 p.2)
    | none => none

/-- The table checks on a state: EmptyTableError first (R164), then TableCheck. -/
def State.checkTable (s : State) : Option CmdError :=
  if s.tableSymbols = [] then some .emptyTable else tableCheck s.tableSymbols s.codeOf

/-! ### Decoding -/

/-- The decoder's running values (R160, R168): the accumulator, the symbols emitted, and the payload index where the
accumulator begins. -/
structure Decoding where
  acc : BitStr
  out : List Symbol
  last : Nat
deriving DecidableEq, Repr

/-- The reverse lookup: a symbol of `T` whose code is `acc` (R168). -/
def lookupCode (T : List Symbol) (code : Symbol → BitStr) (acc : BitStr) : Option Symbol :=
  T.find? fun x => code x == acc

/-- One round of the decoding loop for the payload bit `b` of index `i` (R160, R168). -/
def Decoding.add (T : List Symbol) (code : Symbol → BitStr) (i : Nat) (b : Bool) (d : Decoding) : Decoding :=
  match lookupCode T code (d.acc ++ [b]) with
  | some x => { acc := [], out := d.out ++ [x], last := i + 1 }
  | none => { d with acc := d.acc ++ [b] }

/-- The decoding loop from payload index `i` on (R160, R168). -/
def decodeFrom (T : List Symbol) (code : Symbol → BitStr) : Nat → BitStr → Decoding → Decoding
  | _, [], d => d
  | i, b :: bs, d => decodeFrom T code (i + 1) bs (d.add T code i b)

/-- The whole payload, from an empty accumulator (R168). -/
def decodeBits (T : List Symbol) (code : Symbol → BitStr) (bits : BitStr) : Decoding :=
  decodeFrom T code 0 bits { acc := [], out := [], last := 0 }

/-- The symbols, or IncompleteCodeError when a fragment is left (R169). -/
def Decoding.result (d : Decoding) : Except CmdError (List Symbol) :=
  if d.acc = [] then .ok d.out else .error (.incompleteCode d.last)

/-- The smallest index of a malformed character (R165). -/
def firstMalformed (cs : List Byte) : Option Nat := cs.findIdx? malformed

/-- What DECOMPRESS computes before it writes anything: its checks in the order of R216, then the decoding (R160). -/
def State.decompressResult (s : State) : Except CmdError (List Symbol) :=
  if s.pLen = 0 then .error .emptyPayload
  else if s.tableSymbols = [] then .error .emptyTable
  else
    match firstMalformed s.payload with
    | some i => .error (.malformedPayload i)
    | none =>
      match tableCheck s.tableSymbols s.codeOf with
      | some e => .error e
      | none => (decodeBits s.tableSymbols s.codeOf (s.payload.map charBit)).result

/-- The outputs of a successful DECOMPRESS (R170). -/
def State.decompressOutputs (s : State) (out : List Symbol) : State :=
  { s with obuf := s.obuf.setFrom 0 out, oLen := out.length }

/-- DECOMPRESS (R160). -/
def execDecompress (s : State) : Host.Outcome State Fault Refusal :=
  match s.decompressResult with
  | .error e => .next (s.raise e)
  | .ok out => .next (s.decompressOutputs out).succeed

/-- CHECK_TABLE (R173). -/
def execCheckTable (s : State) : Host.Outcome State Fault Refusal :=
  match s.checkTable with
  | some e => .next (s.raise e)
  | none => .next s.succeed

/-! ### The decoders R172 allows beside the accumulator -/

/-- The early-stop decoder: it reads no further bit once the accumulator is a prefix of no code (R172). -/
def decodeEarlyStop (T : List Symbol) (code : Symbol → BitStr) : Nat → BitStr → Decoding → Decoding
  | _, [], d => d
  | i, b :: bs, d =>
    let d' := d.add T code i b
    if d'.acc = [] || T.any fun x => d'.acc.isPrefixOf (code x) then decodeEarlyStop T code (i + 1) bs d' else d'

/-- A binary trie of codes (R172). -/
inductive Trie where
  | empty
  | leaf (x : Symbol)
  | node (child0 child1 : Trie)
deriving DecidableEq, Repr

/-- The trie with the code `bits` of `x` put in; a code that runs through a leaf is not put in (no such code is in a
table that passes TableCheck). -/
def Trie.insert : Trie → BitStr → Symbol → Trie
  | .empty, [], x => .leaf x
  | .empty, false :: bs, x => .node (Trie.insert .empty bs x) .empty
  | .empty, true :: bs, x => .node .empty (Trie.insert .empty bs x)
  | .leaf y, _, _ => .leaf y
  | .node l r, [], _ => .node l r
  | .node l r, false :: bs, x => .node (l.insert bs x) r
  | .node l r, true :: bs, x => .node l (r.insert bs x)

/-- The trie of the table's codes (R172). -/
def trieOf (T : List Symbol) (code : Symbol → BitStr) : Trie := T.foldl (fun t x => t.insert (code x) x) .empty

/-- The child 0 or 1 of a trie node (R172). -/
def Trie.child : Trie → Bool → Trie
  | .node l _, false => l
  | .node _ r, true => r
  | _, _ => .empty

/-- The trie walk of R172: root, then child 0 or 1 per payload bit, emitting at a leaf and returning to the root.
`inside` says whether bits of an unfinished code have been read. -/
def trieWalk (root : Trie) : Nat → BitStr → Trie → Bool → List Symbol → Nat → Except CmdError (List Symbol)
  | _, [], _, inside, out, last => if inside then .error (.incompleteCode last) else .ok out
  | i, b :: bs, t, _, out, last =>
    match t.child b with
    | .leaf x => trieWalk root (i + 1) bs root false (out ++ [x]) (i + 1)
    | t' => trieWalk root (i + 1) bs t' true out last

/-- The trie decoder: the whole payload from the root (R172). -/
def trieDecode (T : List Symbol) (code : Symbol → BitStr) (bits : BitStr) : Except CmdError (List Symbol) :=
  trieWalk (trieOf T code) 0 bits (trieOf T code) false [] 0

end Sys2Proof.Machine
end

