-- ==== Sys2Proof/Machine/Stages.lean ====
section
/-! DEFINITION. The stage functions COMPRESS runs in order (40_stages.md): Frequency Counter (R110), Tree Builder
(R111 to R116), Code Table Generator (R118). Their values are local to the COMPRESS step (10_state.md R44). -/

namespace Sys2Proof.Machine

/-! ### Frequency Counter -/

/-- The FrequencyMap: `FREQ[s]` for every symbol, and `ORDER`, the distinct symbols by first occurrence (R42). -/
structure FreqMap where
  freq : Vector Nat 256
  order : List Symbol
deriving DecidableEq, Repr

/-- `FREQ[s]`. -/
def FreqMap.count (m : FreqMap) (s : Symbol) : Nat := m.freq[s.toNat]'s.isLt

/-- One round of the loop of R110. -/
def FreqMap.add (m : FreqMap) (s : Symbol) : FreqMap where
  freq := m.freq.set s.toNat (m.count s + 1) s.isLt
  order := if m.count s = 0 then m.order ++ [s] else m.order

/-- Every FREQ 0 and ORDER empty: where the loop of R110 starts. -/
def FreqMap.empty : FreqMap where
  freq := Vector.replicate 256 0
  order := []

/-- `CountFreq(xs)` (R110). -/
def countFreq (xs : List Symbol) : FreqMap := xs.foldl FreqMap.add FreqMap.empty

/-! ### Tree Builder -/

/-- A node of the arena: `Leaf(sym, freq)` or `Internal(freq, left, right)` (R43). -/
inductive Node where
  | leaf (sym : Symbol) (freq : Nat)
  | internal (freq left right : Nat)
deriving DecidableEq, Repr

/-- The freq field of a node. -/
def Node.freq : Node → Nat
  | .leaf _ f => f
  | .internal f _ _ => f

/-- The arena NODE: the node of index `k` stands at position `k` (R43). -/
abbrev Arena := List Node

/-- `freq(k)`, the freq field of `NODE[k]` (R111). -/
def Arena.freqAt (nodes : Arena) (k : Nat) : Nat :=
  match nodes[k]? with
  | some n => n.freq
  | none => 0

/-- One leaf per symbol, leaf `k` for `ORDER[k]` (R111). -/
def leafNodes (m : FreqMap) : Arena := m.order.map fun s => .leaf s (m.count s)

/-- `(freq(j), j) < (freq(k), k)` (R14, R112). -/
def pairLt (nodes : Arena) (j k : Nat) : Bool :=
  decide (nodes.freqAt j < nodes.freqAt k) || (nodes.freqAt j == nodes.freqAt k && decide (j < k))

/-- `Select` over `k` and the indices of a list: the one with the smallest pair (R112). -/
def selectFrom (nodes : Arena) (k : Nat) : List Nat → Nat
  | [] => k
  | j :: js => selectFrom nodes (if pairLt nodes j k then j else k) js

/-- The merge loop of R113, one merge per unit of fuel: ACTIVE is a list without repeats, and the loop ends when it
has fewer than two elements. -/
def mergeLoop : Nat → Arena → List Nat → Arena × List Nat
  | 0, nodes, active => (nodes, active)
  | _ + 1, nodes, [] => (nodes, [])
  | _ + 1, nodes, [k] => (nodes, [k])
  | fuel + 1, nodes, k :: j :: rest =>
    let a := selectFrom nodes k (j :: rest)
    let active₁ := (k :: j :: rest).erase a
    let b := selectFrom nodes (active₁.headD 0) active₁.tail
    let active₂ := active₁.erase b
    mergeLoop fuel (nodes ++ [.internal (nodes.freqAt a + nodes.freqAt b) a b]) (active₂ ++ [nodes.length])

/-- The indices of a list in stable order of frequency: R117's re-sorted working list. -/
def sortedActive (nodes : Arena) (active : List Nat) : List Nat :=
  active.insertionSort fun j k => nodes.freqAt j ≤ nodes.freqAt k

/-- The merge loop in the other form R117 describes: the list kept in index order is sorted stably by frequency at each
iteration, the two front nodes are merged, and the new node is appended. No meaning calls it. -/
def mergeLoopBySort : Nat → Arena → List Nat → Arena × List Nat
  | 0, nodes, active => (nodes, active)
  | fuel + 1, nodes, active =>
    match sortedActive nodes active with
    | a :: b :: _ =>
      mergeLoopBySort fuel (nodes ++ [.internal (nodes.freqAt a + nodes.freqAt b) a b])
        ((active.erase a).erase b ++ [nodes.length])
    | _ => (nodes, active)

/-- The arena and the root (R113). -/
structure Tree where
  nodes : Arena
  root : Nat
deriving DecidableEq, Repr

/-- `BuildTree(FREQ, ORDER)` (R111 to R115); no tree for an empty FrequencyMap (R116). -/
def buildTree (m : FreqMap) : Option Tree :=
  let n := m.order.length
  let r := mergeLoop n (leafNodes m) (List.range n)
  match r.2 with
  | [] => none
  | root :: _ => some { nodes := r.1, root := root }

/-! ### Code Table Generator -/

/-- `C`: for each symbol no code or its code (R118). -/
abbrev Codes := Vector (Option BitStr) 256

/-- No symbol has a code: where R118 starts. -/
def Codes.empty : Codes := Vector.replicate 256 none

/-- `C[s]`. -/
def Codes.at (codes : Codes) (s : Symbol) : Option BitStr := codes[s.toNat]'s.isLt

/-- `C[s] <- path`. -/
def Codes.put (c : Codes) (s : Symbol) (path : BitStr) : Codes := c.set s.toNat (some path) s.isLt

/-- The loop of R118 over an explicit stack, one pop per unit of fuel: a leaf records its path, an internal node
pushes its right child and then its left child. -/
def genLoop : Nat → Arena → List (Nat × BitStr) → Codes → Codes
  | 0, _, _, c => c
  | _ + 1, _, [], c => c
  | fuel + 1, nodes, (k, path) :: stack, c =>
    match nodes[k]? with
    | some (.leaf s _) => genLoop fuel nodes stack (c.put s path)
    | some (.internal _ l r) => genLoop fuel nodes ((l, path ++ [false]) :: (r, path ++ [true]) :: stack) c
    | none => genLoop fuel nodes stack c

/-- `GenCodes(NODE, root)` (R118): a root that is itself a leaf gets the code "0"; else the traversal, which pops each
node of the arena at most once. -/
def genCodes (t : Tree) : Codes :=
  match t.nodes[t.root]? with
  | some (.leaf s _) => Codes.empty.put s [false]
  | _ => genLoop t.nodes.length t.nodes [(t.root, [])] Codes.empty

/-- The codes of a stream: `CountFreq`, `BuildTree`, `GenCodes` in order (R142). -/
def codesOf (xs : List Symbol) : Codes :=
  match buildTree (countFreq xs) with
  | some t => genCodes t
  | none => Codes.empty

end Sys2Proof.Machine
end

