-- ==== Sys2Proof/Machine/Encoder.lean ====
section
/-! DEFINITION. COMPRESS, the Encoder (41_compress.md R140 to R155). -/

namespace Sys2Proof.Machine

/-- `bits`: the concatenation, in index order, of the codes of the stream's symbols, without separators (R143). -/
def encodeBits (c : Codes) (xs : List Symbol) : BitStr := xs.flatMap fun x => (c.at x).getD []

/-- The entry COMPRESS writes for a symbol (R144). -/
def compressEntry (m : FreqMap) (c : Codes) (x : Symbol) : CTEntry :=
  match c.at x with
  | some bits => { valid := true, len := BitVec.ofNat 8 bits.length, freq := BitVec.ofNat 32 (m.count x), code := packCode bits }
  | none => CTEntry.zero

/-- RATIO: floor(ORIG_BITS × 65536 / COMP_BITS), UQ16.16 (R148). -/
def ratioWord (origBits compBits : Nat) : Word := BitVec.ofNat 32 (origBits * 65536 / compBits)

/-- The outputs of a successful COMPRESS of the stream `xs`, written together (R140, R144 to R149). -/
def State.compressOutputs (s : State) (xs : List Symbol) : State :=
  let m := countFreq xs
  let c := codesOf xs
  let bits := encodeBits c xs
  { s with
    ct := Vector.ofFn fun k => compressEntry m c (BitVec.ofFin k)
    pbuf := s.pbuf.setFrom 0 (bits.map bitChar)
    pLen := bits.length
    origBits := BitVec.ofNat 32 (8 * xs.length)
    compBits := BitVec.ofNat 32 bits.length
    ratio := ratioWord (8 * xs.length) bits.length
    nAlpha := m.order.length }

/-- COMPRESS (R140): EmptyInputError when ILEN = 0 (R141), else all outputs and success. -/
def execCompress (s : State) : Host.Outcome State Fault Refusal :=
  if s.iLen = 0 then .next (s.raise .emptyInput)
  else .next (s.compressOutputs s.inputStream).succeed

end Sys2Proof.Machine
end

