-- ==== Sys2Proof/Machine/Flags.lean ====
section
/-! DEFINITION. The flags (10_state.md R30, R49), the STATUS and CTRL words, and the interrupt line (R46). -/

namespace Sys2Proof.Machine

/-- STATUS: [0] BUSY, [1] DONE, [2] IGNWR, [7:3] reserved, [11:8] ERR, [31:12] reserved (R26, R30). -/
def State.statusWord (s : State) : Word :=
  0#20 ++ s.err ++ 0#5 ++ BitVec.ofBool s.ignwr ++ BitVec.ofBool s.done ++ BitVec.ofBool s.busy

/-- CTRL: [0] IE, [31:1] reserved (R26, R28). -/
def State.ctrlWord (s : State) : Word := 0#31 ++ BitVec.ofBool s.ie

/-- A write of STATUS: a 1 in bit 1 clears DONE, a 1 in bit 2 clears IGNWR, everything else is read only
(R24, R30). -/
def State.writeStatus (s : State) (v : Word) : State :=
  { s with done := s.done && !v.getLsbD 1, ignwr := s.ignwr && !v.getLsbD 2 }

/-- A write of CTRL stores IE (R28). -/
def State.writeCtrl (s : State) (v : Word) : State := { s with ie := v.getLsbD 0 }

/-- A host write dropped because the CORE is busy sets IGNWR (R30, R67). -/
def State.noteIgnored (s : State) : State := { s with ignwr := true }

/-- The interrupt output: DONE AND IE (R46, R219). -/
def State.irq (s : State) : Bool := s.done && s.ie

end Sys2Proof.Machine
end

