-- ==== Sys2Proof/Machine/HostPort.lean ====
section
/-! DEFINITION. The host port (20_memory.md R60 to R70): the address spaces, reads and writes while idle, and what
changes while the CORE is busy (R67). -/

namespace Sys2Proof.Machine

/-! ### Reading -/

/-- The word a REG index reads (10_state.md R26 to R36); CMD and reserved indices read 0 (R25, R29). -/
def State.regWord (s : State) (index : Nat) : Word :=
  match index with
  | 0 => Config.idWord
  | 1 => Config.versionWord
  | 2 => BitVec.ofNat 32 s.iMax
  | 3 => s.ctrlWord
  | 5 => s.statusWord
  | 6 => s.errInfo
  | 7 => BitVec.ofNat 32 s.iLen
  | 8 => BitVec.ofNat 32 s.pLen
  | 9 => BitVec.ofNat 32 s.oLen
  | 10 => s.origBits
  | 11 => s.compBits
  | 12 => s.ratio
  | 13 => BitVec.ofNat 32 s.nAlpha
  | _ => 0#32

/-- The number of words of an entry of CT (R38). -/
def ctStride : Nat := 16

/-- The word `w` of an entry: META, FREQ, CODE words 0 to 7, reserved (R38). -/
def CTEntry.word (e : CTEntry) (w : Nat) : Word :=
  if w = 0 then e.metaWord
  else if w = 1 then e.freq
  else if w < 10 then e.codeWord (w - 2)
  else 0#32

/-- The entry with word `w` written: the named fields are stored, reserved bits and words ignored (R38). -/
def CTEntry.setWord (e : CTEntry) (w : Nat) (v : Word) : CTEntry :=
  if w = 0 then { e with valid := v.getLsbD 31, len := v.extractLsb' 0 8 }
  else if w = 1 then { e with freq := v }
  else if w < 10 then e.setCodeWord (w - 2) v
  else e

/-- The symbol whose entry a CT index falls in (R38). -/
def ctSymbol (index : Nat) : Symbol := BitVec.ofNat 8 (index / ctStride)

/-- The number of words of the CT space (R63). -/
def ctWords : Nat := 4096

/-- The number of registers of the REG space (R63). -/
def regWords : Nat := 14

/-- The index range of a space (R63); spaces 5 to 7 have none. -/
def State.spaceSize (s : State) (space : Space) : Nat :=
  if space = spREG then regWords
  else if space = spIBUF then s.iMax
  else if space = spPBUF then Config.pMax s.iMax
  else if space = spOBUF then Config.oMax s.iMax
  else if space = spCT then ctWords
  else 0

/-- The location is mapped: its index is in its space's range (R63, R64). -/
def State.mapped (s : State) (space : Space) (index : Nat) : Bool := decide (index < s.spaceSize space)

/-- `MemRead(space, index)` while idle (R61, R64, R65). -/
def State.readWord (s : State) (space : Space) (index : Nat) : Word :=
  if s.mapped space index then
    if space = spREG then s.regWord index
    else if space = spIBUF then (s.readIBUF index).setWidth 32
    else if space = spPBUF then (s.readPBUF index).setWidth 32
    else if space = spOBUF then (s.readOBUF index).setWidth 32
    else (s.entry (ctSymbol index)).word (index % ctStride)
  else 0#32

/-- The locations a read gives exactly while busy: ID, VERSION, CAP_IMAX, CTRL, STATUS (R67). -/
def exactWhileBusy (space : Space) (index : Nat) : Bool :=
  space == spREG && (index == 0 || index == 1 || index == 2 || index == 3 || index == 5)

/-- `MemRead` at any time: the word returned and the state after. While busy a mapped location outside those of
`exactWhileBusy` returns a free draw (R67); nothing but the model's own draw counter changes (R61). -/
def State.busRead (s : State) (space : Space) (index : Nat) : Word × State :=
  if s.busy && s.mapped space index && !exactWhileBusy space index then
    (Config.busyReadWord s.draws, { s with draws := s.draws + 1 })
  else (s.readWord space index, s)

/-! ### Writing -/

/-- A REG write while idle, by access class (R24, R26): CTRL, CMD, STATUS, and ILEN and PLEN under the WARL rule of
R32 and R33; every other register is read only or reserved. -/
def State.writeReg (s : State) (index : Nat) (v : Word) : State :=
  match index with
  | 3 => s.writeCtrl v
  | 4 => s.issue v
  | 5 => s.writeStatus v
  | 7 => if v.toNat ≤ s.iMax then { s with iLen := v.toNat } else s
  | 8 => if v.toNat ≤ Config.pMax s.iMax then { s with pLen := v.toNat } else s
  | _ => s

/-- A CT write while idle (R38). -/
def State.writeCT (s : State) (index : Nat) (v : Word) : State :=
  { s with ct := s.ct.set (ctSymbol index).toNat ((s.entry (ctSymbol index)).setWord (index % ctStride) v) (ctSymbol index).isLt }

/-- `MemWrite(space, index, v)` while idle (R62, R64, R65); OBUF is read only for the host (R41). -/
def State.writeWord (s : State) (space : Space) (index : Nat) (v : Word) : State :=
  if s.mapped space index then
    if space = spREG then s.writeReg index v
    else if space = spIBUF then { s with ibuf := s.ibuf.set index (v.setWidth 8) }
    else if space = spPBUF then { s with pbuf := s.pbuf.set index (v.setWidth 8) }
    else if space = spCT then s.writeCT index v
    else s
  else s

/-- The writes that are dropped while busy: CMD, ILEN, PLEN, and in-range IBUF, PBUF and CT (R67). The reserved words
10 to 15 of a CT entry are reserved locations, whose writes never set IGNWR (R25, R38, 90_conflicts.md C7; log 9). -/
def State.lockedWhileBusy (s : State) (space : Space) (index : Nat) : Bool :=
  s.mapped space index &&
    ((space == spREG && (index == 4 || index == 7 || index == 8)) || space == spIBUF || space == spPBUF ||
      (space == spCT && decide (index % ctStride < 10)))

/-- `MemWrite` at any time (R62, R67): while busy a locked location's write is dropped and sets IGNWR, and CTRL and
STATUS are written as while idle. -/
def State.busWrite (s : State) (space : Space) (index : Nat) (v : Word) : State :=
  if s.busy && s.lockedWhileBusy space index then s.noteIgnored else s.writeWord space index v

/-! ### One transaction -/

/-- The host's transaction with its record (R60, R99). While the reset input is asserted it takes no effect and has no
answer (R240, log 7). -/
def State.busTransaction (s : State) (op : BusOp) : State :=
  if s.rst then s
  else
    match op with
    | .read space index =>
      let r := s.busRead space index.toNat
      { r.2 with trace := { kind := .r, space := space, index := index, data := r.1 } :: s.trace }
    | .write space index v =>
      { s.busWrite space index.toNat v with
        trace := { kind := .w, space := space, index := index, data := v } :: s.trace }

end Sys2Proof.Machine
end

