-- ==== Sys2Proof/Machine/Turns.lean ====
section
/-! DEFINITION. The agents' moves (00_scope.md R4; 10_state.md R45; 20_memory.md R60, R73; 70_reset_and_hazards.md
R240, R255). -/

namespace Sys2Proof.Machine

/-- The CORE has a step: BUSY = 1 (R45), and the reset input is not asserted (R240). -/
def State.coreEnabled (s : State) : Bool := s.busy && !s.rst

/-- The CORE step: PEND is decoded (R93) and the command runs to its end (R45); a word that is no command completes
with IllegalCommandError (R192). -/
def coreStep (s : State) : Host.Outcome State Fault Refusal :=
  match decode s.commandWord with
  | .ok i => exec i s
  | .error _ => execIllegal s.commandWord s

/-- The CORE's move: its step where it has one, else nothing (R45). -/
def coreMove (s : State) : Host.Outcome State Fault Refusal :=
  if s.coreEnabled then coreStep s else .next s

/-- The next move (log 5): the first of `turns`; when there is none the CORE moves, so that a busy CORE always completes
(R255) and an idle one keeps its state (60_exceptions.md R227). -/
def nextMove (s : State) : Host.Outcome State Fault Refusal :=
  match s.turns with
  | [] => coreMove s
  | .core :: rest => coreMove { s with turns := rest }
  | .bus op :: rest => .next ({ s with turns := rest }.busTransaction op)
  | .rst asserted :: rest => .next ({ s with turns := rest }.setReset asserted)

end Sys2Proof.Machine
end

