-- ==== Sys2Proof/Machine/Step.lean ====
section
/-! DEFINITION. One step of the machine: one move of one agent (00_scope.md R4), and a command word placed so that the
next step runs it. -/

namespace Sys2Proof.Machine

/-- One step: the next move (R4, R73). -/
def step (s : State) : Host.Outcome State Fault Refusal := nextMove s

/-- The state with the command word issued (R29) and the CORE's move next, so that the next step runs it (log 8). -/
def State.withFetchWord (s : State) (nbits w : Nat) : State :=
  { s.issue (tableWord nbits w) with rst := false, turns := .core :: s.turns }

end Sys2Proof.Machine
end

