-- ==== Sys2Proof/Machine/HostProgram.lean ====
section
/-! DEFINITION. Host programs (30_encoding.md R97 to R99): the statements as the HOST's turns, the pseudo-instructions and
their expansions, and the transaction records. Their text is read in HostText.lean. -/

namespace Sys2Proof.Machine

/-! ### Registers the expansions write and read -/

/-- REG.CTRL (R26). -/
def regCTRL : Word := 3#32
/-- REG.CMD (R26). -/
def regCMD : Word := 4#32
/-- REG.STATUS (R26). -/
def regSTATUS : Word := 5#32
/-- REG.ILEN (R26). -/
def regILEN : Word := 7#32
/-- REG.PLEN (R26). -/
def regPLEN : Word := 8#32

/-! ### Pseudo-instructions -/

/-- The pseudo-instructions of R98. `wait` says how many polls come before the CORE's move (log 11). -/
inductive Pseudo where
  | cmd (i : Instr)
  | wait (polls : Nat)
  | ack
  | loadi (cs : List Symbol)
  | loadp (bs : BitStr)
  | setcode (x : Symbol) (bs : BitStr) (f : Word)
  | delcode (x : Symbol)
deriving DecidableEq, Repr

/-- `wr SPACE[i], v` (R97). -/
def wr (space : Space) (i v : Word) : Turn := .bus (.write space i v)

/-- `rd SPACE[i]` (R97). -/
def rd (space : Space) (i : Word) : Turn := .bus (.read space i)

/-- Writes of consecutive indices from `i` on. -/
def wrFrom (space : Space) : Nat → List Word → List Turn
  | _, [] => []
  | i, v :: vs => wr space (BitVec.ofNat 32 i) v :: wrFrom space (i + 1) vs

/-- The first CT index of the entry of a symbol: 16 × s (R38). -/
def ctBase (x : Symbol) : Nat := ctStride * x.toNat

/-- The expansion of a pseudo-instruction (R98), with the CORE's move inside `wait` (log 11). -/
def Pseudo.turns : Pseudo → List Turn
  | .cmd i => [wr spREG regCMD (encode i)]
  | .wait polls => List.replicate polls (rd spREG regSTATUS) ++ [.core, rd spREG regSTATUS]
  | .ack => [wr spREG regSTATUS 0x00000002#32]
  | .loadi cs => wrFrom spIBUF 0 (cs.map (·.setWidth 32)) ++ [wr spREG regILEN (BitVec.ofNat 32 cs.length)]
  | .loadp bs =>
    wrFrom spPBUF 0 (bs.map fun b => (bitChar b).setWidth 32) ++ [wr spREG regPLEN (BitVec.ofNat 32 bs.length)]
  | .setcode x bs f =>
    wrFrom spCT (ctBase x)
      (BitVec.ofNat 32 (0x80000000 + bs.length) :: f ::
        (List.range 8).map fun j => (packCode bs).extractLsb' (32 * j) 32)
  | .delcode x => [wr spCT (BitVec.ofNat 32 (ctBase x)) 0#32]

/-! ### Digits -/

/-- The hexadecimal digits, each at the place of its value, upper case as the spec writes them (R97, R99). -/
def hexDigits : List Char := "0123456789ABCDEF".toList

/-- The value of a digit of host assembly: its place in `hexDigits`, in either letter case. -/
def hexValue (c : Char) : Option Nat := hexDigits.idxOf? c.toUpper

/-- The value of a sequence of digits in a base, most significant first; none on a wrong digit. -/
def digitsValue (base : Nat) : Nat → List Char → Option Nat
  | acc, [] => some acc
  | acc, c :: cs =>
    match hexValue c with
    | some d => if d < base then digitsValue base (base * acc + d) cs else none
    | none => none

/-! ### Transaction records -/

/-- The hexadecimal digit of a value below 16 (R99). -/
def hexDigit (n : Nat) : Char := hexDigits.getD n '0'

/-- The eight hexadecimal digits of a word (R99). -/
def hexWord (v : Word) : List Char := (List.range 8).map fun k => hexDigit (v.toNat / 16 ^ (7 - k) % 16)

/-- The line `K space index data` of a record (R99). -/
def BusRecord.line (r : BusRecord) : List Char :=
  (match r.kind with | .r => 'R' | .w => 'W') :: ' ' :: hexDigit r.space.toNat :: ' ' ::
    (hexWord r.index ++ ' ' :: hexWord r.data)

/-- Eight hexadecimal digits as a word. -/
def hexWordOf (cs : List Char) : Option Word :=
  if cs.length = 8 then (digitsValue 16 0 cs).map (BitVec.ofNat 32) else none

/-- The kind letter (R99). -/
def kindOf (c : Char) : Option BusKind := if c = 'R' then some .r else if c = 'W' then some .w else none

/-- The space digit (R99): 0 to 7. -/
def spaceOf (c : Char) : Option Space :=
  match hexValue c with
  | some d => if d < 8 then some (BitVec.ofNat 3 d) else none
  | none => none

/-- The record a line writes (R99). -/
def recordOf (line : List Char) : Option BusRecord :=
  match line with
  | k :: ' ' :: sp :: ' ' :: rest =>
    match kindOf k, spaceOf sp, hexWordOf (rest.take 8), (rest.drop 8).head?, hexWordOf (rest.drop 9) with
    | some kind, some space, some index, some ' ', some data =>
      some { kind := kind, space := space, index := index, data := data }
    | _, _, _, _, _ => none
  | _ => none

/-- The transaction a record stands for: a program's encoding is the list of its records (R99). -/
def BusRecord.op (r : BusRecord) : BusOp :=
  match r.kind with
  | .r => .read r.space r.index
  | .w => .write r.space r.index r.data

end Sys2Proof.Machine
end

