-- ==== Sys2Proof/Safety.lean ====
section
/-! DEFINITION. What claims call a good state and a reachable state (10_state.md R47), and the properties of codes that
claims name (40_stages.md R119; 42_decompress.md R162). -/

namespace Sys2Proof.Machine

/-- The invariants of R47, with what makes them inductive: the legal range of `I_MAX` (R10), the canonical form of the
buffers, and the ERR codes that are ever written (R210). -/
structure State.Inv (s : State) : Prop where
  iMax_legal : Config.LegalIMax s.iMax
  iLen_le : s.iLen ≤ s.iMax
  pLen_le : s.pLen ≤ Config.pMax s.iMax
  oLen_le : s.oLen ≤ Config.oMax s.iMax
  nAlpha_le : s.nAlpha ≤ 256
  done_idle : s.done = true → s.busy = false
  err_le : s.err ≤ 8#4
  ibuf_wf : Memory.wf s.iMax s.ibuf = true
  pbuf_wf : Memory.wf (Config.pMax s.iMax) s.pbuf = true
  obuf_wf : Memory.wf (Config.oMax s.iMax) s.obuf = true

/-- The states a run reaches: from the reset state for a legal `I_MAX`, with any moves of the agents, by any number of
steps. -/
inductive Reachable : State → Prop where
  | reset (iMax : Nat) (legal : Config.LegalIMax iMax) (turns : List Turn) :
      Reachable { State.resetWith iMax with turns := turns }
  | step (s t : State) (before : Reachable s) (moves : Machine.step s = .next t) : Reachable t

/-- `k` steps lead from one state to another. -/
def StepsTo : Nat → State → State → Prop
  | 0, s, t => s = t
  | k + 1, s, t => ∃ m, Machine.step s = .next m ∧ StepsTo k m t

/-- A code table is prefix-free: no code of a symbol is a prefix of the code of another symbol (R13, R119). -/
def PrefixFree (T : List Symbol) (code : Symbol → BitStr) : Prop :=
  ∀ x ∈ T, ∀ y ∈ T, code x <+: code y → x = y

/-- (x, y) is the smallest pair, in lexicographic order, for which `P` holds (R14, R162). -/
def LeastPair (P : Symbol → Symbol → Prop) (x y : Symbol) : Prop :=
  P x y ∧ ∀ x' y', P x' y' → x < x' ∨ x = x' ∧ y ≤ y'

/-- Two symbols x < y of the table share a code (R166). -/
def DuplicatePair (T : List Symbol) (code : Symbol → BitStr) (x y : Symbol) : Prop :=
  x ∈ T ∧ y ∈ T ∧ x < y ∧ code x = code y

/-- The code of x is a proper prefix of the code of another symbol y of the table (R13, R167). -/
def PrefixPair (T : List Symbol) (code : Symbol → BitStr) (x y : Symbol) : Prop :=
  x ∈ T ∧ y ∈ T ∧ x ≠ y ∧ code x <+: code y ∧ (code x).length < (code y).length

/-- The bits are the codes of `xs`, none of them empty, followed by a fragment `tail` no non-empty beginning of which is a
code (R168, R169). -/
def SplitsInto (T : List Symbol) (code : Symbol → BitStr) (bits : BitStr) (xs : List Symbol) (tail : BitStr) : Prop :=
  bits = xs.flatMap code ++ tail ∧ (∀ x ∈ xs, x ∈ T ∧ code x ≠ []) ∧ ∀ p, p <+: tail → p ≠ [] → ∀ x ∈ T, code x ≠ p

/-- The node reached from index `k` by a path: 0 goes to the left child and 1 to the right child (R118). -/
def Arena.follow (nodes : Arena) : Nat → BitStr → Option Nat
  | k, [] => some k
  | k, b :: bs =>
    match nodes[k]? with
    | some (.internal _ l r) => Arena.follow nodes (if b then r else l) bs
    | _ => none

/-- Index `a` comes first among the indices of `active` by the pair of frequency and index (R14, R112). -/
def Arena.Least (nodes : Arena) (active : List Nat) (a : Nat) : Prop :=
  a ∈ active ∧ ∀ k ∈ active, k ≠ a → nodes.freqAt a < nodes.freqAt k ∨ nodes.freqAt a = nodes.freqAt k ∧ a < k

/-- Every character of the payload is 0x30 or 0x31 (R165). -/
def State.PayloadBinary (s : State) : Prop := ∀ i < s.pLen, s.readPBUF i = 0x30#8 ∨ s.readPBUF i = 0x31#8

/-- The payload stands for the bits: `PBUF[i]` is 0x30 + bit `i` for every `i < PLEN` (R40). -/
def State.PayloadIs (s : State) (bits : BitStr) : Prop :=
  s.pLen = bits.length ∧ ∀ i (h : i < bits.length), s.readPBUF i = bitChar bits[i]

/-- `Σ over s in ORDER of FREQ[s] × |C[s]|` (R120). -/
def totalBits (m : FreqMap) (c : Codes) : Nat :=
  (m.order.map fun x => m.count x * ((c.at x).getD []).length).sum

end Sys2Proof.Machine
end

