-- ==== Sys2Proof/Certificates/Slice0/Obligations.lean ====
section
/-! DEFINITION. The statements about the model, each with the rule of spec/ it formalises or rests on. Where one says that
a completion changes nothing else, that PEND keeps the command word is the model's choice (log 2). -/

open Sys2Proof Sys2Proof.Machine

/-! ### Decoding -/

/-- R94, R95: the four table words and five illegal words of 95_test_vectors.md section 7. -/
def Obligations.TableWordsDecodeToTheirCommands : Prop :=
  decode 0x00000001#32 = .ok .compress ∧ decode 0x00000002#32 = .ok .decompress ∧
  decode 0x00000003#32 = .ok .checkTable ∧ decode 0x00000004#32 = .ok .clear ∧
  decode 0x00000000#32 = .error .opcodeZero ∧ decode 0x00000005#32 = .error .opcodeUnassigned ∧
  decode 0x000000FF#32 = .error .opcodeUnassigned ∧ decode 0x00000101#32 = .error .reservedNonzero ∧
  decode 0x80000002#32 = .error .reservedNonzero

/-- R93, R94: a word decodes to a command exactly when it is the command's word, so decode and encode agree in both
directions and no bit of a command word is dropped. -/
def Obligations.LegalWordIsTheEncodingOfItsCommand : Prop :=
  ∀ (v : Word) (i : Instr), decode v = .ok i ↔ v = encode i

/-- R95: every word with RSV ≠ 0, and every word with OP = 0x00 or OP in 0x05..0xFF, is illegal, each rejected by the
name of its reason. -/
def Obligations.IllegalWordsAreRejectedByName : Prop :=
  ∀ v : Word,
    (decode v = .error .reservedNonzero ↔ v.extractLsb' 8 24 ≠ 0#24) ∧
    (decode v = .error .opcodeZero ↔ v.extractLsb' 8 24 = 0#24 ∧ v.extractLsb' 0 8 = 0#8) ∧
    (decode v = .error .opcodeUnassigned ↔ v.extractLsb' 8 24 = 0#24 ∧ 5#8 ≤ v.extractLsb' 0 8)

/-! ### The step -/

/-- R45, R93: a CORE step runs the decoded command; what the step adds is that the CORE's turn is taken off the list
(log 5), and it is the CORE's move too when the list is empty. -/
def Obligations.StepRunsTheDecodedCommand : Prop :=
  ∀ (s : State) (i : Instr), s.busy = true → s.rst = false → decode s.pend = .ok i →
    (s.turns = [] → step s = exec i s) ∧
    ∀ rest, s.turns = .core :: rest → step s = exec i { s with turns := rest }

/-- R192: a word that is none of the four commands completes with IllegalCommandError, ERRINFO the word, and nothing else
changes. -/
def Obligations.IllegalWordCompletesWithItsError : Prop :=
  ∀ (s : State) (rest : List Turn), s.busy = true → s.rst = false → s.turns = .core :: rest →
    (s.pend.extractLsb' 8 24 ≠ 0#24 ∨ s.pend.extractLsb' 0 8 = 0#8 ∨ 5#8 ≤ s.pend.extractLsb' 0 8) →
    step s = .next { s with turns := rest, busy := false, done := true, err := 8#4, errInfo := s.pend }

/-- The host's placing of a command word (log 8): the next step runs the command, on the state its issue (R29) leaves. -/
def Obligations.PlacedWordRunsNext : Prop :=
  ∀ (s : State) (i : Instr),
    step (s.withFetchWord 32 (encode i).toNat) = exec i { s.issue (encode i) with rst := false }

/-- R29: a write of CMD while idle sets PEND, BUSY and DONE and changes nothing else (beside the model's own lists, log 5
and 6), and any 32-bit value issues; a write while busy is dropped and sets IGNWR; a read of CMD gives 0. -/
def Obligations.CmdWriteIssuesTheCommand : Prop :=
  ∀ (s : State) (v : Word) (rest : List Turn), s.rst = false → s.turns = .bus (.write 0#3 4#32 v) :: rest →
    (s.busy = false → step s = .next { s with
      turns := rest, trace := ⟨.w, 0#3, 4#32, v⟩ :: s.trace, pend := v, busy := true, done := false }) ∧
    (s.busy = true → step s = .next { s with
      turns := rest, trace := ⟨.w, 0#3, 4#32, v⟩ :: s.trace, ignwr := true }) ∧
    s.readWord 0#3 4 = 0#32

/-- R218, R228: no step stops; there is no fault, no refusal and no stuck state. -/
def Obligations.EveryStepAnswersNext : Prop :=
  ∀ s : State, ∃ t, step s = .next t

/-- R45, R227: the CORE has a step exactly when BUSY = 1; its turn while idle, or no turn at all, changes nothing else. -/
def Obligations.IdleCoreKeepsAllState : Prop :=
  ∀ s : State, s.busy = false →
    (s.turns = [] → step s = .next s) ∧
    ∀ rest, s.turns = .core :: rest → step s = .next { s with turns := rest }

/-! ### COMPRESS -/

/-- R141: ILEN = 0 completes with EmptyInputError, ERRINFO 0, and writes nothing else. -/
def Obligations.CompressOfEmptyInputFails : Prop :=
  ∀ s : State, s.iLen = 0 →
    exec .compress s = .next { s with busy := false, done := true, err := 1#4, errInfo := 0#32 }

/-- R140, R146, R149, R150: COMPRESS of a non-empty input completes with success; its stats registers, and everything it
leaves alone. -/
def Obligations.CompressWritesStatsAndLeavesTheRest : Prop :=
  ∀ s : State, s.iLen ≠ 0 → ∃ t, exec .compress s = .next t ∧
    t = { s with
      busy := false, done := true, err := 0#4, errInfo := 0#32
      ct := t.ct, pbuf := t.pbuf, pLen := t.pLen, compBits := t.compBits, ratio := t.ratio
      origBits := BitVec.ofNat 32 (8 * s.iLen)
      nAlpha := s.inputStream.dedup.length } ∧
    (s.iLen ≤ 2 ^ 27 → t.origBits.toNat = 8 * s.iLen ∧ t.origBits.toNat ≤ 2 ^ 30) ∧
    1 ≤ t.nAlpha ∧ t.nAlpha ≤ 256 ∧
    (∀ j, t.pLen ≤ j → t.readPBUF j = s.readPBUF j) ∧
    (∀ j, t.readIBUF j = s.readIBUF j) ∧ ∀ j, t.readOBUF j = s.readOBUF j

/-- R142, R143, R145: every symbol of the input has a code, the one that CountFreq, BuildTree and GenCodes give it for this
input; the payload is the concatenation, in index order, of the codes, one character per bit; elements above it keep their
value. -/
def Obligations.CompressWritesTheEncodedPayload : Prop :=
  ∀ s : State, s.iLen ≠ 0 → ∃ t T, exec .compress s = .next t ∧ buildTree (countFreq s.inputStream) = some T ∧
    (∀ i < s.iLen, (genCodes T).at (s.readIBUF i) = some (t.codeOf (s.readIBUF i))) ∧
    t.pLen = (s.inputStream.flatMap t.codeOf).length ∧
    (∀ j (h : j < (s.inputStream.flatMap t.codeOf).length),
      t.readPBUF j = if (s.inputStream.flatMap t.codeOf)[j] then 0x31#8 else 0x30#8) ∧
    ∀ j, t.pLen ≤ j → t.readPBUF j = s.readPBUF j

/-- R142, R144: COMPRESS replaces all 256 entries: VALID, the code that CountFreq, BuildTree and GenCodes give for this
input, FREQ and zero bits from LEN up for a symbol of the input; the zero entry for every other symbol. -/
def Obligations.CompressReplacesTheCodeTable : Prop :=
  ∀ s : State, s.iLen ≠ 0 → ∃ t T, exec .compress s = .next t ∧ buildTree (countFreq s.inputStream) = some T ∧ ∀ x : Symbol,
    (x ∈ s.inputStream →
      (t.entry x).valid = true ∧ (genCodes T).at x = some (t.codeOf x) ∧
      (t.entry x).freq = BitVec.ofNat 32 (s.inputStream.count x) ∧
      ∀ k, (t.entry x).len.toNat ≤ k → (t.entry x).code.getLsbD k = false) ∧
    (x ∉ s.inputStream → t.entry x = { valid := false, len := 0#8, freq := 0#32, code := 0#256 })

/-- R147: COMP_BITS is the new PLEN, is the sum of LEN × FREQ over the table, and lies between ILEN and 8 × ILEN. -/
def Obligations.CompressedSizeIsAccountedAndBounded : Prop :=
  ∀ s : State, s.iLen ≠ 0 → s.iLen ≤ 2 ^ 27 → ∃ t, exec .compress s = .next t ∧
    t.compBits.toNat = t.pLen ∧
    t.pLen = (t.tableSymbols.map fun x => (t.entry x).freq.toNat * (t.entry x).len.toNat).sum ∧
    s.iLen ≤ t.pLen ∧ t.pLen ≤ 8 * s.iLen

/-- R148: RATIO is the exact quotient rounded toward zero, in UQ16.16, and its range. -/
def Obligations.RatioIsTheRoundedQuotientInItsRange : Prop :=
  ∀ s : State, s.iLen ≠ 0 → s.iLen ≤ 2 ^ 27 → ∃ t, exec .compress s = .next t ∧
    1 ≤ t.compBits.toNat ∧
    t.ratio.toNat = t.origBits.toNat * 65536 / t.compBits.toNat ∧
    0x00010000#32 ≤ t.ratio ∧ t.ratio ≤ 0x00080000#32 ∧
    (t.compBits.toNat = 8 * s.iLen → t.ratio = 0x00010000#32) ∧
    (t.compBits.toNat = s.iLen → t.ratio = 0x00080000#32)

/-- R119: every symbol of ORDER gets exactly one code and no other symbol gets one; the code lengths; no code is a prefix
of another; distinct symbols get distinct codes. And R118: the code is the path from the root to the symbol's leaf, 0 for
left and 1 for right, or "0" for a lone symbol. -/
def Obligations.GeneratedCodesArePrefixFree : Prop :=
  ∀ xs : List Symbol, xs ≠ [] → ∃ T, buildTree (countFreq xs) = some T ∧
    (∀ x, (∃ p, (genCodes T).at x = some p) ↔ x ∈ (countFreq xs).order) ∧
    (∀ x p, (genCodes T).at x = some p →
      ((countFreq xs).order.length = 1 → p = [false]) ∧
      (2 ≤ (countFreq xs).order.length → 1 ≤ p.length ∧ p.length ≤ (countFreq xs).order.length - 1 ∧
        ∃ k, T.nodes.follow T.root p = some k ∧ T.nodes[k]? = some (.leaf x (xs.count x)))) ∧
    ∀ x y p q, (genCodes T).at x = some p → (genCodes T).at y = some q → x ≠ y → p ≠ q ∧ ¬ p <+: q

/-- R171: the table COMPRESS writes has no duplicate and no prefix pair, so CHECK_TABLE after it succeeds. -/
def Obligations.CheckTablePassesAfterCompress : Prop :=
  ∀ s : State, s.iLen ≠ 0 → ∃ t, exec .compress s = .next t ∧
    exec .checkTable t = .next { t with busy := false, done := true, err := 0#4, errInfo := 0#32 }

/-- R171, the round trip: from any idle state with 1 ≤ ILEN, a COMPRESS that completes followed by a DECOMPRESS, with no
host write between them (host reads may come anywhere), completes with ERR = 0, OLEN = ILEN and OBUF[i] = IBUF[i]. -/
def Obligations.DecompressAfterCompressRestoresTheInput : Prop :=
  ∀ (s : State) (reads₁ reads₂ reads₃ : List (Space × Word)) (rest : List Turn),
    s.busy = false → s.rst = false → 1 ≤ s.iLen →
    s.turns = wr 0#3 4#32 0x00000001#32 :: reads₁.map (fun a => rd a.1 a.2) ++ .core :: reads₂.map (fun a => rd a.1 a.2) ++
      wr 0#3 4#32 0x00000002#32 :: reads₃.map (fun a => rd a.1 a.2) ++ .core :: rest →
    ∃ u, StepsTo (reads₁.length + reads₂.length + reads₃.length + 4) s u ∧ u.turns = rest ∧
      u.busy = false ∧ u.done = true ∧ u.err = 0#4 ∧ u.oLen = s.iLen ∧ ∀ i < s.iLen, u.readOBUF i = s.readIBUF i

/-- R117, R152: COMPRESS is deterministic in its input: two states with the same input stream get the same table, payload
and stats, whatever else differs. -/
def Obligations.CompressDependsOnTheInputAlone : Prop :=
  ∀ s s' : State, s.iLen ≠ 0 → s.inputStream = s'.inputStream →
    ∃ t t', exec .compress s = .next t ∧ exec .compress s' = .next t' ∧
      t.ct = t'.ct ∧ t.pLen = t'.pLen ∧ (∀ j < t.pLen, t.readPBUF j = t'.readPBUF j) ∧
      t.origBits = t'.origBits ∧ t.compBits = t'.compBits ∧ t.ratio = t'.ratio ∧ t.nAlpha = t'.nAlpha

/-- R151, R115, R118: an input of one repeated symbol gets the one code "0" and a payload of as many zeros. -/
def Obligations.RepeatedSymbolCompressesToOneBitEach : Prop :=
  ∀ (s : State) (x : Symbol), s.iLen ≠ 0 → (∀ i < s.iLen, s.readIBUF i = x) → ∃ t, exec .compress s = .next t ∧
    t.entry x = { valid := true, len := 1#8, freq := BitVec.ofNat 32 s.iLen, code := 0#256 } ∧
    (∀ y, y ≠ x → t.entry y = CTEntry.zero) ∧
    t.pLen = s.iLen ∧ (∀ j < s.iLen, t.readPBUF j = 0x30#8) ∧ t.nAlpha = 1 ∧
    (s.iLen ≤ 2 ^ 27 → t.ratio = 0x00080000#32)

/-! ### The stages -/

/-- R110, R42: FREQ counts, ORDER lists each symbol present once by first occurrence, and the counts sum to the length. -/
def Obligations.CountFreqCountsAndOrders : Prop :=
  ∀ xs : List Symbol,
    (∀ x, (countFreq xs).count x = xs.count x) ∧
    (∀ x, x ∈ (countFreq xs).order ↔ 0 < (countFreq xs).count x) ∧
    (countFreq xs).order.Nodup ∧
    (countFreq xs).order.Pairwise (fun x y => xs.idxOf x < xs.idxOf y) ∧
    (allSymbols.map (countFreq xs).count).sum = xs.length

/-- R114: the shape of the tree for an alphabet of at least two symbols. And R111, R113: it is what the merge loop makes of
one leaf per symbol, leaf `k` for ORDER[k] with its count, its root the one index left. -/
def Obligations.BuiltTreeHasTheShapeOfAHuffmanTree : Prop :=
  ∀ xs : List Symbol, 2 ≤ (countFreq xs).order.length → ∃ T, buildTree (countFreq xs) = some T ∧
    mergeLoop (countFreq xs).order.length (leafNodes (countFreq xs)) (List.range (countFreq xs).order.length) =
      (T.nodes, [T.root]) ∧
    (∀ k (h : k < (countFreq xs).order.length),
      T.nodes[k]? = some (.leaf (countFreq xs).order[k] (xs.count (countFreq xs).order[k]))) ∧
    (countFreq xs).order.length ≤ 256 ∧
    T.nodes.length = 2 * (countFreq xs).order.length - 1 ∧
    T.root = 2 * (countFreq xs).order.length - 2 ∧
    (∃ l r, T.nodes[T.root]? = some (.internal xs.length l r)) ∧
    (∀ (k : Nat) (n : Node), T.nodes[k]? = some n → n.freq ≤ xs.length) ∧
    (∀ k f l r : Nat, T.nodes[k]? = some (.internal f l r) → (countFreq xs).order.length ≤ k ∧ l < k ∧ r < k ∧ l ≠ r) ∧
    (∀ (k : Nat) (x : Symbol) (f : Nat), T.nodes[k]? = some (.leaf x f) → k < (countFreq xs).order.length) ∧
    (∀ j, j < T.root → ∃! k : Nat, ∃ f l r, T.nodes[k]? = some (.internal f l r) ∧ (l = j ∨ r = j)) ∧
    ∀ x p, (genCodes T).at x = some p → p.length ≤ (countFreq xs).order.length - 1

/-- R112, R113: a round of the merge loop, while two or more nodes are active, takes the least by frequency and index as
the left child and the least of the others as the right child, and puts a node of the summed frequency in their place. -/
def Obligations.EachMergeTakesTheTwoLeastNodes : Prop :=
  ∀ (fuel : Nat) (nodes : Arena) (active : List Nat), active.Nodup → 2 ≤ active.length → ∃ a b,
    nodes.Least active a ∧ nodes.Least (active.erase a) b ∧
    mergeLoop (fuel + 1) nodes active =
      mergeLoop fuel (nodes ++ [.internal (nodes.freqAt a + nodes.freqAt b) a b])
        ((active.erase a).erase b ++ [nodes.length])

/-- R117: a list kept in index order, re-sorted stably by frequency at each iteration, merges the same nodes in the same
order as the selection of R112. -/
def Obligations.ResortedListMergesAsSelectionDoes : Prop :=
  ∀ (fuel : Nat) (nodes : Arena) (active : List Nat), active.Pairwise (· < ·) → (∀ k ∈ active, k < nodes.length) →
    mergeLoopBySort fuel nodes active = mergeLoop fuel nodes active

/-! ### DECOMPRESS and CHECK_TABLE -/

/-- R163, R164, R165: the three preconditions of DECOMPRESS, in their order, each with its ERRINFO and nothing else
written. -/
def Obligations.DecompressChecksItsPreconditionsInOrder : Prop :=
  ∀ s : State,
    (s.pLen = 0 →
      exec .decompress s = .next { s with busy := false, done := true, err := 2#4, errInfo := 0#32 }) ∧
    (s.pLen ≠ 0 → (∀ x, (s.entry x).valid = false) →
      exec .decompress s = .next { s with busy := false, done := true, err := 3#4, errInfo := 0#32 }) ∧
    ∀ i, s.pLen ≠ 0 → (∃ x, (s.entry x).valid = true) → i < s.pLen →
      s.readPBUF i ≠ 0x30#8 → s.readPBUF i ≠ 0x31#8 →
      (∀ j < i, s.readPBUF j = 0x30#8 ∨ s.readPBUF j = 0x31#8) →
      exec .decompress s = .next { s with busy := false, done := true, err := 4#4, errInfo := BitVec.ofNat 32 i }

/-- R162, R166, R167: DECOMPRESS of a non-empty binary payload, and CHECK_TABLE, report the smallest duplicate pair, or, when
there is none, the smallest prefix pair. -/
def Obligations.TableFaultsReportTheSmallestPair : Prop :=
  ∀ (s : State) (x y : Symbol),
    (LeastPair (DuplicatePair s.tableSymbols s.codeOf) x y →
      exec .checkTable s = .next { s with
        busy := false, done := true, err := 5#4, errInfo := BitVec.ofNat 32 (x.toNat + 256 * y.toNat) } ∧
      (s.pLen ≠ 0 → s.PayloadBinary → exec .decompress s = exec .checkTable s)) ∧
    ((∀ a b, ¬ DuplicatePair s.tableSymbols s.codeOf a b) → LeastPair (PrefixPair s.tableSymbols s.codeOf) x y →
      exec .checkTable s = .next { s with
        busy := false, done := true, err := 6#4, errInfo := BitVec.ofNat 32 (x.toNat + 256 * y.toNat) } ∧
      (s.pLen ≠ 0 → s.PayloadBinary → exec .decompress s = exec .checkTable s))

/-- R169, R170: with a table that passes the checks, every non-empty binary payload splits into the codes of symbols and a
fragment no beginning of which is a code (derived from R168); without a fragment DECOMPRESS succeeds and leaves the symbols in OBUF; with one
it fails with the index where the fragment begins. -/
def Obligations.DecompressEmitsTheSymbolsOrReportsTheFragment : Prop :=
  ∀ s : State, s.tableSymbols ≠ [] → PrefixFree s.tableSymbols s.codeOf → s.pLen ≠ 0 →
    (s.PayloadBinary → ∃ bits xs tail, s.PayloadIs bits ∧ SplitsInto s.tableSymbols s.codeOf bits xs tail) ∧
    ∀ (bits : BitStr) (xs : List Symbol) (tail : BitStr),
      s.PayloadIs bits → SplitsInto s.tableSymbols s.codeOf bits xs tail →
      (tail = [] → ∃ t, exec .decompress s = .next t ∧
        t = { s with busy := false, done := true, err := 0#4, errInfo := 0#32, obuf := t.obuf, oLen := xs.length } ∧
        (∀ j (h : j < xs.length), t.readOBUF j = xs[j]) ∧
        (∀ j, xs.length ≤ j → t.readOBUF j = s.readOBUF j) ∧ xs.length ≤ s.pLen) ∧
      (tail ≠ [] → exec .decompress s = .next { s with
        busy := false, done := true, err := 7#4, errInfo := BitVec.ofNat 32 (xs.flatMap s.codeOf).length })

/-- R168, R169: over any table the decoding loop splits every payload into the codes of the symbols it emits and the
accumulator it leaves, a fragment no beginning of which is a code; `last` is where the fragment begins. -/
def Obligations.EveryPayloadSplitsIntoCodesAndAFragment : Prop :=
  ∀ (T : List Symbol) (code : Symbol → BitStr) (bits : BitStr),
    SplitsInto T code bits (decodeBits T code bits).out (decodeBits T code bits).acc ∧
    (decodeBits T code bits).last = ((decodeBits T code bits).out.flatMap code).length

/-- R92, R170, R214: DECOMPRESS always completes; it writes OBUF and OLEN on success only, and no element of any buffer but
OBUF below OLEN. -/
def Obligations.DecompressWritesOnlyItsOutput : Prop :=
  ∀ s : State, ∃ t, exec .decompress s = .next t ∧
    t = { s with busy := false, done := true, err := t.err, errInfo := t.errInfo, obuf := t.obuf, oLen := t.oLen } ∧
    (t.err ≠ 0#4 → t.oLen = s.oLen ∧ ∀ j, t.readOBUF j = s.readOBUF j) ∧
    (t.err = 0#4 → t.oLen ≤ s.pLen ∧ ∀ j, t.oLen ≤ j → t.readOBUF j = s.readOBUF j) ∧
    (∀ j, t.readIBUF j = s.readIBUF j) ∧ ∀ j, t.readPBUF j = s.readPBUF j

/-- R161: CODE bits at index LEN and above, the FREQ field and every entry with VALID = 0 take no part in DECOMPRESS or
CHECK_TABLE. -/
def Obligations.DecodersReadOnlyTheCodesOfValidEntries : Prop :=
  ∀ s s' : State, s.payload = s'.payload →
    (∀ x, (s.entry x).valid = (s'.entry x).valid) →
    (∀ x, (s.entry x).valid = true → (s.entry x).len = (s'.entry x).len ∧
      ∀ k < (s.entry x).len.toNat, (s.entry x).code.getLsbD k = (s'.entry x).code.getLsbD k) →
    (∃ t t', exec .decompress s = .next t ∧ exec .decompress s' = .next t' ∧ t.err = t'.err ∧ t.errInfo = t'.errInfo ∧
      (t.err = 0#4 → t.oLen = t'.oLen ∧ ∀ j < t.oLen, t.readOBUF j = t'.readOBUF j)) ∧
    ∃ t t', exec .checkTable s = .next t ∧ exec .checkTable s' = .next t' ∧ t.err = t'.err ∧ t.errInfo = t'.errInfo

/-- R172: a decoder that stops reading once the accumulator is a prefix of no code has the same result. -/
def Obligations.EarlyStopDecoderHasTheSameResult : Prop :=
  ∀ (T : List Symbol) (code : Symbol → BitStr) (bits : BitStr),
    (decodeEarlyStop T code 0 bits { acc := [], out := [], last := 0 }).result = (decodeBits T code bits).result

/-- R172: for a table that passes TableCheck the trie walk emits the same symbols, or reports the same fragment, as the
accumulator. -/
def Obligations.TrieDecoderHasTheSameResult : Prop :=
  ∀ (T : List Symbol) (code : Symbol → BitStr) (bits : BitStr), tableCheck T code = none →
    trieDecode T code bits = (decodeBits T code bits).result

/-- R164, R173: CHECK_TABLE fails on an empty table, succeeds on a table no code of which is a prefix of another, and fails
with one of the two structural errors on any other; it writes nothing but STATUS and ERRINFO. -/
def Obligations.CheckTableDecidesPrefixFreedom : Prop :=
  ∀ s : State,
    (s.tableSymbols = [] →
      exec .checkTable s = .next { s with busy := false, done := true, err := 3#4, errInfo := 0#32 }) ∧
    (s.tableSymbols ≠ [] → PrefixFree s.tableSymbols s.codeOf →
      exec .checkTable s = .next { s with busy := false, done := true, err := 0#4, errInfo := 0#32 }) ∧
    (¬ PrefixFree s.tableSymbols s.codeOf → ∃ code info, (code = 5#4 ∨ code = 6#4) ∧
      exec .checkTable s = .next { s with busy := false, done := true, err := code, errInfo := info })

/-- R173: a table that passes CHECK_TABLE passes the table part of DECOMPRESS, and one that fails it fails DECOMPRESS with
the same error. -/
def Obligations.CheckTableForetellsDecompress : Prop :=
  ∀ s : State, s.pLen ≠ 0 → s.PayloadBinary → ∃ t u, exec .checkTable s = .next t ∧ exec .decompress s = .next u ∧
    (t.err ≠ 0#4 → u = t) ∧ (t.err = 0#4 → u.err = 0#4 ∨ u.err = 7#4)

/-! ### CLEAR -/

/-- R190, R191: CLEAR zeroes the length and stats registers, NALPHA and every CT entry, keeps everything else, and completes
with `irq` following IE; and what each command does right after it. -/
def Obligations.ClearZeroesTableAndRegisters : Prop :=
  ∀ s : State, ∃ t, exec .clear s = .next t ∧
    t = { s with
      busy := false, done := true, err := 0#4, errInfo := 0#32
      iLen := 0, pLen := 0, oLen := 0, origBits := 0#32, compBits := 0#32, ratio := 0#32, nAlpha := 0, ct := t.ct } ∧
    (∀ x, t.entry x = { valid := false, len := 0#8, freq := 0#32, code := 0#256 }) ∧
    (∀ j, t.readIBUF j = s.readIBUF j ∧ t.readPBUF j = s.readPBUF j ∧ t.readOBUF j = s.readOBUF j) ∧ t.irq = s.ie ∧
    exec .clear t = .next t ∧ exec .decompress t = .next { t with err := 2#4 } ∧
    exec .checkTable t = .next { t with err := 3#4 } ∧ exec .compress t = .next { t with err := 1#4 }

/-! ### Completion -/

/-- R214: a command that completes with an error writes nothing but BUSY, DONE, ERR and ERRINFO. -/
def Obligations.FailedCommandWritesOnlyStatus : Prop :=
  ∀ (i : Instr) (s t : State), exec i s = .next t → t.err ≠ 0#4 →
    t = { s with busy := false, done := true, err := t.err, errInfo := t.errInfo }

/-- R45, R28, R39: every command completes, with info 0 on success and an ERR code of at most 8; no command changes CTRL.IE,
IGNWR, IBUF or the model's own fields. That PEND keeps the command word is the model's choice (log 2): the spec leaves PEND
while idle at any value. -/
def Obligations.EveryCommandCompletes : Prop :=
  ∀ (i : Instr) (s : State), ∃ t, exec i s = .next t ∧ t.busy = false ∧ t.done = true ∧
    (t.err = 0#4 → t.errInfo = 0#32) ∧ t.err ≤ 8#4 ∧
    t.iMax = s.iMax ∧ t.pend = s.pend ∧ t.ie = s.ie ∧ t.ignwr = s.ignwr ∧ t.ibuf = s.ibuf ∧
    (∀ j, t.readIBUF j = s.readIBUF j) ∧
    t.fill = s.fill ∧ t.draws = s.draws ∧ t.rst = s.rst ∧ t.turns = s.turns ∧ t.trace = s.trace

/-- R215, R216: the errors each command can report. -/
def Obligations.CommandsReportOnlyTheirOwnErrors : Prop :=
  ∀ s t : State,
    (exec .compress s = .next t → t.err = 0#4 ∨ t.err = 1#4) ∧
    (exec .decompress s = .next t →
      t.err = 0#4 ∨ t.err = 2#4 ∨ t.err = 3#4 ∨ t.err = 4#4 ∨ t.err = 5#4 ∨ t.err = 6#4 ∨ t.err = 7#4) ∧
    (exec .checkTable s = .next t → t.err = 0#4 ∨ t.err = 3#4 ∨ t.err = 5#4 ∨ t.err = 6#4) ∧
    (exec .clear s = .next t → t.err = 0#4)

/-- R74, R218, R255: whatever transactions the host makes first, a busy CORE that is then given its move completes. -/
def Obligations.BusyCoreCompletesAfterAnyHostTurns : Prop :=
  ∀ (s : State) (ops : List BusOp) (rest : List Turn), s.busy = true → s.rst = false →
    s.turns = ops.map Turn.bus ++ .core :: rest →
    ∃ t, StepsTo (ops.length + 1) s t ∧ t.busy = false ∧ t.done = true ∧ t.turns = rest

/-! ### The host port -/

/-- R251, R32, R33: ILEN and PLEN are WARL: a legal value is stored, an illegal one leaves the register unchanged; nothing
else changes. -/
def Obligations.LengthWritesKeepTheLegalRange : Prop :=
  ∀ (s : State) (v : Word) (rest : List Turn), s.busy = false → s.rst = false →
    (s.turns = .bus (.write 0#3 7#32 v) :: rest →
      step s = .next { s with
        turns := rest, trace := ⟨.w, 0#3, 7#32, v⟩ :: s.trace
        iLen := if v.toNat ≤ s.iMax then v.toNat else s.iLen }) ∧
    (s.turns = .bus (.write 0#3 8#32 v) :: rest →
      step s = .next { s with
        turns := rest, trace := ⟨.w, 0#3, 8#32, v⟩ :: s.trace
        pLen := if v.toNat ≤ 8 * s.iMax then v.toNat else s.pLen })

/-- R24, R28, R30, R67: CTRL and STATUS are written busy or idle: IE takes bit 0, a 1 in bit 1 clears DONE, a 1 in bit 2
clears IGNWR, and nothing else changes. -/
def Obligations.ControlAndStatusWritesAreAlwaysPerformed : Prop :=
  ∀ (s : State) (v : Word) (rest : List Turn), s.rst = false →
    (s.turns = .bus (.write 0#3 3#32 v) :: rest →
      step s = .next { s with
        turns := rest, trace := ⟨.w, 0#3, 3#32, v⟩ :: s.trace, ie := v.getLsbD 0 }) ∧
    (s.turns = .bus (.write 0#3 5#32 v) :: rest →
      step s = .next { s with
        turns := rest, trace := ⟨.w, 0#3, 5#32, v⟩ :: s.trace
        done := if v.getLsbD 1 then false else s.done
        ignwr := if v.getLsbD 2 then false else s.ignwr })

/-- R67, R25: while busy a write of CMD, ILEN, PLEN, or an in-range element of IBUF, PBUF or CT is dropped and sets IGNWR,
and every other write but CTRL's and STATUS's is ignored. That the reserved words of a CT entry are ignored without IGNWR is
the model's reading (log 9). -/
def Obligations.BusyWritesAreDropped : Prop :=
  ∀ (s : State) (sp : Space) (i v : Word) (rest : List Turn), s.busy = true → s.rst = false →
    s.turns = .bus (.write sp i v) :: rest →
    let locked := (sp = 0#3 ∧ (i = 4#32 ∨ i = 7#32 ∨ i = 8#32)) ∨ (sp = 1#3 ∧ i.toNat < s.iMax) ∨
      (sp = 2#3 ∧ i.toNat < 8 * s.iMax) ∨ (sp = 4#3 ∧ i.toNat < 4096 ∧ i.toNat % 16 < 10)
    (locked → step s = .next { s with turns := rest, trace := ⟨.w, sp, i, v⟩ :: s.trace, ignwr := true }) ∧
    (¬ locked → ¬ (sp = 0#3 ∧ (i = 3#32 ∨ i = 5#32)) →
      step s = .next { s with turns := rest, trace := ⟨.w, sp, i, v⟩ :: s.trace })

/-- R61, R67, R69: a read changes no state (beside the model's own record and draw counter); while idle, and for ID, VERSION,
CAP_IMAX, CTRL and STATUS also while busy, it returns the location's exact word. -/
def Obligations.ReadsChangeNothingAndAreExact : Prop :=
  ∀ (s : State) (sp : Space) (i : Word) (rest : List Turn), s.rst = false → s.turns = .bus (.read sp i) :: rest →
    ∃ w n, step s = .next { s with turns := rest, draws := n, trace := ⟨.r, sp, i, w⟩ :: s.trace } ∧
      (s.busy = false → w = s.readWord sp i.toNat ∧ n = s.draws) ∧
      (sp = 0#3 → i = 0#32 ∨ i = 1#32 ∨ i = 2#32 ∨ i = 3#32 ∨ i = 5#32 → w = s.readWord sp i.toNat ∧ n = s.draws)

/-- R26, R30: the word each register reads, and the fields of STATUS. -/
def Obligations.RegisterWordsFollowTheMap : Prop :=
  ∀ s : State,
    s.readWord 0#3 0 = 0x48554646#32 ∧ s.readWord 0#3 1 = 0x00000007#32 ∧ s.readWord 0#3 2 = BitVec.ofNat 32 s.iMax ∧
    s.readWord 0#3 3 = (if s.ie then 1#32 else 0#32) ∧ s.readWord 0#3 4 = 0#32 ∧
    (s.readWord 0#3 5).getLsbD 0 = s.busy ∧ (s.readWord 0#3 5).getLsbD 1 = s.done ∧
    (s.readWord 0#3 5).getLsbD 2 = s.ignwr ∧ (s.readWord 0#3 5).extractLsb' 8 4 = s.err ∧
    (s.readWord 0#3 5).extractLsb' 3 5 = 0#5 ∧ (s.readWord 0#3 5).extractLsb' 12 20 = 0#20 ∧
    s.readWord 0#3 6 = s.errInfo ∧ s.readWord 0#3 7 = BitVec.ofNat 32 s.iLen ∧
    s.readWord 0#3 8 = BitVec.ofNat 32 s.pLen ∧ s.readWord 0#3 9 = BitVec.ofNat 32 s.oLen ∧
    s.readWord 0#3 10 = s.origBits ∧ s.readWord 0#3 11 = s.compBits ∧ s.readWord 0#3 12 = s.ratio ∧
    s.readWord 0#3 13 = BitVec.ofNat 32 s.nAlpha

/-- R27: ID, VERSION and CAP_IMAX read their constants, and no step changes them. -/
def Obligations.IdentityRegistersAreConstant : Prop :=
  ∀ s t : State, step s = .next t →
    t.readWord 0#3 0 = 0x48554646#32 ∧ t.readWord 0#3 1 = 0x00000007#32 ∧
    t.readWord 0#3 2 = BitVec.ofNat 32 s.iMax ∧ t.iMax = s.iMax

/-- R65, R41: an element is stored from bits [7:0] and read back zero-extended; every other element keeps its value; a write
of OBUF is ignored. -/
def Obligations.BufferWritesStoreOneElement : Prop :=
  ∀ (s : State) (i v : Word) (rest : List Turn), s.busy = false → s.rst = false →
    (s.turns = .bus (.write 1#3 i v) :: rest → i.toNat < s.iMax → ∃ t, step s = .next t ∧
      t = { s with turns := rest, trace := ⟨.w, 1#3, i, v⟩ :: s.trace, ibuf := t.ibuf } ∧
      t.readWord 1#3 i.toNat = (v.extractLsb' 0 8).setWidth 32 ∧ ∀ j, j ≠ i.toNat → t.readIBUF j = s.readIBUF j) ∧
    (s.turns = .bus (.write 2#3 i v) :: rest → i.toNat < 8 * s.iMax → ∃ t, step s = .next t ∧
      t = { s with turns := rest, trace := ⟨.w, 2#3, i, v⟩ :: s.trace, pbuf := t.pbuf } ∧
      t.readWord 2#3 i.toNat = (v.extractLsb' 0 8).setWidth 32 ∧ ∀ j, j ≠ i.toNat → t.readPBUF j = s.readPBUF j) ∧
    (s.turns = .bus (.write 3#3 i v) :: rest →
      step s = .next { s with turns := rest, trace := ⟨.w, 3#3, i, v⟩ :: s.trace }) ∧
    (i.toNat < 8 * s.iMax → s.readWord 3#3 i.toNat = (s.readOBUF i.toNat).setWidth 32)

/-- R38: a write of word `w` of the entry of symbol `x` stores the word's fields, reads back with reserved bits 0, and leaves
every other word of the CT space as it was. -/
def Obligations.CodeTableWordsFollowTheLayout : Prop :=
  ∀ (s : State) (x : Symbol) (w : Nat) (v : Word) (rest : List Turn), s.busy = false → s.rst = false → w < 16 →
    s.turns = .bus (.write 4#3 (BitVec.ofNat 32 (16 * x.toNat + w)) v) :: rest → ∃ t, step s = .next t ∧
      t = { s with
        turns := rest, trace := ⟨.w, 4#3, BitVec.ofNat 32 (16 * x.toNat + w), v⟩ :: s.trace, ct := t.ct } ∧
      (w = 0 → (t.entry x).valid = v.getLsbD 31 ∧ (t.entry x).len = v.extractLsb' 0 8) ∧
      (w = 1 → (t.entry x).freq = v) ∧
      (2 ≤ w → w < 10 → ∀ b < 32, (t.entry x).code.getLsbD (32 * (w - 2) + b) = v.getLsbD b) ∧
      t.readWord 4#3 (16 * x.toNat + w) = (if w = 0 then v &&& 0x800000FF#32 else if w < 10 then v else 0#32) ∧
      ∀ k, k ≠ 16 * x.toNat + w → t.readWord 4#3 k = s.readWord 4#3 k

/-- R64: an index outside a space's range, and every index of spaces 5 to 7, reads 0 and ignores a write, busy or idle, with
no flag set. -/
def Obligations.ReservedLocationsReadZeroAndIgnoreWrites : Prop :=
  ∀ (s : State) (sp : Space) (i v : Word) (rest : List Turn), s.rst = false →
    (sp = 0#3 ∧ 14 ≤ i.toNat) ∨ (sp = 1#3 ∧ s.iMax ≤ i.toNat) ∨ (sp = 2#3 ∧ 8 * s.iMax ≤ i.toNat) ∨
      (sp = 3#3 ∧ 8 * s.iMax ≤ i.toNat) ∨ (sp = 4#3 ∧ 4096 ≤ i.toNat) ∨ 5#3 ≤ sp →
    (s.turns = .bus (.read sp i) :: rest →
      step s = .next { s with turns := rest, trace := ⟨.r, sp, i, 0#32⟩ :: s.trace }) ∧
    (s.turns = .bus (.write sp i v) :: rest →
      step s = .next { s with turns := rest, trace := ⟨.w, sp, i, v⟩ :: s.trace })

/-! ### The whole machine -/

/-- R23, R240: only a CMD write while idle makes the CORE busy, with PEND the written word; only a CORE step, which
completes, or the reset input makes it idle. -/
def Obligations.BusyChangesOnlyAtIssueAndCompletion : Prop :=
  ∀ s t : State, step s = .next t →
    (s.busy = false → t.busy = true →
      ∃ v rest, s.turns = .bus (.write 0#3 4#32 v) :: rest ∧ s.rst = false ∧ t.pend = v ∧ t.done = false) ∧
    (s.busy = true → t.busy = false →
      (((s.turns = [] ∨ ∃ rest, s.turns = .core :: rest) ∧ s.rst = false ∧ t.done = true) ∨
        ∃ b rest, s.turns = .rst b :: rest))

/-- R77, R67: while busy no host transaction changes PEND or what a command reads (IBUF, PBUF, CT, ILEN and PLEN), or ends
the command. -/
def Obligations.OperandsCannotChangeWhileBusy : Prop :=
  ∀ (s t : State) (op : BusOp) (rest : List Turn), s.busy = true → s.turns = .bus op :: rest → step s = .next t →
    t.busy = true ∧ t.pend = s.pend ∧ t.iLen = s.iLen ∧ t.pLen = s.pLen ∧ t.ct = s.ct ∧
    (∀ j, t.readIBUF j = s.readIBUF j) ∧ ∀ j, t.readPBUF j = s.readPBUF j

/-- R46: `irq` is DONE and IE. It rises at the completion of a command while IE = 1, and when the host sets IE while DONE = 1;
it falls when the host clears DONE, issues a new command or clears IE, and at reset (R240). It does so at no other step. That
a release level of the reset input is a reset event, and leaves `irq` 0, even when the input is not asserted is the model's
choice (log 7, DESIGN CHOICE). -/
def Obligations.InterruptRisesAndFallsAsTheRuleSays : Prop :=
  ∀ s t : State, step s = .next t → s.irq = (s.done && s.ie) ∧
    (s.rst = false → s.busy = true → s.ie = true → (s.turns = [] ∨ ∃ rest, s.turns = .core :: rest) → t.irq = true) ∧
    (∀ v rest, s.rst = false → s.turns = .bus (.write 0#3 3#32 v) :: rest →
      (v.getLsbD 0 = true → s.done = true → t.irq = true) ∧ (v.getLsbD 0 = false → t.irq = false)) ∧
    (∀ v rest, s.rst = false → s.turns = .bus (.write 0#3 5#32 v) :: rest → v.getLsbD 1 = true → t.irq = false) ∧
    (∀ v rest, s.rst = false → s.turns = .bus (.write 0#3 4#32 v) :: rest → s.busy = false → t.irq = false) ∧
    (∀ b rest, s.turns = .rst b :: rest → t.irq = false) ∧
    (s.irq = false → t.irq = true →
      (s.busy = true ∧ t.busy = false ∧ s.ie = true) ∨
      ∃ v rest, s.turns = .bus (.write 0#3 3#32 v) :: rest ∧ v.getLsbD 0 = true ∧ s.done = true) ∧
    (s.irq = true → t.irq = false →
      (∃ v rest, s.turns = .bus (.write 0#3 5#32 v) :: rest ∧ v.getLsbD 1 = true) ∨
      (∃ v rest, s.turns = .bus (.write 0#3 4#32 v) :: rest ∧ s.busy = false) ∨
      (∃ v rest, s.turns = .bus (.write 0#3 3#32 v) :: rest ∧ v.getLsbD 0 = false) ∨
      ∃ b rest, s.turns = .rst b :: rest)

/-- R48: the reset state, for every I_MAX; the contents of the buffers are free and nothing is said of them. -/
def Obligations.ResetStateHoldsTheResetValues : Prop :=
  ∀ n : Nat, (State.resetWith n).iMax = n ∧ (State.resetWith n).busy = false ∧ (State.resetWith n).ie = false ∧
    (State.resetWith n).readWord 0#3 5 = 0#32 ∧ (State.resetWith n).errInfo = 0#32 ∧
    (State.resetWith n).iLen = 0 ∧ (State.resetWith n).pLen = 0 ∧ (State.resetWith n).oLen = 0 ∧
    (State.resetWith n).origBits = 0#32 ∧ (State.resetWith n).compBits = 0#32 ∧ (State.resetWith n).ratio = 0#32 ∧
    (State.resetWith n).nAlpha = 0 ∧ (State.resetWith n).irq = false ∧
    ∀ x, (State.resetWith n).entry x = { valid := false, len := 0#8, freq := 0#32, code := 0#256 }

/-- R240, R241: a level of the reset input puts every register and the table at its reset value from any state, a busy
command being abandoned without DONE; while it is asserted neither the CORE nor the host changes anything. The model's own
choices (log 7, DESIGN CHOICE, unsafe for a claim about what the host sees of such a transaction): a transaction under reset
leaves the list of turns with no record and no answer, and a release level is a reset event even when the input is not
asserted. -/
def Obligations.ResetAbandonsTheCommandAndZeroesTheState : Prop :=
  ∀ (s : State) (rest : List Turn),
    (∀ b, s.turns = .rst b :: rest → ∃ t, step s = .next t ∧ t.rst = b ∧ t.turns = rest ∧ t.iMax = s.iMax ∧
      t.busy = false ∧ t.ie = false ∧ t.done = false ∧ t.ignwr = false ∧ t.err = 0#4 ∧ t.errInfo = 0#32 ∧
      t.iLen = 0 ∧ t.pLen = 0 ∧ t.oLen = 0 ∧ t.origBits = 0#32 ∧ t.compBits = 0#32 ∧ t.ratio = 0#32 ∧ t.nAlpha = 0 ∧
      t.irq = false ∧ ∀ x, t.entry x = { valid := false, len := 0#8, freq := 0#32, code := 0#256 }) ∧
    (s.rst = true → ∀ op, s.turns = .bus op :: rest → step s = .next { s with turns := rest }) ∧
    (s.rst = true → s.turns = .core :: rest → step s = .next { s with turns := rest })

/-- R47 and the canonical form of the buffers: the invariant is kept by every step from every state that has it. Its part
PLEN ≤ P_MAX rests on the size bound of R120. -/
def Obligations.StepKeepsTheInvariant : Prop :=
  ∀ s t : State, s.Inv → step s = .next t → t.Inv

/-- R47, R48: the invariant holds at reset, for every legal I_MAX and any moves to come, and at `State.reset`. -/
def Obligations.ResetHasTheInvariant : Prop :=
  (∀ (n : Nat) (turns : List Turn), Config.LegalIMax n → ({ State.resetWith n with turns := turns } : State).Inv) ∧
    State.reset.Inv

/-- R47: what holds in every reachable state. -/
def Obligations.ReachableStatesKeepTheRegisterBounds : Prop :=
  ∀ s : State, Reachable s →
    s.iLen ≤ s.iMax ∧ s.pLen ≤ 8 * s.iMax ∧ s.oLen ≤ 8 * s.iMax ∧ s.nAlpha ≤ 256 ∧ (s.done = true → s.busy = false)

/-! ### Host programs -/

/-- R99: the line of a transaction record reads back as the record. -/
def Obligations.TransactionRecordLineReadsBack : Prop :=
  ∀ r : BusRecord, recordOf r.line = some r

/-- R98: `loadi` leaves IBUF[0..k) holding the symbols and ILEN = k. -/
def Obligations.LoadiLoadsTheInput : Prop :=
  ∀ (s : State) (cs : List Symbol) (rest : List Turn), s.busy = false → s.rst = false → s.iMax < 2 ^ 32 →
    cs.length ≤ s.iMax → s.turns = (Pseudo.loadi cs).turns ++ rest →
    ∃ t, StepsTo (cs.length + 1) s t ∧ t.turns = rest ∧ t.iLen = cs.length ∧ t.inputStream = cs ∧
      (∀ j, cs.length ≤ j → t.readIBUF j = s.readIBUF j) ∧
      t = { s with turns := rest, trace := t.trace, ibuf := t.ibuf, iLen := cs.length }

/-- R98: `setcode` leaves the entry VALID with the code and the frequency, and no stale CODE bit: those below LEN are the
code's, those from LEN up are 0. -/
def Obligations.SetcodeLoadsTheEntry : Prop :=
  ∀ (s : State) (x : Symbol) (bs : BitStr) (f : Word) (rest : List Turn), s.busy = false → s.rst = false →
    bs.length ≤ 255 → s.turns = (Pseudo.setcode x bs f).turns ++ rest →
    ∃ t, StepsTo 10 s t ∧ t = { s with turns := rest, trace := t.trace, ct := t.ct } ∧
      (t.entry x).valid = true ∧ (t.entry x).len.toNat = bs.length ∧ (t.entry x).freq = f ∧ t.codeOf x = bs ∧
      (∀ k, bs.length ≤ k → (t.entry x).code.getLsbD k = false) ∧
      ∀ y, y ≠ x → t.entry y = s.entry y
end

