-- ==== Sys2Proof/Laws/CountFreq.lean ====
section
/-! SUPPORT. What the Frequency Counter computes (40_stages.md R110). -/

namespace Sys2Proof.Machine

theorem FreqMap.count_add (m : FreqMap) (s x : Symbol) :
    (m.add s).count x = if s = x then m.count s + 1 else m.count x := by
  simp only [FreqMap.count, FreqMap.add, Vector.getElem_set, BitVec.toNat_inj]

theorem FreqMap.order_add (m : FreqMap) (s : Symbol) :
    (m.add s).order = if m.count s = 0 then m.order ++ [s] else m.order := rfl

@[simp] theorem FreqMap.count_empty (s : Symbol) : FreqMap.empty.count s = 0 := by
  simp [FreqMap.count, FreqMap.empty]

@[simp] theorem FreqMap.order_empty : FreqMap.empty.order = [] := rfl

/-- The map is that of some stream `ys` already read: the loop's invariant. -/
structure FreqMap.Counts (m : FreqMap) (ys : List Symbol) : Prop where
  count_eq : ∀ x, m.count x = ys.count x
  mem_order : ∀ x, x ∈ m.order ↔ x ∈ ys
  nodup : m.order.Nodup
  first : m.order.Pairwise fun x y => ys.idxOf x < ys.idxOf y

theorem FreqMap.Counts.add {m : FreqMap} {ys : List Symbol} (h : m.Counts ys) (s : Symbol) :
    (m.add s).Counts (ys ++ [s]) := by
  have hz : m.count s = 0 ↔ s ∉ ys := by rw [h.count_eq, List.count_eq_zero]
  have idx : ∀ x ∈ m.order, (ys ++ [s]).idxOf x = ys.idxOf x := fun x hx =>
    List.idxOf_append_of_mem ((h.mem_order x).1 hx)
  have old : m.order.Pairwise fun x y => (ys ++ [s]).idxOf x < (ys ++ [s]).idxOf y := by
    refine h.first.imp_of_mem fun {x y} hx hy hlt => ?_
    rwa [idx x hx, idx y hy]
  refine ⟨fun x => ?_, fun x => ?_, ?_, ?_⟩
  · rw [FreqMap.count_add, List.count_append, List.count_singleton, h.count_eq]
    by_cases hs : s = x <;> simp [hs, h.count_eq]
  · rw [FreqMap.order_add]
    split
    · simp [h.mem_order]
    · rename_i hc
      have hmem : s ∈ ys := by simpa [hz] using hc
      simp only [h.mem_order, List.mem_append, List.mem_singleton]
      refine ⟨Or.inl, ?_⟩
      rintro (hx | rfl)
      exacts [hx, hmem]
  · rw [FreqMap.order_add]
    split
    · rename_i hc
      have : s ∉ m.order := by rw [h.mem_order]; exact hz.1 hc
      refine List.nodup_append.2 ⟨h.nodup, List.nodup_singleton s, ?_⟩
      rintro x hx y hy rfl
      exact this (by simpa [List.mem_singleton.1 hy] using hx)
    · exact h.nodup
  · rw [FreqMap.order_add]
    split
    · rename_i hc
      refine List.pairwise_append.2 ⟨old, List.pairwise_singleton _ _, ?_⟩
      intro x hx y hy
      rw [List.mem_singleton.1 hy, idx x hx, List.idxOf_append_of_notMem (hz.1 hc)]
      have := List.idxOf_lt_length_of_mem ((h.mem_order x).1 hx)
      omega
    · exact old

theorem foldl_add_counts {m : FreqMap} {ys : List Symbol} (h : m.Counts ys) (xs : List Symbol) :
    (xs.foldl FreqMap.add m).Counts (ys ++ xs) := by
  induction xs generalizing m ys with
  | nil => simpa using h
  | cons x xs ih => simpa using ih (h.add x)

/-- `CountFreq`: counts, and the distinct symbols by first occurrence. -/
theorem countFreq_counts (xs : List Symbol) : (countFreq xs).Counts xs := by
  have h : FreqMap.empty.Counts [] :=
    ⟨by simp, by simp, List.nodup_nil, List.Pairwise.nil⟩
  exact foldl_add_counts h xs

@[simp] theorem countFreq_count (xs : List Symbol) (x : Symbol) : (countFreq xs).count x = xs.count x :=
  (countFreq_counts xs).count_eq x

@[simp] theorem mem_countFreq_order (xs : List Symbol) (x : Symbol) : x ∈ (countFreq xs).order ↔ x ∈ xs :=
  (countFreq_counts xs).mem_order x

theorem countFreq_order_nodup (xs : List Symbol) : (countFreq xs).order.Nodup := (countFreq_counts xs).nodup

/-- A list of distinct symbols has at most 256 elements. -/
theorem nodup_symbols_length {l : List Symbol} (h : l.Nodup) : l.length ≤ 256 := by
  have h₂ : (l.map BitVec.toNat).Nodup := h.map fun _ _ hxy => BitVec.eq_of_toNat_eq hxy
  have h₃ : (l.map BitVec.toNat) ⊆ List.range 256 := by
    intro n hn
    obtain ⟨x, -, rfl⟩ := List.mem_map.1 hn
    exact List.mem_range.2 x.isLt
  have := (List.subperm_of_subset h₂ h₃).length_le
  simpa using this

theorem countFreq_order_length (xs : List Symbol) : (countFreq xs).order.length ≤ 256 :=
  nodup_symbols_length (countFreq_order_nodup xs)

/-- A sum over a stream, taken symbol by symbol: each distinct symbol as often as it occurs. -/
theorem sum_map_eq_sum_order (xs : List Symbol) (f : Symbol → Nat) :
    (xs.map f).sum = ((countFreq xs).order.map fun x => xs.count x * f x).sum := by
  have hfin : ∀ l : List Symbol, l.Nodup → (∀ x, x ∈ l ↔ x ∈ xs) →
      (l.map fun x => xs.count x * f x).sum = ∑ x ∈ xs.toFinset, xs.count x * f x := by
    intro l hl hmem
    have : l.toFinset = xs.toFinset := by ext x; simp [hmem]
    rw [← this, List.sum_toFinset _ hl]
  rw [hfin _ (countFreq_order_nodup xs) (by simp), Finset.sum_list_map_count]
  simp

theorem sum_count_order (xs : List Symbol) : ((countFreq xs).order.map fun x => xs.count x).sum = xs.length := by
  have := sum_map_eq_sum_order xs fun _ => 1
  simpa using this.symm

end Sys2Proof.Machine
end

