-- ==== Sys2Proof/Laws/Tree.lean ====
section
/-! SUPPORT. The trees the arena represents (40_stages.md R114, R118, R119): their leaves, codes, size and cost, and
that the codes of one tree are prefix-free. -/

namespace Sys2Proof.Machine

/-- A tree as a value: what an arena index stands for. -/
inductive HTree where
  | leaf (s : Symbol) (f : Nat)
  | node (l r : HTree)
deriving DecidableEq, Repr

namespace HTree

/-- The frequency of the root. -/
def weight : HTree → Nat
  | .leaf _ f => f
  | .node l r => l.weight + r.weight

/-- The number of nodes. -/
def size : HTree → Nat
  | .leaf _ _ => 1
  | .node l r => l.size + r.size + 1

/-- The sum of the frequencies of the internal nodes. -/
def cost : HTree → Nat
  | .leaf _ _ => 0
  | .node l r => l.cost + r.cost + (l.weight + r.weight)

/-- The leaves, left to right: symbol, frequency and root-to-leaf path. -/
def coded : HTree → List (Symbol × Nat × BitStr)
  | .leaf s f => [(s, f, [])]
  | .node l r =>
    (l.coded.map fun z => (z.1, z.2.1, false :: z.2.2)) ++ r.coded.map fun z => (z.1, z.2.1, true :: z.2.2)

/-- The leaves, left to right: symbol and frequency. -/
def leaves : HTree → List (Symbol × Nat)
  | .leaf s f => [(s, f)]
  | .node l r => l.leaves ++ r.leaves

theorem size_pos (t : HTree) : 0 < t.size := by cases t <;> simp [size]

theorem coded_leaves (t : HTree) : t.coded.map (fun z => (z.1, z.2.1)) = t.leaves := by
  induction t with
  | leaf s f => rfl
  | node l r ihl ihr => simp [coded, leaves, ← ihl, ← ihr, Function.comp_def]

theorem leaves_length_pos (t : HTree) : 0 < t.leaves.length := by
  induction t with
  | leaf s f => simp [leaves]
  | node l r ihl ihr => simp [leaves]; omega

theorem size_leaves (t : HTree) : t.size + 1 = 2 * t.leaves.length := by
  induction t with
  | leaf s f => rfl
  | node l r ihl ihr => simp [leaves, size]; omega

theorem sum_leaves (t : HTree) : (t.leaves.map (·.2)).sum = t.weight := by
  induction t with
  | leaf s f => simp [leaves, weight]
  | node l r ihl ihr => simp [leaves, weight, ← ihl, ← ihr]

/-- A path is shorter than the number of leaves. -/
theorem path_length_lt {t : HTree} {z : Symbol × Nat × BitStr} (h : z ∈ t.coded) : z.2.2.length < t.leaves.length := by
  induction t generalizing z with
  | leaf s f => simp [coded] at h; simp [h, leaves]
  | node l r ihl ihr =>
    have hl := leaves_length_pos l
    have hr := leaves_length_pos r
    simp only [coded, List.mem_append, List.mem_map] at h
    rcases h with ⟨y, hy, rfl⟩ | ⟨y, hy, rfl⟩
    · have := ihl hy; simp [leaves]; omega
    · have := ihr hy; simp [leaves]; omega

/-- Only a lone leaf has an empty path. -/
theorem path_pos {l r : HTree} {z : Symbol × Nat × BitStr} (h : z ∈ (node l r).coded) : 0 < z.2.2.length := by
  simp only [coded, List.mem_append, List.mem_map] at h
  rcases h with ⟨y, -, rfl⟩ | ⟨y, -, rfl⟩ <;> simp

/-- A shift of every path by one bit adds the weight once. -/
theorem sum_cons (l : List (Symbol × Nat × BitStr)) (b : Bool) :
    ((l.map fun z => (z.1, z.2.1, b :: z.2.2)).map fun z => z.2.1 * z.2.2.length).sum =
      (l.map fun z => z.2.1 * z.2.2.length).sum + (l.map fun z => z.2.1).sum := by
  induction l with
  | nil => rfl
  | cons z l ih =>
    simp only [List.map_cons, List.sum_cons, ih, List.length_cons, Nat.mul_add, Nat.mul_one]
    omega

/-- The cost of a tree is the sum over its leaves of frequency times path length. -/
theorem cost_eq (t : HTree) : (t.coded.map fun z => z.2.1 * z.2.2.length).sum = t.cost := by
  induction t with
  | leaf s f => simp [coded, cost]
  | node l r ihl ihr =>
    have w : ∀ t : HTree, (t.coded.map fun z => z.2.1).sum = t.weight := fun t => by
      rw [← sum_leaves t, ← coded_leaves t, List.map_map]; rfl
    rw [coded, List.map_append, List.sum_append, sum_cons, sum_cons, ihl, ihr, w, w, cost]
    omega

/-- A tree of `n` leaves of weight at least 1 costs at least `n × (d + 2) - 2^(d+1)`, for every `d`. -/
theorem cost_ge (t : HTree) (h : ∀ z ∈ t.leaves, 1 ≤ z.2) (d : Nat) :
    t.leaves.length * (d + 2) ≤ 2 ^ (d + 1) + t.cost ∧ t.leaves.length ≤ t.weight := by
  induction t generalizing d with
  | leaf s f =>
    have := h (s, f) (by simp [leaves])
    have h2 := Nat.lt_two_pow_self (n := d)
    simp only [leaves, cost, weight, List.length_cons, List.length_nil, pow_succ] at *
    omega
  | node l r ihl ihr =>
    have hl := fun d => ihl (fun z hz => h z (by simp [leaves, hz])) d
    have hr := fun d => ihr (fun z hz => h z (by simp [leaves, hz])) d
    have pl := leaves_length_pos l
    have pr := leaves_length_pos r
    simp only [leaves, cost, weight, List.length_append]
    cases d with
    | zero => have := hl 0; have := hr 0; omega
    | succ d =>
      have a := hl d
      have b := hr d
      rw [Nat.add_mul, pow_succ]
      have e : ∀ n, n * (d + 1 + 2) = n * (d + 2) + n := fun n => by rw [← Nat.mul_succ]
      rw [e, e]; omega

/-- Two leaves whose paths are one a prefix of the other are the same leaf. -/
theorem coded_prefixFree {t : HTree} (hn : (t.leaves.map (·.1)).Nodup) {z z' : Symbol × Nat × BitStr} (hz : z ∈ t.coded)
    (hz' : z' ∈ t.coded) (h : z.2.2 <+: z'.2.2) : z = z' := by
  induction t generalizing z z' with
  | leaf s f => simp [coded] at hz hz'; rw [hz, hz']
  | node l r ihl ihr =>
    simp only [leaves, List.map_append, List.nodup_append] at hn
    simp only [coded, List.mem_append, List.mem_map] at hz hz'
    rcases hz with ⟨y, hy, rfl⟩ | ⟨y, hy, rfl⟩ <;> rcases hz' with ⟨y', hy', rfl⟩ | ⟨y', hy', rfl⟩ <;>
      simp only [List.cons_prefix_cons, true_and] at h
    · rw [ihl hn.1 hy hy' h]
    · exact absurd h.1 (by simp)
    · exact absurd h.1 (by simp)
    · rw [ihr hn.2.1 hy hy' h]

end HTree

/-- Index `k` of the arena stands for the tree. -/
inductive Rep (nodes : Arena) : Nat → HTree → Prop where
  | leaf {k : Nat} {s : Symbol} {f : Nat} (h : nodes[k]? = some (.leaf s f)) : Rep nodes k (.leaf s f)
  | node {k l r : Nat} {tl tr : HTree} (h : nodes[k]? = some (.internal (tl.weight + tr.weight) l r))
      (hl : Rep nodes l tl) (hr : Rep nodes r tr) : Rep nodes k (.node tl tr)

namespace Rep

theorem lt {nodes : Arena} {k : Nat} {t : HTree} (h : Rep nodes k t) : k < nodes.length := by
  cases h with
  | leaf h => exact (List.getElem?_eq_some_iff.1 h).1
  | node h _ _ => exact (List.getElem?_eq_some_iff.1 h).1

theorem freqAt {nodes : Arena} {k : Nat} {t : HTree} (h : Rep nodes k t) : nodes.freqAt k = t.weight := by
  cases h with
  | leaf h => simp [Arena.freqAt, h, Node.freq, HTree.weight]
  | node h _ _ => simp [Arena.freqAt, h, Node.freq, HTree.weight]

theorem append {nodes : Arena} {k : Nat} {t : HTree} (h : Rep nodes k t) (more : Arena) : Rep (nodes ++ more) k t := by
  have ext : ∀ {k : Nat} {n : Node}, nodes[k]? = some n → (nodes ++ more)[k]? = some n := fun {k n} hk => by
    rw [List.getElem?_append_left (List.getElem?_eq_some_iff.1 hk).1, hk]
  induction h with
  | leaf h => exact .leaf (ext h)
  | node h _ _ ihl ihr => exact .node (ext h) ihl ihr

end Rep

end Sys2Proof.Machine
end

