-- ==== Sys2Proof/Laws/BuildTree.lean ====
section
/-! SUPPORT. What the Tree Builder computes (40_stages.md R111 to R114): selection is minimal, the loop ends in one tree
over all the leaves, and its cost is at most that of any assignment of two neighbouring code lengths (R120). -/

namespace Sys2Proof.Machine

/-! ### Selection -/

theorem selectFrom_mem (nodes : Arena) (k : Nat) (js : List Nat) : selectFrom nodes k js ∈ k :: js := by
  induction js generalizing k with
  | nil => simp [selectFrom]
  | cons j js ih =>
    rw [selectFrom]
    by_cases h : pairLt nodes j k = true
    · rw [if_pos h]; exact List.mem_cons_of_mem k (ih j)
    · rw [if_neg h]
      rcases List.mem_cons.1 (ih k) with h | h
      · rw [h]; exact List.mem_cons_self
      · exact List.mem_cons_of_mem k (List.mem_cons_of_mem j h)

theorem pairLt_iff {nodes : Arena} {j k : Nat} :
    pairLt nodes j k = true ↔ nodes.freqAt j < nodes.freqAt k ∨ nodes.freqAt j = nodes.freqAt k ∧ j < k := by
  simp [pairLt]

theorem pairLt_trans {nodes : Arena} {i j k : Nat} (h₁ : pairLt nodes i j = true) (h₂ : pairLt nodes j k = true) :
    pairLt nodes i k = true := by
  rw [pairLt_iff] at *; omega

/-- The selected index has the smallest pair (R112). -/
theorem selectFrom_least (nodes : Arena) (k : Nat) (js : List Nat) :
    ∀ j ∈ k :: js, j ≠ selectFrom nodes k js → pairLt nodes (selectFrom nodes k js) j = true := by
  induction js generalizing k with
  | nil => intro j hj hne; simp_all [selectFrom]
  | cons i js ih =>
    intro j hj hne
    rw [selectFrom] at hne ⊢
    have hm := ih (if pairLt nodes i k then i else k)
    rcases List.mem_cons.1 hj with rfl | hj
    · by_cases hik : pairLt nodes i j = true
      · rw [if_pos hik] at hm hne ⊢
        by_cases hs : i = selectFrom nodes i js
        · rw [← hs]; exact hik
        · exact pairLt_trans (hm i (by simp) hs) hik
      · rw [if_neg hik] at hm hne ⊢
        exact hm j (by simp) hne
    · rcases List.mem_cons.1 hj with rfl | hj
      · by_cases hik : pairLt nodes j k = true
        · rw [if_pos hik] at hm hne ⊢
          exact hm j (by simp) hne
        · rw [if_neg hik] at hm hne ⊢
          by_cases hs : k = selectFrom nodes k js
          · rw [← hs] at hne ⊢
            rw [pairLt_iff] at hik ⊢; omega
          · have := hm k (by simp) hs
            rw [pairLt_iff] at *; omega
      · exact hm j (by simp [hj]) hne

theorem selectFrom_freq_le (nodes : Arena) (k : Nat) (js : List Nat) (j : Nat) (hj : j ∈ k :: js) :
    nodes.freqAt (selectFrom nodes k js) ≤ nodes.freqAt j := by
  by_cases h : j = selectFrom nodes k js
  · rw [← h]
  · have := selectFrom_least nodes k js j hj h
    rw [pairLt_iff] at this; omega

/-- The two selections of one merge. -/
theorem two_selections (nodes : Arena) (k j : Nat) (rest : List Nat) (hn : (k :: j :: rest).Nodup) :
    ∃ a b active₂, a = selectFrom nodes k (j :: rest) ∧
      b = selectFrom nodes (((k :: j :: rest).erase a).headD 0) ((k :: j :: rest).erase a).tail ∧
      active₂ = ((k :: j :: rest).erase a).erase b ∧
      (k :: j :: rest).Perm (a :: b :: active₂) ∧ (a :: b :: active₂).Nodup ∧
      ∀ z ∈ active₂, nodes.freqAt a ≤ nodes.freqAt z ∧ nodes.freqAt b ≤ nodes.freqAt z := by
  refine ⟨_, _, _, rfl, rfl, rfl, ?_⟩
  generalize ha : selectFrom nodes k (j :: rest) = a
  have hma : a ∈ k :: j :: rest := ha ▸ selectFrom_mem ..
  have hpa := List.perm_cons_erase hma
  have hne : (k :: j :: rest).erase a ≠ [] := by
    intro h; have := hpa.length_eq; simp [h] at this
  obtain ⟨h, tl, hl⟩ := List.exists_cons_of_ne_nil hne
  rw [hl]
  simp only [List.headD_cons, List.tail_cons]
  generalize hb : selectFrom nodes h tl = b
  have hmb : b ∈ h :: tl := hb ▸ selectFrom_mem ..
  have hpb := List.perm_cons_erase hmb
  have hp : (k :: j :: rest).Perm (a :: b :: (h :: tl).erase b) := by
    rw [hl] at hpa; exact hpa.trans (hpb.cons a)
  refine ⟨hp, hp.nodup_iff.1 hn, fun z hz => ⟨?_, ?_⟩⟩
  · rw [← ha]; exact selectFrom_freq_le _ _ _ _ (hp.mem_iff.2 (by simp [hz]))
  · rw [← hb]; exact selectFrom_freq_le _ _ _ _ (List.mem_of_mem_erase hz)

theorem mergeLoop_merge (fuel : Nat) (nodes : Arena) (k j : Nat) (rest : List Nat) (a b : Nat) (active₂ : List Nat)
    (ha : a = selectFrom nodes k (j :: rest))
    (hb : b = selectFrom nodes (((k :: j :: rest).erase a).headD 0) ((k :: j :: rest).erase a).tail)
    (h₂ : active₂ = ((k :: j :: rest).erase a).erase b) :
    mergeLoop (fuel + 1) nodes (k :: j :: rest) =
      mergeLoop fuel (nodes ++ [.internal (nodes.freqAt a + nodes.freqAt b) a b]) (active₂ ++ [nodes.length]) := by
  rw [mergeLoop, h₂, hb, ha]

/-- The merge loop only appends to the arena (R113). -/
theorem mergeLoop_append (fuel : Nat) (nodes : Arena) (active : List Nat) :
    ∃ more, (mergeLoop fuel nodes active).1 = nodes ++ more := by
  induction fuel generalizing nodes active with
  | zero => exact ⟨[], by simp [mergeLoop]⟩
  | succ fuel ih =>
    match active with
    | [] => exact ⟨[], by simp [mergeLoop]⟩
    | [k] => exact ⟨[], by simp [mergeLoop]⟩
    | k :: j :: rest =>
      obtain ⟨more, h⟩ := ih _ _
      exact ⟨_ :: more, by rw [mergeLoop, h, List.append_assoc]; rfl⟩

/-! ### The exchange of code lengths -/

/-- Taking the shorter of two code lengths away from the two least weights never loses weight. -/
theorem exists_exchange (A P : Finset Nat) (w : Nat → Nat) (a b : Nat)
    (hmin : ∀ z ∈ (A.erase a).erase b, w a ≤ w z ∧ w b ≤ w z) (hP : P ⊆ A) (hA : P.card ≤ ((A.erase a).erase b).card) :
    ∃ Q ⊆ (A.erase a).erase b, Q.card = P.card ∧ ∑ k ∈ P, w k ≤ ∑ k ∈ Q, w k := by
  set R := (A.erase a).erase b with hR
  set P₀ := (P.erase a).erase b with hP₀
  have h₀ : P₀ ⊆ R := Finset.erase_subset_erase _ (Finset.erase_subset_erase _ hP)
  have h₀P : P₀ ⊆ P := (Finset.erase_subset _ _).trans (Finset.erase_subset _ _)
  have hcard : (P \ P₀).card ≤ (R \ P₀).card := by
    rw [Finset.card_sdiff_of_subset h₀P, Finset.card_sdiff_of_subset h₀]; omega
  obtain ⟨S, hS, hSc⟩ := Finset.exists_subset_card_eq hcard
  have hSR : S ⊆ R := hS.trans Finset.sdiff_subset
  have hdis : Disjoint P₀ S := Finset.disjoint_left.2 fun z hz hzS => (Finset.mem_sdiff.1 (hS hzS)).2 hz
  have hsplit := Finset.sum_sdiff (f := w) h₀P
  have hPc := Finset.card_sdiff_add_card_eq_card h₀P
  refine ⟨P₀ ∪ S, Finset.union_subset h₀ hSR, ?_, ?_⟩
  · rw [Finset.card_union_of_disjoint hdis, hSc]; omega
  · rw [Finset.sum_union hdis]
    have h₁ : ∑ k ∈ P \ P₀, w k ≤ (P \ P₀).card * max (w a) (w b) := by
      have := Finset.sum_le_card_nsmul (P \ P₀) w (max (w a) (w b)) fun z hz => ?_
      · simpa using this
      · rw [Finset.mem_sdiff, hP₀, Finset.mem_erase, Finset.mem_erase] at hz
        by_cases hza : z = a
        · subst hza; exact le_max_left _ _
        · by_cases hzb : z = b
          · subst hzb; exact le_max_right _ _
          · exact absurd ⟨hzb, hza, hz.1⟩ hz.2
    have h₂ : S.card * max (w a) (w b) ≤ ∑ k ∈ S, w k := by
      have := Finset.card_nsmul_le_sum S w (max (w a) (w b)) fun z hz => ?_
      · simpa using this
      · exact max_le (hmin z (hSR hz)).1 (hmin z (hSR hz)).2
    rw [hSc] at h₂
    omega

/-! ### The merge loop -/

/-- What the merge loop leaves: one tree over all the leaves of the trees it started from. -/
structure Merged (nodes : Arena) (active : List Nat) (tr : Nat → HTree) (nodes' : Arena) (t : HTree) : Prop where
  leaves_perm : t.leaves.Perm (active.flatMap fun k => (tr k).leaves)
  nodes_length : nodes'.length + 1 = nodes.length + active.length
  /-- For any code length `d` and any set `P` of trees given length `d - 1`, if the lengths satisfy Kraft's inequality the
  cost is at most that of the assignment. -/
  cost_le : ∀ d (P : Finset Nat), P ⊆ active.toFinset → active.length + P.card ≤ 2 ^ d →
    t.cost + ∑ k ∈ P, (tr k).weight ≤ ∑ k ∈ active.toFinset, (tr k).cost + d * ∑ k ∈ active.toFinset, (tr k).weight

theorem merged_single (nodes : Arena) (k : Nat) (tr : Nat → HTree) : Merged nodes [k] tr nodes (tr k) := by
  refine ⟨by simp, by simp, fun d P hP hd => ?_⟩
  have hw : ∑ i ∈ P, (tr i).weight ≤ d * (tr k).weight := by
    by_cases h : P = ∅
    · simp [h]
    · have : 1 ≤ P.card := Finset.card_pos.2 (Finset.nonempty_iff_ne_empty.2 h)
      have hd1 : 1 ≤ d := by
        by_contra hlt
        have : d = 0 := by omega
        subst this; simp at hd; exact h hd
      calc ∑ i ∈ P, (tr i).weight ≤ ∑ i ∈ [k].toFinset, (tr i).weight := Finset.sum_le_sum_of_subset hP
        _ = 1 * (tr k).weight := by simp
        _ ≤ d * (tr k).weight := Nat.mul_le_mul_right _ hd1
  simpa using hw

/-- One merge more: what holds after the rest of the loop holds of the whole. -/
theorem Merged.of_step {nodes nodes' : Arena} {active active₂ : List Nat} {tr : Nat → HTree} {t : HTree} {a b : Nat}
    {n : Node} (hperm : active.Perm (a :: b :: active₂)) (hnd : active.Nodup) (hlt : ∀ k ∈ active, k < nodes.length)
    (hmin : ∀ z ∈ active₂, (tr a).weight ≤ (tr z).weight ∧ (tr b).weight ≤ (tr z).weight)
    (h : Merged (nodes ++ [n]) (active₂ ++ [nodes.length])
      (Function.update tr nodes.length (.node (tr a) (tr b))) nodes' t) :
    Merged nodes active tr nodes' t := by
  set N := nodes.length with hN
  set tr' := Function.update tr N (.node (tr a) (tr b)) with htr'
  have hnd' := hperm.nodup_iff.1 hnd
  have hab : a ≠ b := by rintro rfl; simp at hnd'
  have ha₂ : a ∉ active₂ := by simp at hnd'; tauto
  have hb₂ : b ∉ active₂ := by simp at hnd'; tauto
  have hNnot : N ∉ active₂ := fun hm => by
    have := hlt N (hperm.mem_iff.2 (by simp [hm])); omega
  have hkeep : ∀ k ∈ active₂, tr' k = tr k := fun k hk => by
    rw [htr', Function.update_of_ne]; rintro rfl; exact hNnot hk
  have htrN : tr' N = .node (tr a) (tr b) := Function.update_self ..
  have hlen : active.length = active₂.length + 2 := by simpa using hperm.length_eq
  have hA : active.toFinset = insert a (insert b active₂.toFinset) := by
    ext z; simp [hperm.mem_iff]
  have hA' : (active₂ ++ [N]).toFinset = insert N active₂.toFinset := by
    ext z; simp
  have hR : (active.toFinset.erase a).erase b = active₂.toFinset := by
    rw [hA]; ext z
    simp only [Finset.mem_erase, Finset.mem_insert, List.mem_toFinset]
    constructor
    · rintro ⟨h₁, h₂, h₃⟩; tauto
    · intro hz
      exact ⟨fun e => hb₂ (e ▸ hz), fun e => ha₂ (e ▸ hz), Or.inr (Or.inr hz)⟩
  have sumA : ∀ f : Nat → Nat, ∑ k ∈ active.toFinset, f k = f a + (f b + ∑ k ∈ active₂.toFinset, f k) := fun f => by
    rw [hA, Finset.sum_insert (by simp [hab, ha₂]), Finset.sum_insert (by simp [hb₂])]
  have sumA' : ∀ f : HTree → Nat, ∑ k ∈ (active₂ ++ [N]).toFinset, f (tr' k) =
      f (.node (tr a) (tr b)) + ∑ k ∈ active₂.toFinset, f (tr k) := fun f => by
    rw [hA', Finset.sum_insert (by simp [hNnot]), htrN]
    congr 1
    exact Finset.sum_congr rfl fun k hk => by rw [hkeep k (List.mem_toFinset.1 hk)]
  have card₂ : active₂.toFinset.card = active₂.length := by
    rw [List.toFinset_card_of_nodup]; simp at hnd'; tauto
  refine ⟨?_, ?_, fun d P hP hd => ?_⟩
  · refine h.leaves_perm.trans ?_
    rw [List.flatMap_append]
    have : (active₂.flatMap fun k => (tr' k).leaves) = active₂.flatMap fun k => (tr k).leaves :=
      List.flatMap_congr fun k hk => by rw [hkeep k hk]
    rw [this]
    simp only [List.flatMap_cons, List.flatMap_nil, List.append_nil, htrN, HTree.leaves]
    have e := hperm.flatMap_right fun k => (tr k).leaves
    simp only [List.flatMap_cons, ← List.append_assoc] at e
    exact List.perm_append_comm.trans e.symm
  · have := h.nodes_length
    simp at this; omega
  · have hPc : P.card ≤ active.length := by
      have := Finset.card_le_card hP
      rwa [List.toFinset_card_of_nodup hnd] at this
    have hcost : ∀ d (Q : Finset Nat), Q ⊆ active₂.toFinset → active.length + Q.card ≤ 2 ^ d →
        t.cost + ∑ k ∈ Q, (tr k).weight ≤
          ∑ k ∈ active.toFinset, (tr k).cost + d * ∑ k ∈ active.toFinset, (tr k).weight := by
      intro d Q hQ hd
      have hNQ : N ∉ Q := fun hm => hNnot (List.mem_toFinset.1 (hQ hm))
      have := h.cost_le d (insert N Q) (by rw [hA']; exact Finset.insert_subset_insert _ hQ) (by
        rw [Finset.card_insert_of_notMem hNQ]; simp; omega)
      rw [Finset.sum_insert hNQ, htrN, sumA' HTree.cost, sumA' HTree.weight] at this
      have hQsum : ∑ k ∈ Q, (tr' k).weight = ∑ k ∈ Q, (tr k).weight :=
        Finset.sum_congr rfl fun k hk => by rw [hkeep k (List.mem_toFinset.1 (hQ hk))]
      rw [hQsum] at this
      rw [sumA, sumA]
      simp only [HTree.cost, HTree.weight] at this
      simp only [Nat.mul_add] at this ⊢
      omega
    by_cases hc : P.card + 2 ≤ active.length
    · obtain ⟨Q, hQ, hQc, hQs⟩ := exists_exchange active.toFinset P (fun k => (tr k).weight) a b
        (by rw [hR]; exact fun z hz => hmin z (List.mem_toFinset.1 hz)) hP (by rw [hR, card₂]; omega)
      rw [hR] at hQ
      have := hcost d Q hQ (by omega)
      exact le_trans (Nat.add_le_add_left hQs _) this
    · obtain ⟨d, rfl⟩ : ∃ e, d = e + 1 := by
        cases d with
        | zero => simp at hd; omega
        | succ e => exact ⟨e, rfl⟩
      have := hcost d ∅ (by simp) (by rw [pow_succ] at hd; simp; omega)
      simp only [Finset.sum_empty, Nat.add_zero] at this
      have hPw : ∑ k ∈ P, (tr k).weight ≤ ∑ k ∈ active.toFinset, (tr k).weight := Finset.sum_le_sum_of_subset hP
      rw [Nat.add_mul, Nat.one_mul]
      omega

/-- The merge loop over trees ends in one tree, its root the only active index (R113, R114). -/
theorem mergeLoop_spec (fuel : Nat) (nodes : Arena) (active : List Nat) (tr : Nat → HTree) (hnd : active.Nodup)
    (hne : active ≠ []) (hfuel : active.length ≤ fuel + 1) (hrep : ∀ k ∈ active, Rep nodes k (tr k)) :
    ∃ nodes' root t, mergeLoop fuel nodes active = (nodes', [root]) ∧ Rep nodes' root t ∧ Merged nodes active tr nodes' t := by
  induction fuel generalizing nodes active tr with
  | zero =>
    match active, hne, hfuel, hrep with
    | [k], _, _, hrep => exact ⟨nodes, k, tr k, rfl, hrep k (by simp), merged_single nodes k tr⟩
  | succ fuel ih =>
    match active, hne, hfuel, hrep, hnd with
    | [k], _, _, hrep, _ => exact ⟨nodes, k, tr k, rfl, hrep k (by simp), merged_single nodes k tr⟩
    | k :: j :: rest, _, hfuel, hrep, hnd =>
      obtain ⟨a, b, active₂, ha, hb, h₂, hperm, hnd', hmin⟩ := two_selections nodes k j rest hnd
      rw [mergeLoop_merge fuel nodes k j rest a b active₂ ha hb h₂]
      have hra := hrep a (hperm.mem_iff.2 (by simp))
      have hrb := hrep b (hperm.mem_iff.2 (by simp))
      have hlt : ∀ z ∈ k :: j :: rest, z < nodes.length := fun z hz => (hrep z hz).lt
      have hNnot : nodes.length ∉ active₂ := fun hm => by
        have := hlt _ (hperm.mem_iff.2 (by simp [hm] : nodes.length ∈ a :: b :: active₂)); omega
      have hlen := hperm.length_eq
      simp only [List.length_cons] at hlen hfuel
      set n : Node := .internal (nodes.freqAt a + nodes.freqAt b) a b
      obtain ⟨nodes', root, t, hrun, hroot, hm⟩ := ih (nodes ++ [n]) (active₂ ++ [nodes.length])
        (Function.update tr nodes.length (.node (tr a) (tr b)))
        (by
          refine List.nodup_append.2 ⟨by simp at hnd'; tauto, List.nodup_singleton _, ?_⟩
          rintro z hz y hy rfl
          exact hNnot (by simpa [List.mem_singleton.1 hy] using hz))
        (by simp) (by simp; omega)
        (by
          intro z hz
          rcases List.mem_append.1 hz with hz | hz
          · rw [Function.update_of_ne (by rintro rfl; exact hNnot hz)]
            exact (hrep z (hperm.mem_iff.2 (by simp [hz]))).append _
          · rw [List.mem_singleton.1 hz, Function.update_self]
            refine .node ?_ (hra.append _) (hrb.append _)
            rw [← hra.freqAt, ← hrb.freqAt]
            simp [n])
      refine ⟨nodes', root, t, hrun, hroot, Merged.of_step hperm hnd hlt (fun z hz => ?_) hm⟩
      have := hmin z hz
      have hrz := hrep z (hperm.mem_iff.2 (by simp [hz]))
      rwa [hra.freqAt, hrb.freqAt, hrz.freqAt] at this

/-! ### BuildTree -/

/-- The tree BuildTree makes of a stream: one leaf per distinct symbol with its count, and a cost of at most `d` per
symbol for any `d` with 2^d ≥ n. -/
structure BuiltFor (xs : List Symbol) (T : Tree) (t : HTree) : Prop where
  root_rep : Rep T.nodes T.root t
  leaves_perm : t.leaves.Perm ((countFreq xs).order.map fun x => (x, xs.count x))
  nodes_size : T.nodes.length = t.size
  cost_le : ∀ d, (countFreq xs).order.length ≤ 2 ^ d → t.cost ≤ d * xs.length

theorem order_ne_nil {xs : List Symbol} (h : xs ≠ []) : (countFreq xs).order ≠ [] := by
  obtain ⟨x, tl, rfl⟩ := List.exists_cons_of_ne_nil h
  exact List.ne_nil_of_mem ((mem_countFreq_order _ x).2 (by simp))

/-- BuildTree on a non-empty stream gives a tree (R114). -/
theorem buildTree_spec {xs : List Symbol} (h : xs ≠ []) :
    ∃ T t, buildTree (countFreq xs) = some T ∧ BuiltFor xs T t := by
  set m := countFreq xs with hm
  have hlen : (leafNodes m).length = m.order.length := by simp [leafNodes]
  have hget : ∀ k (hk : k < m.order.length), (leafNodes m)[k]? = some (.leaf m.order[k] (m.count m.order[k])) :=
    fun k hk => by simp [leafNodes, hk]
  let tr : Nat → HTree := fun k => match m.order[k]? with
    | some s => .leaf s (m.count s)
    | none => .leaf 0#8 0
  have htr : ∀ k (hk : k < m.order.length), tr k = .leaf m.order[k] (m.count m.order[k]) := fun k hk => by
    simp [tr, hk]
  have hne : List.range m.order.length ≠ [] := by
    simpa using order_ne_nil h
  obtain ⟨nodes', root, t, hrun, hroot, hmg⟩ := mergeLoop_spec m.order.length (leafNodes m)
    (List.range m.order.length) tr List.nodup_range hne (by simp) (fun k hk => by
      rw [List.mem_range] at hk
      rw [htr k hk]; exact .leaf (hget k hk))
  have hleaves : ((List.range m.order.length).flatMap fun k => (tr k).leaves) = m.order.map fun x => (x, xs.count x) := by
    rw [List.flatMap_def]
    have : (List.range m.order.length).map (fun k => (tr k).leaves) = m.order.map fun x => [(x, xs.count x)] := by
      apply List.ext_getElem
      · simp
      · intro k h₁ h₂
        simp only [List.length_map, List.length_range] at h₁
        simp [htr k h₁, HTree.leaves, hm]
    rw [this, ← List.flatMap_def]
    exact (List.map_eq_flatMap ..).symm
  have hperm := hmg.leaves_perm
  rw [hleaves] at hperm
  have hln : t.leaves.length = m.order.length := by simpa using hperm.length_eq
  refine ⟨{ nodes := nodes', root := root }, t, ?_, ⟨hroot, hperm, ?_, fun d hd => ?_⟩⟩
  · simp [buildTree, hrun]
  · have h₁ := hmg.nodes_length
    have h₂ := HTree.size_leaves t
    simp only [List.length_range] at h₁
    simp only; omega
  · have hc := hmg.cost_le d ∅ (by simp) (by simpa using hd)
    have hfin : (List.range m.order.length).toFinset = Finset.range m.order.length := by ext; simp
    have hsum : ∀ f : HTree → Nat, ∑ k ∈ (List.range m.order.length).toFinset, f (tr k) =
        (m.order.map fun x => f (.leaf x (xs.count x))).sum := fun f => by
      rw [List.sum_toFinset _ List.nodup_range]
      congr 1
      apply List.ext_getElem
      · simp
      · intro k h₁ h₂
        simp only [List.length_map, List.length_range] at h₁
        simp [htr k h₁, hm]
    rw [hsum HTree.cost, hsum HTree.weight] at hc
    simp only [HTree.cost, HTree.weight, Finset.sum_empty] at hc
    rw [sum_count_order xs] at hc
    simpa using hc

end Sys2Proof.Machine
end

