-- ==== Sys2Proof/Laws/Memory.lean ====
section
/-! SUPPORT. The laws of buffers: read after write, and that every operation keeps the canonical form. -/

namespace Sys2Proof.Machine

@[simp] theorem Memory.get?_nil (i : Nat) : Memory.get? [] i = none := rfl

theorem Memory.get?_cons (a : Nat) (b : Byte) (m : Memory) (i : Nat) :
    Memory.get? ((a, b) :: m) i = if a = i then some b else Memory.get? m i := rfl

/-- A read after a write: the written element gives the value, every other one what it gave. -/
theorem Memory.get?_set (m : Memory) (i : Nat) (v : Byte) (j : Nat) :
    (m.set i v).get? j = if i = j then some v else m.get? j := by
  induction m with
  | nil => simp [Memory.set, Memory.get?_cons]
  | cons c m ih =>
    obtain ⟨a, b⟩ := c
    simp only [Memory.set]
    split
    · simp [Memory.get?_cons]
    · split
      · subst_vars; by_cases h : a = j <;> simp [Memory.get?_cons, h]
      · rw [Memory.get?_cons, ih, Memory.get?_cons]
        by_cases h : a = j <;> simp [h]
        omega

@[simp] theorem Memory.get?_set_self (m : Memory) (i : Nat) (v : Byte) : (m.set i v).get? i = some v := by
  simp [Memory.get?_set]

theorem Memory.get?_set_ne (m : Memory) (i : Nat) (v : Byte) (j : Nat) (h : i ≠ j) :
    (m.set i v).get? j = m.get? j := by
  simp [Memory.get?_set, h]

/-- A read after a write of consecutive elements. -/
theorem Memory.get?_setFrom (m : Memory) (start : Nat) (vs : List Byte) (j : Nat) :
    (m.setFrom start vs).get? j =
      if start ≤ j ∧ j < start + vs.length then vs[j - start]? else m.get? j := by
  induction vs generalizing m start with
  | nil => simp [Memory.setFrom]
  | cons v vs ih =>
    rw [Memory.setFrom, ih, Memory.get?_set]
    by_cases h : start = j
    · subst h; simp
    · by_cases h₂ : start + 1 ≤ j ∧ j < start + 1 + vs.length
      · have h₃ : start ≤ j ∧ j < start + (v :: vs).length := by simp; omega
        rw [if_pos h₂, if_pos h₃, show j - start = (j - (start + 1)) + 1 by omega]
        simp
      · have h₃ : ¬(start ≤ j ∧ j < start + (v :: vs).length) := by simp; omega
        rw [if_neg h₂, if_neg h₃, if_neg h]

theorem Memory.risingFrom_mono {lo lo' : Nat} {m : Memory} (h : lo' ≤ lo) (hm : m.risingFrom lo = true) :
    m.risingFrom lo' = true := by
  cases m with
  | nil => rfl
  | cons c m =>
    simp only [Memory.risingFrom, Bool.and_eq_true, decide_eq_true_eq] at *
    exact ⟨by omega, hm.2⟩

theorem Memory.risingFrom_set {lo : Nat} {m : Memory} {i : Nat} (v : Byte) (hm : m.risingFrom lo = true)
    (hi : lo ≤ i) : (m.set i v).risingFrom lo = true := by
  induction m generalizing lo with
  | nil => simp [Memory.set, Memory.risingFrom, hi]
  | cons c m ih =>
    obtain ⟨a, b⟩ := c
    simp only [Memory.risingFrom, Bool.and_eq_true, decide_eq_true_eq] at hm
    simp only [Memory.set]
    split
    · simp only [Memory.risingFrom, Bool.and_eq_true, decide_eq_true_eq]
      exact ⟨hi, by omega, hm.2⟩
    · split
      · subst_vars; simp [Memory.risingFrom, hm.1, hm.2]
      · simp only [Memory.risingFrom, Bool.and_eq_true, decide_eq_true_eq]
        exact ⟨hm.1, ih hm.2 (by omega)⟩

theorem Memory.all_lt_set {cap : Nat} {m : Memory} {i : Nat} (v : Byte)
    (hm : (m.all fun c => decide (c.1 < cap)) = true) (hi : i < cap) :
    ((m.set i v).all fun c => decide (c.1 < cap)) = true := by
  induction m with
  | nil => simp [Memory.set, hi]
  | cons c m ih =>
    obtain ⟨a, b⟩ := c
    simp only [List.all_cons, Bool.and_eq_true, decide_eq_true_eq] at hm
    simp only [Memory.set]
    split
    · simp [hi, hm.1]; simpa using hm.2
    · split
      · simp [hi]; simpa using hm.2
      · simp only [List.all_cons, Bool.and_eq_true, decide_eq_true_eq]
        exact ⟨hm.1, ih hm.2⟩

/-- The empty buffer of the reset state is in canonical form. -/
@[simp] theorem Memory.wf_nil (cap : Nat) : Memory.wf cap [] = true := rfl

/-- A write inside the capacity keeps the canonical form. -/
theorem Memory.wf_set {cap : Nat} {m : Memory} {i : Nat} (v : Byte) (hm : m.wf cap = true) (hi : i < cap) :
    (m.set i v).wf cap = true := by
  simp only [Memory.wf, Bool.and_eq_true] at *
  exact ⟨Memory.risingFrom_set v hm.1 (Nat.zero_le _), Memory.all_lt_set v hm.2 hi⟩

/-- Writes of consecutive elements inside the capacity keep the canonical form. -/
theorem Memory.wf_setFrom {cap : Nat} {m : Memory} {start : Nat} (vs : List Byte) (hm : m.wf cap = true)
    (h : start + vs.length ≤ cap) : (m.setFrom start vs).wf cap = true := by
  induction vs generalizing m start with
  | nil => exact hm
  | cons v vs ih =>
    simp only [List.length_cons] at h
    exact ih (Memory.wf_set v hm (by omega)) (by omega)

theorem Memory.get?_below {lo : Nat} {m : Memory} {i : Nat} (hm : m.risingFrom lo = true) (hi : i < lo) :
    m.get? i = none := by
  induction m generalizing lo with
  | nil => rfl
  | cons c m ih =>
    obtain ⟨a, b⟩ := c
    simp only [Memory.risingFrom, Bool.and_eq_true, decide_eq_true_eq] at hm
    rw [Memory.get?_cons, if_neg (by omega), ih hm.2 (by omega)]

/-- Buffers in canonical form that hold the same written values are the same list. -/
theorem Memory.eq_of_get? {lo : Nat} {m m' : Memory} (hm : m.risingFrom lo = true) (hm' : m'.risingFrom lo = true)
    (h : ∀ i, m.get? i = m'.get? i) : m = m' := by
  induction m generalizing lo m' with
  | nil =>
    cases m' with
    | nil => rfl
    | cons c m' =>
      have := h c.1
      rw [Memory.get?_nil, Memory.get?_cons, if_pos rfl] at this
      cases this
  | cons c m ih =>
    obtain ⟨a, b⟩ := c
    cases m' with
    | nil =>
      have := h a
      rw [Memory.get?_nil, Memory.get?_cons, if_pos rfl] at this
      cases this
    | cons c' m' =>
      obtain ⟨a', b'⟩ := c'
      simp only [Memory.risingFrom, Bool.and_eq_true, decide_eq_true_eq] at hm hm'
      have ha : a = a' := by
        rcases Nat.lt_trichotomy a a' with hlt | heq | hgt
        · have := h a
          rw [Memory.get?_cons, if_pos rfl, Memory.get?_cons, if_neg (by omega),
            Memory.get?_below hm'.2 (by omega)] at this
          cases this
        · exact heq
        · have := h a'
          rw [Memory.get?_cons, if_neg (by omega), Memory.get?_below hm.2 (by omega), Memory.get?_cons,
            if_pos rfl] at this
          cases this
      subst ha
      have hb : b = b' := by
        have := h a
        simpa [Memory.get?_cons] using this
      subst hb
      congr 1
      refine ih hm.2 hm'.2 fun i => ?_
      by_cases hi : a = i
      · subst hi
        rw [Memory.get?_below hm.2 (by omega), Memory.get?_below hm'.2 (by omega)]
      · have := h i
        rwa [Memory.get?_cons, if_neg hi, Memory.get?_cons, if_neg hi] at this

end Sys2Proof.Machine
end

