-- ==== Sys2Proof/Laws/State.lean ====
section
/-! SUPPORT. One lemma per field of State per named update, true by unfolding. -/

namespace Sys2Proof.Machine

variable (s : State)

/-! ### State.complete -/

@[simp] theorem State.complete_iMax (code : BitVec 4) (info : Word) : (s.complete code info).iMax = s.iMax := rfl
@[simp] theorem State.complete_busy (code : BitVec 4) (info : Word) : (s.complete code info).busy = false := rfl
@[simp] theorem State.complete_pend (code : BitVec 4) (info : Word) : (s.complete code info).pend = s.pend := rfl
@[simp] theorem State.complete_ie (code : BitVec 4) (info : Word) : (s.complete code info).ie = s.ie := rfl
@[simp] theorem State.complete_done (code : BitVec 4) (info : Word) : (s.complete code info).done = true := rfl
@[simp] theorem State.complete_ignwr (code : BitVec 4) (info : Word) : (s.complete code info).ignwr = s.ignwr := rfl
@[simp] theorem State.complete_err (code : BitVec 4) (info : Word) : (s.complete code info).err = code := rfl
@[simp] theorem State.complete_errInfo (code : BitVec 4) (info : Word) : (s.complete code info).errInfo = info := rfl
@[simp] theorem State.complete_iLen (code : BitVec 4) (info : Word) : (s.complete code info).iLen = s.iLen := rfl
@[simp] theorem State.complete_pLen (code : BitVec 4) (info : Word) : (s.complete code info).pLen = s.pLen := rfl
@[simp] theorem State.complete_oLen (code : BitVec 4) (info : Word) : (s.complete code info).oLen = s.oLen := rfl
@[simp] theorem State.complete_origBits (code : BitVec 4) (info : Word) :
    (s.complete code info).origBits = s.origBits := rfl
@[simp] theorem State.complete_compBits (code : BitVec 4) (info : Word) :
    (s.complete code info).compBits = s.compBits := rfl
@[simp] theorem State.complete_ratio (code : BitVec 4) (info : Word) : (s.complete code info).ratio = s.ratio := rfl
@[simp] theorem State.complete_nAlpha (code : BitVec 4) (info : Word) : (s.complete code info).nAlpha = s.nAlpha := rfl
@[simp] theorem State.complete_ct (code : BitVec 4) (info : Word) : (s.complete code info).ct = s.ct := rfl
@[simp] theorem State.complete_ibuf (code : BitVec 4) (info : Word) : (s.complete code info).ibuf = s.ibuf := rfl
@[simp] theorem State.complete_pbuf (code : BitVec 4) (info : Word) : (s.complete code info).pbuf = s.pbuf := rfl
@[simp] theorem State.complete_obuf (code : BitVec 4) (info : Word) : (s.complete code info).obuf = s.obuf := rfl
@[simp] theorem State.complete_fill (code : BitVec 4) (info : Word) : (s.complete code info).fill = s.fill := rfl
@[simp] theorem State.complete_draws (code : BitVec 4) (info : Word) : (s.complete code info).draws = s.draws := rfl
@[simp] theorem State.complete_rst (code : BitVec 4) (info : Word) : (s.complete code info).rst = s.rst := rfl
@[simp] theorem State.complete_turns (code : BitVec 4) (info : Word) : (s.complete code info).turns = s.turns := rfl
@[simp] theorem State.complete_trace (code : BitVec 4) (info : Word) : (s.complete code info).trace = s.trace := rfl

/-! ### State.succeed -/

@[simp] theorem State.succeed_iMax : (s.succeed).iMax = s.iMax := rfl
@[simp] theorem State.succeed_busy : (s.succeed).busy = false := rfl
@[simp] theorem State.succeed_pend : (s.succeed).pend = s.pend := rfl
@[simp] theorem State.succeed_ie : (s.succeed).ie = s.ie := rfl
@[simp] theorem State.succeed_done : (s.succeed).done = true := rfl
@[simp] theorem State.succeed_ignwr : (s.succeed).ignwr = s.ignwr := rfl
@[simp] theorem State.succeed_err : (s.succeed).err = 0#4 := rfl
@[simp] theorem State.succeed_errInfo : (s.succeed).errInfo = 0#32 := rfl
@[simp] theorem State.succeed_iLen : (s.succeed).iLen = s.iLen := rfl
@[simp] theorem State.succeed_pLen : (s.succeed).pLen = s.pLen := rfl
@[simp] theorem State.succeed_oLen : (s.succeed).oLen = s.oLen := rfl
@[simp] theorem State.succeed_origBits : (s.succeed).origBits = s.origBits := rfl
@[simp] theorem State.succeed_compBits : (s.succeed).compBits = s.compBits := rfl
@[simp] theorem State.succeed_ratio : (s.succeed).ratio = s.ratio := rfl
@[simp] theorem State.succeed_nAlpha : (s.succeed).nAlpha = s.nAlpha := rfl
@[simp] theorem State.succeed_ct : (s.succeed).ct = s.ct := rfl
@[simp] theorem State.succeed_ibuf : (s.succeed).ibuf = s.ibuf := rfl
@[simp] theorem State.succeed_pbuf : (s.succeed).pbuf = s.pbuf := rfl
@[simp] theorem State.succeed_obuf : (s.succeed).obuf = s.obuf := rfl
@[simp] theorem State.succeed_fill : (s.succeed).fill = s.fill := rfl
@[simp] theorem State.succeed_draws : (s.succeed).draws = s.draws := rfl
@[simp] theorem State.succeed_rst : (s.succeed).rst = s.rst := rfl
@[simp] theorem State.succeed_turns : (s.succeed).turns = s.turns := rfl
@[simp] theorem State.succeed_trace : (s.succeed).trace = s.trace := rfl

/-! ### State.raise -/

@[simp] theorem State.raise_iMax (e : CmdError) : (s.raise e).iMax = s.iMax := rfl
@[simp] theorem State.raise_busy (e : CmdError) : (s.raise e).busy = false := rfl
@[simp] theorem State.raise_pend (e : CmdError) : (s.raise e).pend = s.pend := rfl
@[simp] theorem State.raise_ie (e : CmdError) : (s.raise e).ie = s.ie := rfl
@[simp] theorem State.raise_done (e : CmdError) : (s.raise e).done = true := rfl
@[simp] theorem State.raise_ignwr (e : CmdError) : (s.raise e).ignwr = s.ignwr := rfl
@[simp] theorem State.raise_err (e : CmdError) : (s.raise e).err = e.code := rfl
@[simp] theorem State.raise_errInfo (e : CmdError) : (s.raise e).errInfo = e.info := rfl
@[simp] theorem State.raise_iLen (e : CmdError) : (s.raise e).iLen = s.iLen := rfl
@[simp] theorem State.raise_pLen (e : CmdError) : (s.raise e).pLen = s.pLen := rfl
@[simp] theorem State.raise_oLen (e : CmdError) : (s.raise e).oLen = s.oLen := rfl
@[simp] theorem State.raise_origBits (e : CmdError) : (s.raise e).origBits = s.origBits := rfl
@[simp] theorem State.raise_compBits (e : CmdError) : (s.raise e).compBits = s.compBits := rfl
@[simp] theorem State.raise_ratio (e : CmdError) : (s.raise e).ratio = s.ratio := rfl
@[simp] theorem State.raise_nAlpha (e : CmdError) : (s.raise e).nAlpha = s.nAlpha := rfl
@[simp] theorem State.raise_ct (e : CmdError) : (s.raise e).ct = s.ct := rfl
@[simp] theorem State.raise_ibuf (e : CmdError) : (s.raise e).ibuf = s.ibuf := rfl
@[simp] theorem State.raise_pbuf (e : CmdError) : (s.raise e).pbuf = s.pbuf := rfl
@[simp] theorem State.raise_obuf (e : CmdError) : (s.raise e).obuf = s.obuf := rfl
@[simp] theorem State.raise_fill (e : CmdError) : (s.raise e).fill = s.fill := rfl
@[simp] theorem State.raise_draws (e : CmdError) : (s.raise e).draws = s.draws := rfl
@[simp] theorem State.raise_rst (e : CmdError) : (s.raise e).rst = s.rst := rfl
@[simp] theorem State.raise_turns (e : CmdError) : (s.raise e).turns = s.turns := rfl
@[simp] theorem State.raise_trace (e : CmdError) : (s.raise e).trace = s.trace := rfl

/-! ### State.illegalCommand -/

@[simp] theorem State.illegalCommand_iMax (v : Word) : (s.illegalCommand v).iMax = s.iMax := rfl
@[simp] theorem State.illegalCommand_busy (v : Word) : (s.illegalCommand v).busy = false := rfl
@[simp] theorem State.illegalCommand_pend (v : Word) : (s.illegalCommand v).pend = s.pend := rfl
@[simp] theorem State.illegalCommand_ie (v : Word) : (s.illegalCommand v).ie = s.ie := rfl
@[simp] theorem State.illegalCommand_done (v : Word) : (s.illegalCommand v).done = true := rfl
@[simp] theorem State.illegalCommand_ignwr (v : Word) : (s.illegalCommand v).ignwr = s.ignwr := rfl
@[simp] theorem State.illegalCommand_err (v : Word) : (s.illegalCommand v).err = 8#4 := rfl
@[simp] theorem State.illegalCommand_errInfo (v : Word) : (s.illegalCommand v).errInfo = v := rfl
@[simp] theorem State.illegalCommand_iLen (v : Word) : (s.illegalCommand v).iLen = s.iLen := rfl
@[simp] theorem State.illegalCommand_pLen (v : Word) : (s.illegalCommand v).pLen = s.pLen := rfl
@[simp] theorem State.illegalCommand_oLen (v : Word) : (s.illegalCommand v).oLen = s.oLen := rfl
@[simp] theorem State.illegalCommand_origBits (v : Word) : (s.illegalCommand v).origBits = s.origBits := rfl
@[simp] theorem State.illegalCommand_compBits (v : Word) : (s.illegalCommand v).compBits = s.compBits := rfl
@[simp] theorem State.illegalCommand_ratio (v : Word) : (s.illegalCommand v).ratio = s.ratio := rfl
@[simp] theorem State.illegalCommand_nAlpha (v : Word) : (s.illegalCommand v).nAlpha = s.nAlpha := rfl
@[simp] theorem State.illegalCommand_ct (v : Word) : (s.illegalCommand v).ct = s.ct := rfl
@[simp] theorem State.illegalCommand_ibuf (v : Word) : (s.illegalCommand v).ibuf = s.ibuf := rfl
@[simp] theorem State.illegalCommand_pbuf (v : Word) : (s.illegalCommand v).pbuf = s.pbuf := rfl
@[simp] theorem State.illegalCommand_obuf (v : Word) : (s.illegalCommand v).obuf = s.obuf := rfl
@[simp] theorem State.illegalCommand_fill (v : Word) : (s.illegalCommand v).fill = s.fill := rfl
@[simp] theorem State.illegalCommand_draws (v : Word) : (s.illegalCommand v).draws = s.draws := rfl
@[simp] theorem State.illegalCommand_rst (v : Word) : (s.illegalCommand v).rst = s.rst := rfl
@[simp] theorem State.illegalCommand_turns (v : Word) : (s.illegalCommand v).turns = s.turns := rfl
@[simp] theorem State.illegalCommand_trace (v : Word) : (s.illegalCommand v).trace = s.trace := rfl

/-! ### State.issue -/

@[simp] theorem State.issue_iMax (v : Word) : (s.issue v).iMax = s.iMax := rfl
@[simp] theorem State.issue_busy (v : Word) : (s.issue v).busy = true := rfl
@[simp] theorem State.issue_pend (v : Word) : (s.issue v).pend = v := rfl
@[simp] theorem State.issue_ie (v : Word) : (s.issue v).ie = s.ie := rfl
@[simp] theorem State.issue_done (v : Word) : (s.issue v).done = false := rfl
@[simp] theorem State.issue_ignwr (v : Word) : (s.issue v).ignwr = s.ignwr := rfl
@[simp] theorem State.issue_err (v : Word) : (s.issue v).err = s.err := rfl
@[simp] theorem State.issue_errInfo (v : Word) : (s.issue v).errInfo = s.errInfo := rfl
@[simp] theorem State.issue_iLen (v : Word) : (s.issue v).iLen = s.iLen := rfl
@[simp] theorem State.issue_pLen (v : Word) : (s.issue v).pLen = s.pLen := rfl
@[simp] theorem State.issue_oLen (v : Word) : (s.issue v).oLen = s.oLen := rfl
@[simp] theorem State.issue_origBits (v : Word) : (s.issue v).origBits = s.origBits := rfl
@[simp] theorem State.issue_compBits (v : Word) : (s.issue v).compBits = s.compBits := rfl
@[simp] theorem State.issue_ratio (v : Word) : (s.issue v).ratio = s.ratio := rfl
@[simp] theorem State.issue_nAlpha (v : Word) : (s.issue v).nAlpha = s.nAlpha := rfl
@[simp] theorem State.issue_ct (v : Word) : (s.issue v).ct = s.ct := rfl
@[simp] theorem State.issue_ibuf (v : Word) : (s.issue v).ibuf = s.ibuf := rfl
@[simp] theorem State.issue_pbuf (v : Word) : (s.issue v).pbuf = s.pbuf := rfl
@[simp] theorem State.issue_obuf (v : Word) : (s.issue v).obuf = s.obuf := rfl
@[simp] theorem State.issue_fill (v : Word) : (s.issue v).fill = s.fill := rfl
@[simp] theorem State.issue_draws (v : Word) : (s.issue v).draws = s.draws := rfl
@[simp] theorem State.issue_rst (v : Word) : (s.issue v).rst = s.rst := rfl
@[simp] theorem State.issue_turns (v : Word) : (s.issue v).turns = s.turns := rfl
@[simp] theorem State.issue_trace (v : Word) : (s.issue v).trace = s.trace := rfl

/-! ### State.writeStatus -/

@[simp] theorem State.writeStatus_iMax (v : Word) : (s.writeStatus v).iMax = s.iMax := rfl
@[simp] theorem State.writeStatus_busy (v : Word) : (s.writeStatus v).busy = s.busy := rfl
@[simp] theorem State.writeStatus_pend (v : Word) : (s.writeStatus v).pend = s.pend := rfl
@[simp] theorem State.writeStatus_ie (v : Word) : (s.writeStatus v).ie = s.ie := rfl
@[simp] theorem State.writeStatus_done (v : Word) : (s.writeStatus v).done = (s.done && !v.getLsbD 1) := rfl
@[simp] theorem State.writeStatus_ignwr (v : Word) : (s.writeStatus v).ignwr = (s.ignwr && !v.getLsbD 2) := rfl
@[simp] theorem State.writeStatus_err (v : Word) : (s.writeStatus v).err = s.err := rfl
@[simp] theorem State.writeStatus_errInfo (v : Word) : (s.writeStatus v).errInfo = s.errInfo := rfl
@[simp] theorem State.writeStatus_iLen (v : Word) : (s.writeStatus v).iLen = s.iLen := rfl
@[simp] theorem State.writeStatus_pLen (v : Word) : (s.writeStatus v).pLen = s.pLen := rfl
@[simp] theorem State.writeStatus_oLen (v : Word) : (s.writeStatus v).oLen = s.oLen := rfl
@[simp] theorem State.writeStatus_origBits (v : Word) : (s.writeStatus v).origBits = s.origBits := rfl
@[simp] theorem State.writeStatus_compBits (v : Word) : (s.writeStatus v).compBits = s.compBits := rfl
@[simp] theorem State.writeStatus_ratio (v : Word) : (s.writeStatus v).ratio = s.ratio := rfl
@[simp] theorem State.writeStatus_nAlpha (v : Word) : (s.writeStatus v).nAlpha = s.nAlpha := rfl
@[simp] theorem State.writeStatus_ct (v : Word) : (s.writeStatus v).ct = s.ct := rfl
@[simp] theorem State.writeStatus_ibuf (v : Word) : (s.writeStatus v).ibuf = s.ibuf := rfl
@[simp] theorem State.writeStatus_pbuf (v : Word) : (s.writeStatus v).pbuf = s.pbuf := rfl
@[simp] theorem State.writeStatus_obuf (v : Word) : (s.writeStatus v).obuf = s.obuf := rfl
@[simp] theorem State.writeStatus_fill (v : Word) : (s.writeStatus v).fill = s.fill := rfl
@[simp] theorem State.writeStatus_draws (v : Word) : (s.writeStatus v).draws = s.draws := rfl
@[simp] theorem State.writeStatus_rst (v : Word) : (s.writeStatus v).rst = s.rst := rfl
@[simp] theorem State.writeStatus_turns (v : Word) : (s.writeStatus v).turns = s.turns := rfl
@[simp] theorem State.writeStatus_trace (v : Word) : (s.writeStatus v).trace = s.trace := rfl

/-! ### State.writeCtrl -/

@[simp] theorem State.writeCtrl_iMax (v : Word) : (s.writeCtrl v).iMax = s.iMax := rfl
@[simp] theorem State.writeCtrl_busy (v : Word) : (s.writeCtrl v).busy = s.busy := rfl
@[simp] theorem State.writeCtrl_pend (v : Word) : (s.writeCtrl v).pend = s.pend := rfl
@[simp] theorem State.writeCtrl_ie (v : Word) : (s.writeCtrl v).ie = v.getLsbD 0 := rfl
@[simp] theorem State.writeCtrl_done (v : Word) : (s.writeCtrl v).done = s.done := rfl
@[simp] theorem State.writeCtrl_ignwr (v : Word) : (s.writeCtrl v).ignwr = s.ignwr := rfl
@[simp] theorem State.writeCtrl_err (v : Word) : (s.writeCtrl v).err = s.err := rfl
@[simp] theorem State.writeCtrl_errInfo (v : Word) : (s.writeCtrl v).errInfo = s.errInfo := rfl
@[simp] theorem State.writeCtrl_iLen (v : Word) : (s.writeCtrl v).iLen = s.iLen := rfl
@[simp] theorem State.writeCtrl_pLen (v : Word) : (s.writeCtrl v).pLen = s.pLen := rfl
@[simp] theorem State.writeCtrl_oLen (v : Word) : (s.writeCtrl v).oLen = s.oLen := rfl
@[simp] theorem State.writeCtrl_origBits (v : Word) : (s.writeCtrl v).origBits = s.origBits := rfl
@[simp] theorem State.writeCtrl_compBits (v : Word) : (s.writeCtrl v).compBits = s.compBits := rfl
@[simp] theorem State.writeCtrl_ratio (v : Word) : (s.writeCtrl v).ratio = s.ratio := rfl
@[simp] theorem State.writeCtrl_nAlpha (v : Word) : (s.writeCtrl v).nAlpha = s.nAlpha := rfl
@[simp] theorem State.writeCtrl_ct (v : Word) : (s.writeCtrl v).ct = s.ct := rfl
@[simp] theorem State.writeCtrl_ibuf (v : Word) : (s.writeCtrl v).ibuf = s.ibuf := rfl
@[simp] theorem State.writeCtrl_pbuf (v : Word) : (s.writeCtrl v).pbuf = s.pbuf := rfl
@[simp] theorem State.writeCtrl_obuf (v : Word) : (s.writeCtrl v).obuf = s.obuf := rfl
@[simp] theorem State.writeCtrl_fill (v : Word) : (s.writeCtrl v).fill = s.fill := rfl
@[simp] theorem State.writeCtrl_draws (v : Word) : (s.writeCtrl v).draws = s.draws := rfl
@[simp] theorem State.writeCtrl_rst (v : Word) : (s.writeCtrl v).rst = s.rst := rfl
@[simp] theorem State.writeCtrl_turns (v : Word) : (s.writeCtrl v).turns = s.turns := rfl
@[simp] theorem State.writeCtrl_trace (v : Word) : (s.writeCtrl v).trace = s.trace := rfl

/-! ### State.noteIgnored -/

@[simp] theorem State.noteIgnored_iMax : (s.noteIgnored).iMax = s.iMax := rfl
@[simp] theorem State.noteIgnored_busy : (s.noteIgnored).busy = s.busy := rfl
@[simp] theorem State.noteIgnored_pend : (s.noteIgnored).pend = s.pend := rfl
@[simp] theorem State.noteIgnored_ie : (s.noteIgnored).ie = s.ie := rfl
@[simp] theorem State.noteIgnored_done : (s.noteIgnored).done = s.done := rfl
@[simp] theorem State.noteIgnored_ignwr : (s.noteIgnored).ignwr = true := rfl
@[simp] theorem State.noteIgnored_err : (s.noteIgnored).err = s.err := rfl
@[simp] theorem State.noteIgnored_errInfo : (s.noteIgnored).errInfo = s.errInfo := rfl
@[simp] theorem State.noteIgnored_iLen : (s.noteIgnored).iLen = s.iLen := rfl
@[simp] theorem State.noteIgnored_pLen : (s.noteIgnored).pLen = s.pLen := rfl
@[simp] theorem State.noteIgnored_oLen : (s.noteIgnored).oLen = s.oLen := rfl
@[simp] theorem State.noteIgnored_origBits : (s.noteIgnored).origBits = s.origBits := rfl
@[simp] theorem State.noteIgnored_compBits : (s.noteIgnored).compBits = s.compBits := rfl
@[simp] theorem State.noteIgnored_ratio : (s.noteIgnored).ratio = s.ratio := rfl
@[simp] theorem State.noteIgnored_nAlpha : (s.noteIgnored).nAlpha = s.nAlpha := rfl
@[simp] theorem State.noteIgnored_ct : (s.noteIgnored).ct = s.ct := rfl
@[simp] theorem State.noteIgnored_ibuf : (s.noteIgnored).ibuf = s.ibuf := rfl
@[simp] theorem State.noteIgnored_pbuf : (s.noteIgnored).pbuf = s.pbuf := rfl
@[simp] theorem State.noteIgnored_obuf : (s.noteIgnored).obuf = s.obuf := rfl
@[simp] theorem State.noteIgnored_fill : (s.noteIgnored).fill = s.fill := rfl
@[simp] theorem State.noteIgnored_draws : (s.noteIgnored).draws = s.draws := rfl
@[simp] theorem State.noteIgnored_rst : (s.noteIgnored).rst = s.rst := rfl
@[simp] theorem State.noteIgnored_turns : (s.noteIgnored).turns = s.turns := rfl
@[simp] theorem State.noteIgnored_trace : (s.noteIgnored).trace = s.trace := rfl

/-! ### State.clearOutputs -/

@[simp] theorem State.clearOutputs_iMax : (s.clearOutputs).iMax = s.iMax := rfl
@[simp] theorem State.clearOutputs_busy : (s.clearOutputs).busy = s.busy := rfl
@[simp] theorem State.clearOutputs_pend : (s.clearOutputs).pend = s.pend := rfl
@[simp] theorem State.clearOutputs_ie : (s.clearOutputs).ie = s.ie := rfl
@[simp] theorem State.clearOutputs_done : (s.clearOutputs).done = s.done := rfl
@[simp] theorem State.clearOutputs_ignwr : (s.clearOutputs).ignwr = s.ignwr := rfl
@[simp] theorem State.clearOutputs_err : (s.clearOutputs).err = s.err := rfl
@[simp] theorem State.clearOutputs_errInfo : (s.clearOutputs).errInfo = s.errInfo := rfl
@[simp] theorem State.clearOutputs_iLen : (s.clearOutputs).iLen = 0 := rfl
@[simp] theorem State.clearOutputs_pLen : (s.clearOutputs).pLen = 0 := rfl
@[simp] theorem State.clearOutputs_oLen : (s.clearOutputs).oLen = 0 := rfl
@[simp] theorem State.clearOutputs_origBits : (s.clearOutputs).origBits = 0#32 := rfl
@[simp] theorem State.clearOutputs_compBits : (s.clearOutputs).compBits = 0#32 := rfl
@[simp] theorem State.clearOutputs_ratio : (s.clearOutputs).ratio = 0#32 := rfl
@[simp] theorem State.clearOutputs_nAlpha : (s.clearOutputs).nAlpha = 0 := rfl
@[simp] theorem State.clearOutputs_ct : (s.clearOutputs).ct = Vector.replicate 256 CTEntry.zero := rfl
@[simp] theorem State.clearOutputs_ibuf : (s.clearOutputs).ibuf = s.ibuf := rfl
@[simp] theorem State.clearOutputs_pbuf : (s.clearOutputs).pbuf = s.pbuf := rfl
@[simp] theorem State.clearOutputs_obuf : (s.clearOutputs).obuf = s.obuf := rfl
@[simp] theorem State.clearOutputs_fill : (s.clearOutputs).fill = s.fill := rfl
@[simp] theorem State.clearOutputs_draws : (s.clearOutputs).draws = s.draws := rfl
@[simp] theorem State.clearOutputs_rst : (s.clearOutputs).rst = s.rst := rfl
@[simp] theorem State.clearOutputs_turns : (s.clearOutputs).turns = s.turns := rfl
@[simp] theorem State.clearOutputs_trace : (s.clearOutputs).trace = s.trace := rfl

/-! ### State.compressOutputs -/

@[simp] theorem State.compressOutputs_iMax (xs : List Symbol) : (s.compressOutputs xs).iMax = s.iMax := rfl
@[simp] theorem State.compressOutputs_busy (xs : List Symbol) : (s.compressOutputs xs).busy = s.busy := rfl
@[simp] theorem State.compressOutputs_pend (xs : List Symbol) : (s.compressOutputs xs).pend = s.pend := rfl
@[simp] theorem State.compressOutputs_ie (xs : List Symbol) : (s.compressOutputs xs).ie = s.ie := rfl
@[simp] theorem State.compressOutputs_done (xs : List Symbol) : (s.compressOutputs xs).done = s.done := rfl
@[simp] theorem State.compressOutputs_ignwr (xs : List Symbol) : (s.compressOutputs xs).ignwr = s.ignwr := rfl
@[simp] theorem State.compressOutputs_err (xs : List Symbol) : (s.compressOutputs xs).err = s.err := rfl
@[simp] theorem State.compressOutputs_errInfo (xs : List Symbol) : (s.compressOutputs xs).errInfo = s.errInfo := rfl
@[simp] theorem State.compressOutputs_iLen (xs : List Symbol) : (s.compressOutputs xs).iLen = s.iLen := rfl
@[simp] theorem State.compressOutputs_pLen (xs : List Symbol) :
    (s.compressOutputs xs).pLen = (encodeBits (codesOf xs) xs).length := rfl
@[simp] theorem State.compressOutputs_oLen (xs : List Symbol) : (s.compressOutputs xs).oLen = s.oLen := rfl
@[simp] theorem State.compressOutputs_origBits (xs : List Symbol) :
    (s.compressOutputs xs).origBits = BitVec.ofNat 32 (8 * xs.length) := rfl
@[simp] theorem State.compressOutputs_compBits (xs : List Symbol) :
    (s.compressOutputs xs).compBits = BitVec.ofNat 32 (encodeBits (codesOf xs) xs).length := rfl
@[simp] theorem State.compressOutputs_ratio (xs : List Symbol) :
    (s.compressOutputs xs).ratio = ratioWord (8 * xs.length) (encodeBits (codesOf xs) xs).length := rfl
@[simp] theorem State.compressOutputs_nAlpha (xs : List Symbol) :
    (s.compressOutputs xs).nAlpha = (countFreq xs).order.length := rfl
@[simp] theorem State.compressOutputs_ct (xs : List Symbol) :
    (s.compressOutputs xs).ct = Vector.ofFn fun k => compressEntry (countFreq xs) (codesOf xs) (BitVec.ofFin k) := rfl
@[simp] theorem State.compressOutputs_ibuf (xs : List Symbol) : (s.compressOutputs xs).ibuf = s.ibuf := rfl
@[simp] theorem State.compressOutputs_pbuf (xs : List Symbol) :
    (s.compressOutputs xs).pbuf = s.pbuf.setFrom 0 ((encodeBits (codesOf xs) xs).map bitChar) := rfl
@[simp] theorem State.compressOutputs_obuf (xs : List Symbol) : (s.compressOutputs xs).obuf = s.obuf := rfl
@[simp] theorem State.compressOutputs_fill (xs : List Symbol) : (s.compressOutputs xs).fill = s.fill := rfl
@[simp] theorem State.compressOutputs_draws (xs : List Symbol) : (s.compressOutputs xs).draws = s.draws := rfl
@[simp] theorem State.compressOutputs_rst (xs : List Symbol) : (s.compressOutputs xs).rst = s.rst := rfl
@[simp] theorem State.compressOutputs_turns (xs : List Symbol) : (s.compressOutputs xs).turns = s.turns := rfl
@[simp] theorem State.compressOutputs_trace (xs : List Symbol) : (s.compressOutputs xs).trace = s.trace := rfl

/-! ### State.decompressOutputs -/

@[simp] theorem State.decompressOutputs_iMax (out : List Symbol) : (s.decompressOutputs out).iMax = s.iMax := rfl
@[simp] theorem State.decompressOutputs_busy (out : List Symbol) : (s.decompressOutputs out).busy = s.busy := rfl
@[simp] theorem State.decompressOutputs_pend (out : List Symbol) : (s.decompressOutputs out).pend = s.pend := rfl
@[simp] theorem State.decompressOutputs_ie (out : List Symbol) : (s.decompressOutputs out).ie = s.ie := rfl
@[simp] theorem State.decompressOutputs_done (out : List Symbol) : (s.decompressOutputs out).done = s.done := rfl
@[simp] theorem State.decompressOutputs_ignwr (out : List Symbol) : (s.decompressOutputs out).ignwr = s.ignwr := rfl
@[simp] theorem State.decompressOutputs_err (out : List Symbol) : (s.decompressOutputs out).err = s.err := rfl
@[simp] theorem State.decompressOutputs_errInfo (out : List Symbol) :
    (s.decompressOutputs out).errInfo = s.errInfo := rfl
@[simp] theorem State.decompressOutputs_iLen (out : List Symbol) : (s.decompressOutputs out).iLen = s.iLen := rfl
@[simp] theorem State.decompressOutputs_pLen (out : List Symbol) : (s.decompressOutputs out).pLen = s.pLen := rfl
@[simp] theorem State.decompressOutputs_oLen (out : List Symbol) : (s.decompressOutputs out).oLen = out.length := rfl
@[simp] theorem State.decompressOutputs_origBits (out : List Symbol) :
    (s.decompressOutputs out).origBits = s.origBits := rfl
@[simp] theorem State.decompressOutputs_compBits (out : List Symbol) :
    (s.decompressOutputs out).compBits = s.compBits := rfl
@[simp] theorem State.decompressOutputs_ratio (out : List Symbol) : (s.decompressOutputs out).ratio = s.ratio := rfl
@[simp] theorem State.decompressOutputs_nAlpha (out : List Symbol) : (s.decompressOutputs out).nAlpha = s.nAlpha := rfl
@[simp] theorem State.decompressOutputs_ct (out : List Symbol) : (s.decompressOutputs out).ct = s.ct := rfl
@[simp] theorem State.decompressOutputs_ibuf (out : List Symbol) : (s.decompressOutputs out).ibuf = s.ibuf := rfl
@[simp] theorem State.decompressOutputs_pbuf (out : List Symbol) : (s.decompressOutputs out).pbuf = s.pbuf := rfl
@[simp] theorem State.decompressOutputs_obuf (out : List Symbol) :
    (s.decompressOutputs out).obuf = s.obuf.setFrom 0 out := rfl
@[simp] theorem State.decompressOutputs_fill (out : List Symbol) : (s.decompressOutputs out).fill = s.fill := rfl
@[simp] theorem State.decompressOutputs_draws (out : List Symbol) : (s.decompressOutputs out).draws = s.draws := rfl
@[simp] theorem State.decompressOutputs_rst (out : List Symbol) : (s.decompressOutputs out).rst = s.rst := rfl
@[simp] theorem State.decompressOutputs_turns (out : List Symbol) : (s.decompressOutputs out).turns = s.turns := rfl
@[simp] theorem State.decompressOutputs_trace (out : List Symbol) : (s.decompressOutputs out).trace = s.trace := rfl

/-! ### State.resetEvent -/

@[simp] theorem State.resetEvent_iMax : (s.resetEvent).iMax = s.iMax := rfl
@[simp] theorem State.resetEvent_busy : (s.resetEvent).busy = false := rfl
@[simp] theorem State.resetEvent_pend : (s.resetEvent).pend = 0#32 := rfl
@[simp] theorem State.resetEvent_ie : (s.resetEvent).ie = false := rfl
@[simp] theorem State.resetEvent_done : (s.resetEvent).done = false := rfl
@[simp] theorem State.resetEvent_ignwr : (s.resetEvent).ignwr = false := rfl
@[simp] theorem State.resetEvent_err : (s.resetEvent).err = 0#4 := rfl
@[simp] theorem State.resetEvent_errInfo : (s.resetEvent).errInfo = 0#32 := rfl
@[simp] theorem State.resetEvent_iLen : (s.resetEvent).iLen = 0 := rfl
@[simp] theorem State.resetEvent_pLen : (s.resetEvent).pLen = 0 := rfl
@[simp] theorem State.resetEvent_oLen : (s.resetEvent).oLen = 0 := rfl
@[simp] theorem State.resetEvent_origBits : (s.resetEvent).origBits = 0#32 := rfl
@[simp] theorem State.resetEvent_compBits : (s.resetEvent).compBits = 0#32 := rfl
@[simp] theorem State.resetEvent_ratio : (s.resetEvent).ratio = 0#32 := rfl
@[simp] theorem State.resetEvent_nAlpha : (s.resetEvent).nAlpha = 0 := rfl
@[simp] theorem State.resetEvent_ct : (s.resetEvent).ct = Vector.replicate 256 CTEntry.zero := rfl
@[simp] theorem State.resetEvent_ibuf : (s.resetEvent).ibuf = [] := rfl
@[simp] theorem State.resetEvent_pbuf : (s.resetEvent).pbuf = [] := rfl
@[simp] theorem State.resetEvent_obuf : (s.resetEvent).obuf = [] := rfl
@[simp] theorem State.resetEvent_fill : (s.resetEvent).fill = s.draws := rfl
@[simp] theorem State.resetEvent_draws : (s.resetEvent).draws = s.draws + 1 := rfl
@[simp] theorem State.resetEvent_rst : (s.resetEvent).rst = s.rst := rfl
@[simp] theorem State.resetEvent_turns : (s.resetEvent).turns = s.turns := rfl
@[simp] theorem State.resetEvent_trace : (s.resetEvent).trace = s.trace := rfl

end Sys2Proof.Machine
end

