-- ==== Sys2Proof/Laws/GenCodes.lean ====
section
/-! SUPPORT. What the Code Table Generator and the encoder compute (40_stages.md R118 to R120; 41_compress.md R143, R147):
every symbol of the stream has exactly one code, of 1 to 255 bits; the codes are prefix-free; the size bounds. -/

namespace Sys2Proof.Machine

/-! ### The code map -/

@[simp] theorem Codes.at_empty (x : Symbol) : Codes.empty.at x = none := by
  simp [Codes.at, Codes.empty]

theorem Codes.at_put (c : Codes) (s : Symbol) (p : BitStr) (x : Symbol) :
    (c.put s p).at x = if s = x then some p else c.at x := by
  simp only [Codes.at, Codes.put, Vector.getElem_set, BitVec.toNat_inj]

/-- Records the path of every leaf of a list. -/
def Codes.putAll (c : Codes) (zs : List (Symbol × Nat × BitStr)) : Codes := zs.foldl (fun c z => c.put z.1 z.2.2) c

theorem Codes.at_putAll_of_notMem (c : Codes) (zs : List (Symbol × Nat × BitStr)) (x : Symbol)
    (h : x ∉ zs.map (·.1)) : (c.putAll zs).at x = c.at x := by
  induction zs generalizing c with
  | nil => rfl
  | cons z zs ih =>
    simp only [List.map_cons, List.mem_cons, not_or] at h
    rw [Codes.putAll, List.foldl_cons]
    have := ih (c.put z.1 z.2.2) h.2
    rw [Codes.putAll] at this
    rw [this, Codes.at_put, if_neg (Ne.symm h.1)]

theorem Codes.at_putAll_of_mem (c : Codes) (zs : List (Symbol × Nat × BitStr)) (hn : (zs.map (·.1)).Nodup)
    (z : Symbol × Nat × BitStr) (h : z ∈ zs) : (c.putAll zs).at z.1 = some z.2.2 := by
  induction zs generalizing c with
  | nil => cases h
  | cons y zs ih =>
    simp only [List.map_cons, List.nodup_cons] at hn
    rcases List.mem_cons.1 h with rfl | h
    · have := Codes.at_putAll_of_notMem (c.put z.1 z.2.2) zs z.1 hn.1
      rw [Codes.putAll] at this
      rw [Codes.putAll, List.foldl_cons, this, Codes.at_put, if_pos rfl]
    · exact ih (c.put y.1 y.2.2) hn.2 h

/-! ### The traversal -/

/-- The leaves below a stack entry, with their whole paths. -/
def stackLeaves (z : Nat × BitStr × HTree) : List (Symbol × Nat × BitStr) :=
  z.2.2.coded.map fun y => (y.1, y.2.1, z.2.1 ++ y.2.2)

theorem stackLeaves_leaf (k : Nat) (p : BitStr) (s : Symbol) (f : Nat) : stackLeaves (k, p, .leaf s f) = [(s, f, p)] := by
  simp [stackLeaves, HTree.coded]

theorem stackLeaves_node (k l r : Nat) (p : BitStr) (tl tr : HTree) :
    stackLeaves (k, p, .node tl tr) = stackLeaves (l, p ++ [false], tl) ++ stackLeaves (r, p ++ [true], tr) := by
  simp [stackLeaves, HTree.coded, Function.comp_def]

/-- The traversal records every leaf of every tree on the stack (R118). -/
theorem genLoop_spec (fuel : Nat) (nodes : Arena) (zs : List (Nat × BitStr × HTree)) (c : Codes)
    (hrep : ∀ z ∈ zs, Rep nodes z.1 z.2.2) (hfuel : (zs.map fun z => z.2.2.size).sum ≤ fuel) :
    genLoop fuel nodes (zs.map fun z => (z.1, z.2.1)) c = c.putAll (zs.flatMap stackLeaves) := by
  induction fuel generalizing zs c with
  | zero =>
    cases zs with
    | nil => rfl
    | cons z zs =>
      have := HTree.size_pos z.2.2
      simp only [List.map_cons, List.sum_cons] at hfuel; omega
  | succ fuel ih =>
    cases zs with
    | nil => rfl
    | cons z zs =>
      obtain ⟨k, p, t⟩ := z
      have hk := hrep (k, p, t) (by simp)
      have hz : ∀ y ∈ zs, Rep nodes y.1 y.2.2 := fun y hy => hrep y (by simp [hy])
      simp only [List.map_cons, List.sum_cons] at hfuel ⊢
      cases hk with
      | @leaf _ s f hget =>
        simp only [HTree.size] at hfuel
        simp only [genLoop, hget]
        rw [ih zs _ hz (by omega), List.flatMap_cons, stackLeaves_leaf]
        rfl
      | @node _ l r tl tr hget hl hr =>
        simp only [HTree.size] at hfuel
        simp only [genLoop, hget]
        have := ih ((l, p ++ [false], tl) :: (r, p ++ [true], tr) :: zs) c (by
          intro y hy
          simp only [List.mem_cons] at hy
          rcases hy with rfl | rfl | hy
          exacts [hl, hr, hz y hy]) (by simp only [List.map_cons, List.sum_cons]; omega)
        simp only [List.map_cons] at this
        rw [this]
        simp only [List.flatMap_cons]
        rw [stackLeaves_node k l r, List.append_assoc]

/-! ### The codes of a stream -/

theorem codesOf_eq {xs : List Symbol} {T : Tree} (h : buildTree (countFreq xs) = some T) : codesOf xs = genCodes T := by
  rw [codesOf, h]

/-- Following the path of a leaf from the root of its tree ends at the leaf (R118). -/
theorem Rep.follow_coded {nodes : Arena} {k : Nat} {t : HTree} (h : Rep nodes k t) {z : Symbol × Nat × BitStr}
    (hz : z ∈ t.coded) : ∃ j, nodes.follow k z.2.2 = some j ∧ nodes[j]? = some (.leaf z.1 z.2.1) := by
  induction h generalizing z with
  | @leaf k s f h =>
    simp only [HTree.coded, List.mem_singleton] at hz
    subst hz
    exact ⟨k, rfl, h⟩
  | node h _ _ ihl ihr =>
    simp only [HTree.coded, List.mem_append, List.mem_map] at hz
    rcases hz with ⟨y, hy, rfl⟩ | ⟨y, hy, rfl⟩
    · simpa [Arena.follow, h] using ihl hy
    · simpa [Arena.follow, h] using ihr hy

/-- What the codes of a non-empty stream are: the paths of a tree over its distinct symbols, or "0" for a lone symbol. -/
theorem codesOf_spec {xs : List Symbol} (h : xs ≠ []) :
    (∃ x, (countFreq xs).order = [x] ∧ codesOf xs = Codes.empty.put x [false]) ∨
    ∃ t : HTree, t.leaves.Perm ((countFreq xs).order.map fun x => (x, xs.count x)) ∧
      (∀ z ∈ t.coded, 0 < z.2.2.length) ∧ codesOf xs = Codes.empty.putAll t.coded ∧
      ∀ d, (countFreq xs).order.length ≤ 2 ^ d → t.cost ≤ d * xs.length := by
  obtain ⟨T, t, hT, hb⟩ := buildTree_spec h
  rw [codesOf, hT]
  simp only
  cases t with
  | leaf s f =>
    left
    refine ⟨s, ?_, ?_⟩
    · have hp := hb.leaves_perm
      simp only [HTree.leaves] at hp
      have := List.singleton_perm.1 hp
      match ho : (countFreq xs).order with
      | [] => rw [ho] at this; simp at this
      | [y] => rw [ho] at this; simp at this; rw [this.1]
      | _ :: _ :: _ => rw [ho] at this; simp at this
    · cases hb.root_rep with
      | leaf hget => simp [genCodes, hget]
  | node l r =>
    right
    refine ⟨_, hb.leaves_perm, fun z hz => HTree.path_pos hz, ?_, hb.cost_le⟩
    have hrep := hb.root_rep
    have hloop := genLoop_spec T.nodes.length T.nodes [(T.root, [], .node l r)] Codes.empty
      (by simpa using hrep) (by simp [hb.nodes_size])
    have hst : [(T.root, ([] : BitStr), HTree.node l r)].flatMap stackLeaves = (HTree.node l r).coded := by
      simp [stackLeaves]
    rw [hst] at hloop
    cases hrep with
    | node hget hl hr => simp only [genCodes, hget]; exact hloop

theorem leaves_symbols {xs : List Symbol} {t : HTree}
    (hp : t.leaves.Perm ((countFreq xs).order.map fun x => (x, xs.count x))) :
    (t.coded.map (·.1)).Perm (countFreq xs).order := by
  have h₁ : t.coded.map (·.1) = t.leaves.map (·.1) := by
    rw [← HTree.coded_leaves, List.map_map]; rfl
  have h₂ := hp.map (·.1)
  rw [h₁]
  simpa [Function.comp_def] using h₂

theorem coded_nodup {xs : List Symbol} {t : HTree}
    (hp : t.leaves.Perm ((countFreq xs).order.map fun x => (x, xs.count x))) : (t.coded.map (·.1)).Nodup :=
  (leaves_symbols hp).nodup_iff.2 (countFreq_order_nodup xs)

theorem at_tree_iff {xs : List Symbol} {t : HTree}
    (hp : t.leaves.Perm ((countFreq xs).order.map fun x => (x, xs.count x))) (x : Symbol) (p : BitStr) :
    (Codes.empty.putAll t.coded).at x = some p ↔ ∃ f, (x, f, p) ∈ t.coded := by
  constructor
  · intro hx
    by_cases hm : x ∈ t.coded.map (·.1)
    · obtain ⟨z, hz, rfl⟩ := List.mem_map.1 hm
      rw [Codes.at_putAll_of_mem _ _ (coded_nodup hp) z hz] at hx
      exact ⟨z.2.1, by rw [← Option.some.inj hx]; exact hz⟩
    · rw [Codes.at_putAll_of_notMem _ _ _ hm] at hx; simp at hx
  · rintro ⟨f, hf⟩
    exact Codes.at_putAll_of_mem _ _ (coded_nodup hp) _ hf

/-- A symbol has a code exactly when it occurs in the stream (R119). -/
theorem codesOf_isSome (xs : List Symbol) (x : Symbol) : ((codesOf xs).at x).isSome = true ↔ x ∈ xs := by
  by_cases h : xs = []
  · subst h; simp [codesOf, buildTree, countFreq, mergeLoop, leafNodes]
  · rcases codesOf_spec h with ⟨y, ho, hc⟩ | ⟨t, hp, -, hc, -⟩
    · rw [hc, Codes.at_put, ← mem_countFreq_order, ho]
      by_cases hy : y = x
      · simp [hy]
      · simp [hy, Ne.symm hy]
    · rw [hc, ← mem_countFreq_order, ← (leaves_symbols hp).mem_iff, Option.isSome_iff_exists]
      simp only [at_tree_iff hp]
      simp only [List.mem_map]
      constructor
      · rintro ⟨p, f, hf⟩; exact ⟨_, hf, rfl⟩
      · rintro ⟨z, hz, rfl⟩; exact ⟨z.2.2, z.2.1, hz⟩

/-- Every code has 1 to 255 bits (R114, R119). -/
theorem codesOf_length {xs : List Symbol} {x : Symbol} {p : BitStr} (h : (codesOf xs).at x = some p) :
    1 ≤ p.length ∧ p.length ≤ 255 := by
  have hne : xs ≠ [] := by
    have := (codesOf_isSome xs x).1 (by simp [h])
    exact List.ne_nil_of_mem this
  rcases codesOf_spec hne with ⟨y, ho, hc⟩ | ⟨t, hp, hpos, hc, -⟩
  · rw [hc, Codes.at_put] at h
    split at h <;> simp at h
    simp [← h]
  · rw [hc, at_tree_iff hp] at h
    obtain ⟨f, hf⟩ := h
    have h₁ := hpos _ hf
    have h₂ := HTree.path_length_lt hf
    have h₃ : t.leaves.length = (countFreq xs).order.length := by simpa using hp.length_eq
    have h₄ := countFreq_order_length xs
    simp only at h₁ h₂
    omega

/-- No code is a prefix of the code of another symbol (R119). -/
theorem codesOf_prefixFree {xs : List Symbol} {x y : Symbol} {p q : BitStr} (hx : (codesOf xs).at x = some p)
    (hy : (codesOf xs).at y = some q) (hpq : p <+: q) : x = y := by
  have hne : xs ≠ [] := List.ne_nil_of_mem ((codesOf_isSome xs x).1 (by simp [hx]))
  rcases codesOf_spec hne with ⟨z, -, hc⟩ | ⟨t, hp, -, hc, -⟩
  · rw [hc, Codes.at_put] at hx hy
    split at hx <;> split at hy <;> simp_all
  · rw [hc, at_tree_iff hp] at hx hy
    obtain ⟨f, hf⟩ := hx
    obtain ⟨g, hg⟩ := hy
    have hnd : (t.leaves.map (·.1)).Nodup := by
      rw [← HTree.coded_leaves, List.map_map]; exact coded_nodup hp
    exact congrArg (·.1) (HTree.coded_prefixFree hnd hf hg hpq)

/-! ### Sizes -/

theorem encodeBits_length (c : Codes) (xs : List Symbol) :
    (encodeBits c xs).length = (xs.map fun x => ((c.at x).getD []).length).sum := by
  simp [encodeBits, List.length_flatMap]

/-- The payload length is the sum over the distinct symbols of frequency times code length (R147). -/
theorem encodeBits_length_eq_total (c : Codes) (xs : List Symbol) :
    (encodeBits c xs).length = totalBits (countFreq xs) c := by
  rw [encodeBits_length, sum_map_eq_sum_order]
  simp [totalBits]

/-- The lower bound of R120: every code has at least one bit. -/
theorem encodeBits_length_ge (xs : List Symbol) : xs.length ≤ (encodeBits (codesOf xs) xs).length := by
  rw [encodeBits_length]
  have : (xs.map fun _ => 1).sum ≤ (xs.map fun x => (((codesOf xs).at x).getD []).length).sum := by
    refine List.sum_le_sum fun x hx => ?_
    obtain ⟨p, hp⟩ := Option.isSome_iff_exists.1 ((codesOf_isSome xs x).2 hx)
    rw [hp]; exact (codesOf_length hp).1
  simpa using this

/-- The payload of a tree's codes is as long as the tree costs (R120). -/
theorem totalBits_eq_cost {xs : List Symbol} {t : HTree}
    (hp : t.leaves.Perm ((countFreq xs).order.map fun x => (x, xs.count x)))
    (hc : codesOf xs = Codes.empty.putAll t.coded) : totalBits (countFreq xs) (codesOf xs) = t.cost := by
  rw [totalBits, ← HTree.cost_eq]
  have h₁ : t.coded.map (fun z => z.2.1 * z.2.2.length) =
      (t.coded.map (·.1)).map fun x => (countFreq xs).count x * (((codesOf xs).at x).getD []).length := by
    rw [List.map_map]
    refine List.map_congr_left fun z hz => ?_
    have hat : (codesOf xs).at z.1 = some z.2.2 := by rw [hc, at_tree_iff hp]; exact ⟨_, hz⟩
    have hl : (z.1, z.2.1) ∈ t.leaves := by
      rw [← HTree.coded_leaves]; exact List.mem_map.2 ⟨z, hz, rfl⟩
    obtain ⟨x, -, hx⟩ := List.mem_map.1 (hp.mem_iff.1 hl)
    simp only [Prod.mk.injEq] at hx
    obtain ⟨rfl, hf⟩ := hx
    simp [hat, hf]
  rw [h₁]
  exact (((leaves_symbols hp).map _).sum_eq).symm

/-- The upper bound of R120: eight bits per symbol suffice. -/
theorem encodeBits_length_le (xs : List Symbol) : (encodeBits (codesOf xs) xs).length ≤ 8 * xs.length := by
  by_cases h : xs = []
  · subst h; simp [encodeBits]
  rw [encodeBits_length_eq_total]
  rcases codesOf_spec h with ⟨y, ho, hc⟩ | ⟨t, hp, -, hc, hcost⟩
  · have hs := sum_count_order xs
    rw [totalBits]
    rw [ho] at hs ⊢
    simp only [List.map_cons, List.map_nil, List.sum_cons, List.sum_nil, countFreq_count] at hs ⊢
    rw [hc, Codes.at_put]
    simp; omega
  · rw [totalBits_eq_cost hp hc]
    exact hcost 8 (countFreq_order_length xs)

/-- `n` distinct symbols, at least two, need at least `n × (d + 2) - 2^(d+1)` bits, whatever their counts. -/
theorem encodeBits_length_ge_order (xs : List Symbol) (h : 2 ≤ (countFreq xs).order.length) (d : Nat) :
    (countFreq xs).order.length * (d + 2) ≤ 2 ^ (d + 1) + (encodeBits (codesOf xs) xs).length := by
  have hne : xs ≠ [] := by rintro rfl; simp [countFreq] at h
  rw [encodeBits_length_eq_total]
  rcases codesOf_spec hne with ⟨y, ho, -⟩ | ⟨t, hp, -, hc, -⟩
  · rw [ho] at h; simp at h
  · rw [totalBits_eq_cost hp hc]
    have hl : t.leaves.length = (countFreq xs).order.length := by simpa using hp.length_eq
    rw [← hl]
    refine (HTree.cost_ge t (fun z hz => ?_) d).1
    obtain ⟨x, hx, rfl⟩ := List.mem_map.1 (hp.mem_iff.1 hz)
    exact List.count_pos_iff.2 ((mem_countFreq_order _ x).1 hx)

end Sys2Proof.Machine
end

