-- ==== Sys2Proof/Laws/Table.lean ====
section
/-! SUPPORT. The code table's bits, the table check and the decoder (42_decompress.md R161, R162, R168, R171). -/

namespace Sys2Proof.Machine

/-! ### The code of an entry -/

/-- `CODE[k]` of a packed code: its bit `k` below the length, 0 above (R144). -/
theorem packCode_getLsbD (bits : BitStr) (k : Nat) :
    (packCode bits).getLsbD k = (decide (k < 256) && bits.getD k false) := by
  simp [packCode, BitVec.getLsbD_setWidth, BitVec.getLsbD_ofBoolListLE]

/-- An entry that holds a code of at most 255 bits gives it back (R37, R161). -/
theorem codeBits_packCode (bits : BitStr) (h : bits.length ≤ 255) (valid : Bool) (freq : Word) :
    CTEntry.codeBits { valid := valid, len := BitVec.ofNat 8 bits.length, freq := freq, code := packCode bits } = bits := by
  have hl : (BitVec.ofNat 8 bits.length).toNat = bits.length := by
    rw [BitVec.toNat_ofNat, Nat.mod_eq_of_lt]; omega
  simp only [CTEntry.codeBits, hl]
  apply List.ext_getElem
  · simp
  · intro k h₁ h₂
    simp only [List.getElem_map, List.getElem_range, packCode_getLsbD]
    have : k < 256 := by omega
    simp [this, h₂]

/-! ### All symbols -/

@[simp] theorem mem_allSymbols (x : Symbol) : x ∈ allSymbols := by
  refine List.mem_map.2 ⟨x.toNat, List.mem_range.2 x.isLt, ?_⟩
  simp

theorem allSymbols_sorted : allSymbols.Pairwise fun x y => x < y := by
  have : (List.range Config.nSym).Pairwise (· < ·) := List.pairwise_lt_range
  refine List.pairwise_map.2 (this.imp_of_mem fun {a b} ha hb hab => ?_)
  rw [List.mem_range] at ha hb
  simp only [Config.nSym] at ha hb
  rw [BitVec.lt_def, BitVec.toNat_ofNat, BitVec.toNat_ofNat, Nat.mod_eq_of_lt (by omega), Nat.mod_eq_of_lt (by omega)]
  exact hab

@[simp] theorem mem_tableSymbols (s : State) (x : Symbol) : x ∈ s.tableSymbols ↔ (s.entry x).valid = true := by
  simp [State.tableSymbols]

theorem tableSymbols_sorted (s : State) : s.tableSymbols.Pairwise fun x y => x < y :=
  allSymbols_sorted.filter _

/-! ### The table check -/

theorem mem_pairsLt (T : List Symbol) (p : Symbol × Symbol) : p ∈ pairsLt T ↔ p.1 ∈ T ∧ p.2 ∈ T ∧ p.1 < p.2 := by
  obtain ⟨x, y⟩ := p
  simp only [pairsLt, List.mem_flatMap, List.mem_map, List.mem_filter, decide_eq_true_eq, Prod.mk.injEq]
  constructor
  · rintro ⟨a, ha, b, ⟨hb, hab⟩, rfl, rfl⟩; exact ⟨ha, hb, hab⟩
  · rintro ⟨hx, hy, hxy⟩; exact ⟨x, hx, y, ⟨hy, hxy⟩, rfl, rfl⟩

theorem mem_pairsNe (T : List Symbol) (p : Symbol × Symbol) : p ∈ pairsNe T ↔ p.1 ∈ T ∧ p.2 ∈ T ∧ p.1 ≠ p.2 := by
  obtain ⟨x, y⟩ := p
  simp only [pairsNe, List.mem_flatMap, List.mem_map, List.mem_filter, bne_iff_ne, Prod.mk.injEq]
  constructor
  · rintro ⟨a, ha, b, ⟨hb, hab⟩, rfl, rfl⟩; exact ⟨ha, hb, hab⟩
  · rintro ⟨hx, hy, hxy⟩; exact ⟨x, hx, y, ⟨hy, hxy⟩, rfl, rfl⟩

theorem properPrefix_iff (xs ys : BitStr) : properPrefix xs ys = true ↔ xs <+: ys ∧ xs.length < ys.length := by
  simp [properPrefix]

/-- A table passes the check exactly when no code is a prefix of another symbol's code (R162, R13). -/
theorem tableCheck_eq_none_iff (T : List Symbol) (code : Symbol → BitStr) :
    tableCheck T code = none ↔ PrefixFree T code := by
  constructor
  · intro h x hx y hy hp
    by_contra hne
    rw [tableCheck] at h
    split at h
    · cases h
    · rename_i hdup
      split at h
      · cases h
      · rename_i hpre
        rw [List.find?_eq_none] at hdup hpre
        have hpr := hpre (x, y) ((mem_pairsNe T _).2 ⟨hx, hy, hne⟩)
        rw [properPrefix_iff] at hpr
        have hlen : (code x).length = (code y).length := by
          have := hp.length_le
          by_contra hl
          exact hpr ⟨hp, by simp only; omega⟩
        have heq : code x = code y := hp.eq_of_length hlen
        rcases Nat.lt_trichotomy x.toNat y.toNat with hlt | heq' | hgt
        · exact absurd (hdup (x, y) ((mem_pairsLt T _).2 ⟨hx, hy, BitVec.lt_def.2 hlt⟩)) (by simp [heq])
        · exact hne (BitVec.eq_of_toNat_eq heq')
        · exact absurd (hdup (y, x) ((mem_pairsLt T _).2 ⟨hy, hx, BitVec.lt_def.2 hgt⟩)) (by simp [heq])
  · intro h
    have h₁ : (pairsLt T).find? (fun p => code p.1 == code p.2) = none := by
      rw [List.find?_eq_none]
      rintro ⟨x, y⟩ hm hc
      obtain ⟨hx, hy, hlt⟩ := (mem_pairsLt T _).1 hm
      have heq : code x = code y := by simpa using hc
      have := h x hx y hy (heq ▸ List.prefix_refl _)
      simp only at hlt
      exact BitVec.lt_irrefl _ (this ▸ hlt)
    have h₂ : (pairsNe T).find? (fun p => properPrefix (code p.1) (code p.2)) = none := by
      rw [List.find?_eq_none]
      rintro ⟨x, y⟩ hm hc
      obtain ⟨hx, hy, hne⟩ := (mem_pairsNe T _).1 hm
      exact hne (h x hx y hy ((properPrefix_iff _ _).1 hc).1)
    simp [tableCheck, h₁, h₂]

/-! ### Decoding -/

theorem lookupCode_eq_none_iff (T : List Symbol) (code : Symbol → BitStr) (acc : BitStr) :
    lookupCode T code acc = none ↔ ∀ x ∈ T, code x ≠ acc := by
  simp [lookupCode]

theorem lookupCode_some {T : List Symbol} {code : Symbol → BitStr} {acc : BitStr} {x : Symbol}
    (h : lookupCode T code acc = some x) : x ∈ T ∧ code x = acc :=
  ⟨List.mem_of_find?_eq_some h, by simpa using List.find?_some h⟩

/-- In a prefix-free table the reverse lookup of a code gives its symbol (R168). -/
theorem lookupCode_code {T : List Symbol} {code : Symbol → BitStr} (hpf : PrefixFree T code) {x : Symbol} (hx : x ∈ T) :
    lookupCode T code (code x) = some x := by
  cases h : lookupCode T code (code x) with
  | none => exact absurd rfl ((lookupCode_eq_none_iff ..).1 h x hx)
  | some y =>
    obtain ⟨hy, hc⟩ := lookupCode_some h
    rw [hpf y hy x hx (hc ▸ List.prefix_refl _)]

/-- The rest of a code, read on from its first bits, emits its symbol. -/
theorem decodeFrom_rest {T : List Symbol} {code : Symbol → BitStr} (hpf : PrefixFree T code) {x : Symbol} (hx : x ∈ T)
    (acc more rest : BitStr) (hc : code x = acc ++ more) (hmore : more ≠ []) (i last : Nat) (out : List Symbol) :
    decodeFrom T code i (more ++ rest) { acc := acc, out := out, last := last } =
      decodeFrom T code (i + more.length) rest { acc := [], out := out ++ [x], last := i + more.length } := by
  induction more generalizing acc i with
  | nil => exact absurd rfl hmore
  | cons b more ih =>
    rw [List.cons_append, decodeFrom, Decoding.add]
    by_cases hm : more = []
    · subst hm
      rw [show acc ++ [b] = code x from hc.symm, lookupCode_code hpf hx]
      simp
    · have hnone : lookupCode T code (acc ++ [b]) = none := by
        rw [lookupCode_eq_none_iff]
        intro y hy hcy
        have hpre : code y <+: code x := ⟨more, by rw [hcy, hc]; simp⟩
        have hxy := hpf y hy x hx hpre
        subst hxy
        rw [hc] at hcy
        simp at hcy
        exact hm hcy
      simp only [hnone]
      rw [ih (acc ++ [b]) (by rw [hc]; simp) hm (i + 1)]
      simp only [List.length_cons]
      congr 1
      · omega
      · congr 1; omega

/-- Decoding a concatenation of non-empty codes of a prefix-free table gives the symbols back (R171). -/
theorem decodeFrom_flatMap {T : List Symbol} {code : Symbol → BitStr} (hpf : PrefixFree T code) (xs : List Symbol)
    (hx : ∀ x ∈ xs, x ∈ T ∧ code x ≠ []) (i last : Nat) (out : List Symbol) :
    ∃ last', decodeFrom T code i (xs.flatMap code) { acc := [], out := out, last := last } =
      { acc := [], out := out ++ xs, last := last' } := by
  induction xs generalizing i last out with
  | nil => exact ⟨last, by simp [decodeFrom]⟩
  | cons x xs ih =>
    obtain ⟨hxT, hne⟩ := hx x (by simp)
    rw [List.flatMap_cons, decodeFrom_rest hpf hxT [] (code x) _ (by simp) hne]
    obtain ⟨last', h⟩ := ih (fun y hy => hx y (by simp [hy])) (i + (code x).length) (i + (code x).length) (out ++ [x])
    exact ⟨last', by rw [h]; simp⟩

/-- Every emitted symbol consumes at least one bit (R170). -/
theorem decodeFrom_out_length (T : List Symbol) (code : Symbol → BitStr) (i : Nat) (bits : BitStr) (d : Decoding) :
    (decodeFrom T code i bits d).out.length ≤ d.out.length + bits.length := by
  induction bits generalizing i d with
  | nil => simp [decodeFrom]
  | cons b bits ih =>
    rw [decodeFrom]
    have := ih (i + 1) (d.add T code i b)
    have h : (d.add T code i b).out.length ≤ d.out.length + 1 := by
      rw [Decoding.add]; split <;> simp
    simp only [List.length_cons]; omega

theorem decodeBits_out_length (T : List Symbol) (code : Symbol → BitStr) (bits : BitStr) :
    (decodeBits T code bits).out.length ≤ bits.length := by
  simpa [decodeBits] using decodeFrom_out_length T code 0 bits { acc := [], out := [], last := 0 }

/-- Bits no beginning of which completes a code stay in the accumulator (R169). -/
theorem decodeFrom_fragment (T : List Symbol) (code : Symbol → BitStr) (bits acc : BitStr) (out : List Symbol) (i last : Nat)
    (h : ∀ p, p <+: bits → p ≠ [] → ∀ x ∈ T, code x ≠ acc ++ p) :
    decodeFrom T code i bits { acc := acc, out := out, last := last } = { acc := acc ++ bits, out := out, last := last } := by
  induction bits generalizing acc i with
  | nil => simp [decodeFrom]
  | cons b bits ih =>
    have hnone : lookupCode T code (acc ++ [b]) = none := by
      rw [lookupCode_eq_none_iff]; exact fun x hx => h [b] (by simp) (by simp) x hx
    rw [decodeFrom, Decoding.add]
    simp only [hnone]
    rw [ih]
    · simp
    · intro p hp _ x hx
      have := h (b :: p) (by simpa using hp) (by simp) x hx
      simpa using this

/-- Decoding in two parts. -/
theorem decodeFrom_append (T : List Symbol) (code : Symbol → BitStr) (bits more : BitStr) (i : Nat) (d : Decoding) :
    decodeFrom T code i (bits ++ more) d = decodeFrom T code (i + bits.length) more (decodeFrom T code i bits d) := by
  induction bits generalizing i d with
  | nil => rfl
  | cons b bits ih => rw [List.cons_append, decodeFrom, decodeFrom, ih]; congr 1; simp; omega

/-! ### Characters -/

@[simp] theorem charBit_bitChar (b : Bool) : charBit (bitChar b) = b := by cases b <;> decide

@[simp] theorem malformed_bitChar (b : Bool) : malformed (bitChar b) = false := by cases b <;> decide

end Sys2Proof.Machine
end

