-- ==== Sys2Proof/Laws/Step.lean ====
section
/-! SUPPORT. What each command, each transaction and each step can do, said once. -/

namespace Sys2Proof.Machine

/-! ### Commands -/

theorem exec_compress (s : State) :
    exec .compress s = if s.iLen = 0 then .next (s.raise .emptyInput) else .next (s.compressOutputs s.inputStream).succeed :=
  rfl

theorem exec_decompress_ok {s : State} {out : List Symbol} (h : s.decompressResult = .ok out) :
    exec .decompress s = .next (s.decompressOutputs out).succeed := by
  simp [exec, execDecompress, h]

theorem exec_decompress_error {s : State} {e : CmdError} (h : s.decompressResult = .error e) :
    exec .decompress s = .next (s.raise e) := by
  simp [exec, execDecompress, h]

theorem exec_checkTable_ok {s : State} (h : s.checkTable = none) : exec .checkTable s = .next s.succeed := by
  simp [exec, execCheckTable, h]

theorem exec_checkTable_error {s : State} {e : CmdError} (h : s.checkTable = some e) :
    exec .checkTable s = .next (s.raise e) := by
  simp [exec, execCheckTable, h]

theorem exec_clear (s : State) : exec .clear s = .next s.clearOutputs.succeed := rfl

/-- Everything a command can do: an error completion, or its own outputs and success. -/
theorem exec_cases {i : Instr} {s t : State} (h : exec i s = .next t) :
    (i = .compress ∧ s.iLen = 0 ∧ t = s.raise .emptyInput) ∨
    (i = .compress ∧ s.iLen ≠ 0 ∧ t = (s.compressOutputs s.inputStream).succeed) ∨
    (i = .decompress ∧ ∃ e, s.decompressResult = .error e ∧ t = s.raise e) ∨
    (i = .decompress ∧ ∃ out, s.decompressResult = .ok out ∧ t = (s.decompressOutputs out).succeed) ∨
    (i = .checkTable ∧ ∃ e, s.checkTable = some e ∧ t = s.raise e) ∨
    (i = .checkTable ∧ s.checkTable = none ∧ t = s.succeed) ∨
    (i = .clear ∧ t = s.clearOutputs.succeed) := by
  cases i with
  | compress =>
    rw [exec_compress] at h
    split at h <;> cases h <;> simp_all
  | decompress =>
    cases hr : s.decompressResult with
    | error e => rw [exec_decompress_error hr] at h; cases h; simp
    | ok out => rw [exec_decompress_ok hr] at h; cases h; simp
  | checkTable =>
    cases hr : s.checkTable with
    | some e => rw [exec_checkTable_error hr] at h; cases h; simp
    | none => rw [exec_checkTable_ok hr] at h; cases h; simp
  | clear => rw [exec_clear] at h; cases h; simp

/-- The errors DECOMPRESS can find, in the order it tests them (R216). -/
theorem decompressResult_cases (s : State) :
    (s.pLen = 0 ∧ s.decompressResult = .error .emptyPayload) ∨
    (s.pLen ≠ 0 ∧ s.tableSymbols = [] ∧ s.decompressResult = .error .emptyTable) ∨
    (s.pLen ≠ 0 ∧ s.tableSymbols ≠ [] ∧
      ∃ i, firstMalformed s.payload = some i ∧ s.decompressResult = .error (.malformedPayload i)) ∨
    (s.pLen ≠ 0 ∧ s.tableSymbols ≠ [] ∧ firstMalformed s.payload = none ∧
      ∃ e, tableCheck s.tableSymbols s.codeOf = some e ∧ s.decompressResult = .error e) ∨
    (s.pLen ≠ 0 ∧ s.tableSymbols ≠ [] ∧ firstMalformed s.payload = none ∧ tableCheck s.tableSymbols s.codeOf = none ∧
      s.decompressResult = (decodeBits s.tableSymbols s.codeOf (s.payload.map charBit)).result) := by
  by_cases h₁ : s.pLen = 0
  · simp [State.decompressResult, h₁]
  by_cases h₂ : s.tableSymbols = []
  · simp [State.decompressResult, h₁, h₂]
  cases h₃ : firstMalformed s.payload with
  | some i => simp [State.decompressResult, h₁, h₂, h₃]
  | none =>
    cases h₄ : tableCheck s.tableSymbols s.codeOf with
    | some e => simp [State.decompressResult, h₁, h₂, h₃, h₄]
    | none => simp [State.decompressResult, h₁, h₂, h₃, h₄]

/-- TableCheck reports nothing but a duplicate or a prefix pair (R162). -/
theorem tableCheck_some {T : List Symbol} {code : Symbol → BitStr} {e : CmdError} (h : tableCheck T code = some e) :
    (∃ x y, e = .duplicateCode x y) ∨ ∃ x y, e = .nonPrefixFree x y := by
  rw [tableCheck] at h
  split at h
  · rename_i p _; exact .inl ⟨p.1, p.2, (Option.some.inj h).symm⟩
  · split at h
    · rename_i p _; exact .inr ⟨p.1, p.2, (Option.some.inj h).symm⟩
    · cases h

/-! ### Operands and outputs -/

@[simp] theorem inputStream_length (s : State) : s.inputStream.length = s.iLen := by simp [State.inputStream]

@[simp] theorem payload_length (s : State) : s.payload.length = s.pLen := by simp [State.payload]

theorem inputStream_getElem (s : State) (i : Nat) (h : i < s.inputStream.length) : s.inputStream[i] = s.readIBUF i := by
  simp [State.inputStream]

theorem payload_getElem (s : State) (i : Nat) (h : i < s.payload.length) : s.payload[i] = s.readPBUF i := by
  simp [State.payload]

theorem inputStream_ne_nil {s : State} (h : s.iLen ≠ 0) : s.inputStream ≠ [] := by
  intro e; exact h (by rw [← inputStream_length, e]; rfl)

/-- An element read: the written value, or the free contents. -/
theorem State.element_eq (s : State) (m : Memory) (sp : Space) (i : Nat) :
    s.element m sp i = (m.get? i).getD (Config.powerUpByte s.fill sp i) := by
  rw [State.element]; cases m.get? i <;> rfl

/-- No character is malformed exactly when the payload is binary (R165). -/
theorem firstMalformed_eq_none_iff (s : State) :
    firstMalformed s.payload = none ↔ ∀ i < s.pLen, s.readPBUF i = 0x30#8 ∨ s.readPBUF i = 0x31#8 := by
  rw [firstMalformed, List.findIdx?_eq_none_iff]
  constructor
  · intro h i hi
    have := h (s.readPBUF i) (by rw [State.payload]; exact List.mem_map.2 ⟨i, by simpa using hi, rfl⟩)
    simp [malformed] at this; tauto
  · intro h c hc
    rw [State.payload] at hc
    obtain ⟨i, hi, rfl⟩ := List.mem_map.1 hc
    rcases h i (by simpa using hi) with h | h <;> simp [malformed, h]

/-- After a COMPRESS the payload element `j` is the bit's character below PLEN, and what it was above (R145). -/
theorem readPBUF_compressOutputs (s : State) (xs : List Symbol) (j : Nat) :
    (s.compressOutputs xs).readPBUF j =
      if h : j < (encodeBits (codesOf xs) xs).length then bitChar (encodeBits (codesOf xs) xs)[j] else s.readPBUF j := by
  rw [State.readPBUF, State.element_eq, State.compressOutputs_pbuf, State.compressOutputs_fill, Memory.get?_setFrom]
  by_cases h : j < (encodeBits (codesOf xs) xs).length
  · simp [h]
  · simp [h, State.readPBUF, State.element_eq]

/-- After a DECOMPRESS the output element `j` is the symbol below OLEN, and what it was above (R170). -/
theorem readOBUF_decompressOutputs (s : State) (out : List Symbol) (j : Nat) :
    (s.decompressOutputs out).readOBUF j = if h : j < out.length then out[j] else s.readOBUF j := by
  rw [State.readOBUF, State.element_eq, State.decompressOutputs_obuf, State.decompressOutputs_fill, Memory.get?_setFrom]
  by_cases h : j < out.length
  · simp [h]
  · simp [h, State.readOBUF, State.element_eq]

/-- The entry a COMPRESS writes (R144). -/
theorem entry_compressOutputs (s : State) (xs : List Symbol) (x : Symbol) :
    (s.compressOutputs xs).entry x = compressEntry (countFreq xs) (codesOf xs) x := by
  simp [State.entry]

theorem compressEntry_some {m : FreqMap} {c : Codes} {x : Symbol} {p : BitStr} (h : c.at x = some p) :
    compressEntry m c x =
      { valid := true, len := BitVec.ofNat 8 p.length, freq := BitVec.ofNat 32 (m.count x), code := packCode p } := by
  simp [compressEntry, h]

theorem compressEntry_none {m : FreqMap} {c : Codes} {x : Symbol} (h : c.at x = none) :
    compressEntry m c x = CTEntry.zero := by
  simp [compressEntry, h]

/-! ### Transactions -/

/-- A read changes nothing but the draw counter (R61). -/
theorem busRead_state (s : State) (sp : Space) (i : Nat) : ∃ n, (s.busRead sp i).2 = { s with draws := n } := by
  rw [State.busRead]; split <;> exact ⟨_, rfl⟩

/-- A read while idle gives the location's word and changes nothing (R61). -/
theorem busRead_idle {s : State} (h : s.busy = false) (sp : Space) (i : Nat) : s.busRead sp i = (s.readWord sp i, s) := by
  simp [State.busRead, h]

/-- A write while idle (R62). -/
theorem busWrite_idle {s : State} (h : s.busy = false) (sp : Space) (i : Nat) (v : Word) :
    s.busWrite sp i v = s.writeWord sp i v := by
  simp [State.busWrite, h]

/-- Everything a REG write while idle can do. -/
theorem writeReg_cases (s : State) (i : Nat) (v : Word) :
    s.writeReg i v = s ∨ s.writeReg i v = s.writeCtrl v ∨ s.writeReg i v = s.issue v ∨
    s.writeReg i v = s.writeStatus v ∨
    (v.toNat ≤ s.iMax ∧ s.writeReg i v = { s with iLen := v.toNat }) ∨
    (v.toNat ≤ Config.pMax s.iMax ∧ s.writeReg i v = { s with pLen := v.toNat }) := by
  rw [State.writeReg.eq_def]
  split
  · exact .inr (.inl rfl)
  · exact .inr (.inr (.inl rfl))
  · exact .inr (.inr (.inr (.inl rfl)))
  · by_cases h : v.toNat ≤ s.iMax
    · rw [if_pos h]; exact .inr (.inr (.inr (.inr (.inl ⟨h, rfl⟩))))
    · rw [if_neg h]; exact .inl rfl
  · by_cases h : v.toNat ≤ Config.pMax s.iMax
    · rw [if_pos h]; exact .inr (.inr (.inr (.inr (.inr ⟨h, rfl⟩))))
    · rw [if_neg h]; exact .inl rfl
  · exact .inl rfl

/-- Everything a write while idle can do. -/
theorem writeWord_cases (s : State) (sp : Space) (i : Nat) (v : Word) :
    s.writeWord sp i v = s ∨ s.writeWord sp i v = s.writeCtrl v ∨ s.writeWord sp i v = s.issue v ∨
    s.writeWord sp i v = s.writeStatus v ∨
    (v.toNat ≤ s.iMax ∧ s.writeWord sp i v = { s with iLen := v.toNat }) ∨
    (v.toNat ≤ Config.pMax s.iMax ∧ s.writeWord sp i v = { s with pLen := v.toNat }) ∨
    (i < s.iMax ∧ s.writeWord sp i v = { s with ibuf := s.ibuf.set i (v.setWidth 8) }) ∨
    (i < Config.pMax s.iMax ∧ s.writeWord sp i v = { s with pbuf := s.pbuf.set i (v.setWidth 8) }) ∨
    ∃ c, s.writeWord sp i v = { s with ct := c } := by
  rw [State.writeWord]
  by_cases hm : s.mapped sp i = true
  · rw [if_pos hm]
    simp only [State.mapped, State.spaceSize] at hm
    by_cases h₀ : sp = spREG
    · simp only [h₀, if_true]
      rcases writeReg_cases s i v with h | h | h | h | h | h <;> tauto
    · simp only [h₀, if_false] at hm ⊢
      by_cases h₁ : sp = spIBUF
      · simp only [h₁, if_true] at hm ⊢
        exact .inr (.inr (.inr (.inr (.inr (.inr (.inl ⟨by simpa using hm, trivial⟩))))))
      · simp only [h₁, if_false] at hm ⊢
        by_cases h₂ : sp = spPBUF
        · simp only [h₂, if_true] at hm ⊢
          exact .inr (.inr (.inr (.inr (.inr (.inr (.inr (.inl ⟨by simpa using hm, trivial⟩)))))))
        · simp only [h₂, if_false]
          by_cases h₄ : sp = spCT
          · simp only [h₄, if_true]
            exact .inr (.inr (.inr (.inr (.inr (.inr (.inr (.inr ⟨_, rfl⟩)))))))
          · simp [h₄]
  · rw [if_neg hm]; exact .inl rfl

/-! ### Steps -/

theorem step_bus {s : State} {op : BusOp} {rest : List Turn} (h : s.turns = .bus op :: rest) :
    step s = .next ({ s with turns := rest }.busTransaction op) := by
  simp [step, nextMove, h]

theorem step_rst {s : State} {b : Bool} {rest : List Turn} (h : s.turns = .rst b :: rest) :
    step s = .next ({ s with turns := rest }.setReset b) := by
  simp [step, nextMove, h]

theorem step_core {s : State} {rest : List Turn} (h : s.turns = .core :: rest) :
    step s = coreMove { s with turns := rest } := by
  simp [step, nextMove, h]

theorem step_nil {s : State} (h : s.turns = []) : step s = coreMove s := by
  simp [step, nextMove, h]

theorem coreMove_idle {s : State} (h : s.coreEnabled = false) : coreMove s = .next s := by
  simp [coreMove, h]

theorem coreMove_command {s : State} (h : s.coreEnabled = true) {i : Instr} (hd : decode s.pend = .ok i) :
    coreMove s = exec i s := by
  simp [coreMove, h, coreStep, State.commandWord, hd]

theorem coreMove_illegal {s : State} (h : s.coreEnabled = true) {e : DecodeReject} (hd : decode s.pend = .error e) :
    coreMove s = .next (s.illegalCommand s.pend) := by
  simp [coreMove, h, coreStep, State.commandWord, hd, execIllegal]

/-- The state the CORE moves from: the next turn, if it is the CORE's, is taken off the list. -/
def CoreMovesFrom (s s₁ : State) : Prop :=
  (s.turns = [] ∧ s₁ = s) ∨ ∃ rest, s.turns = .core :: rest ∧ s₁ = { s with turns := rest }

/-- Everything a step can do: the CORE has no step and nothing changes; the CORE runs a command or completes an illegal
word; the HOST performs a transaction; the reset input takes a level. -/
theorem step_cases {s t : State} (h : step s = .next t) :
    (∃ s₁, CoreMovesFrom s s₁ ∧
      ((s₁.coreEnabled = false ∧ t = s₁) ∨
       (s₁.coreEnabled = true ∧ ∃ i, decode s₁.pend = .ok i ∧ exec i s₁ = .next t) ∨
       (s₁.coreEnabled = true ∧ (∃ e, decode s₁.pend = .error e) ∧ t = s₁.illegalCommand s₁.pend))) ∨
    (∃ op rest, s.turns = .bus op :: rest ∧ t = { s with turns := rest }.busTransaction op) ∨
    (∃ b rest, s.turns = .rst b :: rest ∧ t = { s with turns := rest }.setReset b) := by
  have move : ∀ s₁, CoreMovesFrom s s₁ → coreMove s₁ = .next t →
      ∃ s₁, CoreMovesFrom s s₁ ∧
      ((s₁.coreEnabled = false ∧ t = s₁) ∨
       (s₁.coreEnabled = true ∧ ∃ i, decode s₁.pend = .ok i ∧ exec i s₁ = .next t) ∨
       (s₁.coreEnabled = true ∧ (∃ e, decode s₁.pend = .error e) ∧ t = s₁.illegalCommand s₁.pend)) := by
    intro s₁ hs₁ hm
    refine ⟨s₁, hs₁, ?_⟩
    cases he : s₁.coreEnabled with
    | false => rw [coreMove_idle he] at hm; cases hm; exact .inl ⟨rfl, rfl⟩
    | true =>
      cases hd : decode s₁.pend with
      | ok i => rw [coreMove_command he hd] at hm; exact .inr (.inl ⟨rfl, i, rfl, hm⟩)
      | error e => rw [coreMove_illegal he hd] at hm; cases hm; exact .inr (.inr ⟨rfl, ⟨e, rfl⟩, rfl⟩)
  cases ht : s.turns with
  | nil => rw [step_nil ht] at h; exact .inl (move s (.inl ⟨ht, rfl⟩) h)
  | cons a rest =>
    cases a with
    | core => rw [step_core ht] at h; exact .inl (move _ (.inr ⟨rest, ht, rfl⟩) h)
    | bus op => rw [step_bus ht] at h; cases h; exact .inr (.inl ⟨op, rest, rfl, rfl⟩)
    | rst b => rw [step_rst ht] at h; cases h; exact .inr (.inr ⟨b, rest, rfl, rfl⟩)

end Sys2Proof.Machine
end

