-- ==== Sys2Proof/Laws/Bus.lean ====
section
/-! SUPPORT. What a transaction of the host can do, said once (20_memory.md R60 to R67), the words of a code table entry
(10_state.md R38), and chains of steps. -/

namespace Sys2Proof.Machine

/-! ### Chains of steps -/

theorem stepsTo_one {s t : State} (h : step s = .next t) : StepsTo 1 s t := ⟨t, h, rfl⟩

theorem stepsTo_trans {a b : Nat} {s t u : State} (h : StepsTo a s t) (h' : StepsTo b t u) : StepsTo (a + b) s u := by
  induction a generalizing s with
  | zero => cases h; simpa using h'
  | succ a ih =>
    obtain ⟨m, hm, hr⟩ := h
    rw [Nat.succ_add]; exact ⟨m, hm, ih hr⟩

/-! ### Transactions -/

/-- A host read changes the model's own lists and nothing else (R61). -/
theorem step_read {s : State} {sp : Space} {i : Word} {rest : List Turn} (hr : s.rst = false)
    (h : s.turns = .bus (.read sp i) :: rest) :
    ∃ w n, step s = .next { s with turns := rest, draws := n, trace := ⟨.r, sp, i, w⟩ :: s.trace } := by
  rcases hh : State.busRead { s with turns := rest } sp i.toNat with ⟨w, t⟩
  obtain ⟨n, hn⟩ := busRead_state { s with turns := rest } sp i.toNat
  rw [hh] at hn
  simp only at hn
  refine ⟨w, n, ?_⟩
  rw [step_bus h, State.busTransaction, if_neg (by simp [hr])]
  simp only [hh]
  subst hn; rfl

/-- A host write while idle is `writeWord` with its record (R62). -/
theorem step_write_idle {s : State} {sp : Space} {i v : Word} {rest : List Turn} (hb : s.busy = false) (hr : s.rst = false)
    (h : s.turns = .bus (.write sp i v) :: rest) :
    step s = .next { State.writeWord { s with turns := rest } sp i.toNat v with trace := ⟨.w, sp, i, v⟩ :: s.trace } := by
  rw [step_bus h, State.busTransaction, if_neg (by simp [hr])]
  simp only [State.busWrite]
  rw [if_neg (by simp [hb])]

/-- Everything a transaction can do: nothing (under reset); a read; a dropped write; a write performed. -/
theorem busTransaction_cases (s : State) (op : BusOp) :
    s.busTransaction op = s ∨ (∃ n r, s.busTransaction op = { s with draws := n, trace := r }) ∨
    (∃ r, s.busy = true ∧ s.busTransaction op = { s with ignwr := true, trace := r }) ∨
    ∃ sp i v r, op = .write sp i v ∧ s.rst = false ∧ ¬ (s.busy = true ∧ s.lockedWhileBusy sp i.toNat = true) ∧
      s.busTransaction op = { s.writeWord sp i.toNat v with trace := r } := by
  rw [State.busTransaction.eq_def]
  by_cases hr : s.rst = true
  · simp [hr]
  · rw [if_neg hr]
    right
    cases op with
    | read sp i =>
      left
      rcases hh : State.busRead s sp i.toNat with ⟨w, t⟩
      obtain ⟨n, hn⟩ := busRead_state s sp i.toNat
      rw [hh] at hn; simp only at hn; subst hn
      exact ⟨n, { kind := .r, space := sp, index := i, data := w } :: s.trace, by simp only [hh]⟩
    | write sp i v =>
      right
      by_cases hc : (s.busy && s.lockedWhileBusy sp i.toNat) = true
      · left; exact ⟨_, by simp_all, by simp only [State.busWrite, if_pos hc]; rfl⟩
      · right; exact ⟨sp, i, v, _, rfl, by simpa using hr, by simpa using hc, by simp only [State.busWrite, if_neg hc]; rfl⟩

/-! ### Entries of the code table -/

/-- A CODE word written: its 32 bits are the word's, every other bit of CODE is kept (R38). -/
theorem setCodeWord_getLsbD (e : CTEntry) (j : Nat) (v : Word) (k : Nat) (hk : k < 256) :
    (e.setCodeWord j v).code.getLsbD k =
      if 32 * j ≤ k ∧ k < 32 * j + 32 then v.getLsbD (k - 32 * j) else e.code.getLsbD k := by
  simp only [CTEntry.setCodeWord, BitVec.getLsbD_or, BitVec.getLsbD_and, BitVec.getLsbD_not, BitVec.getLsbD_shiftLeft,
    BitVec.getLsbD_setWidth]
  by_cases h1 : 32 * j ≤ k
  · by_cases h2 : k < 32 * j + 32
    · have hF : (0xFFFFFFFF#32).getLsbD (k - 32 * j) = true := by
        have : ∀ n < 32, (0xFFFFFFFF#32).getLsbD n = true := by decide
        exact this _ (by omega)
      simp [hk, h1, h2, hF, show k - 32 * j < 256 by omega, show ¬ k < 32 * j by omega]
    · have hF : (0xFFFFFFFF#32).getLsbD (k - 32 * j) = false := BitVec.getLsbD_of_ge _ _ (by omega)
      have hv : v.getLsbD (k - 32 * j) = false := BitVec.getLsbD_of_ge _ _ (by omega)
      simp [hk, h1, h2, hF, hv, show ¬ k < 32 * j by omega]
  · simp [hk, h1, show k < 32 * j by omega]

/-- An entry replaced: that entry is the new one, every other is kept. -/
theorem entry_set (s : State) (y : Symbol) (e : CTEntry) (z : Symbol) :
    State.entry { s with ct := s.ct.set y.toNat e y.isLt } z = if y = z then e else s.entry z := by
  simp only [State.entry, Vector.getElem_set]
  by_cases h : y = z
  · simp [h]
  · rw [if_neg (fun e => h (BitVec.eq_of_toNat_eq e)), if_neg h]

/-- A write of word `w` of the entry of `x` while idle (R38). -/
theorem writeWord_ct (s : State) (x : Symbol) (w : Nat) (hw : w < 16) (v : Word) :
    s.writeWord 4#3 (16 * x.toNat + w) v = { s with ct := s.ct.set x.toNat ((s.entry x).setWord w v) x.isLt } := by
  have hx := x.isLt
  have hs : ctSymbol (16 * x.toNat + w) = x := by
    apply BitVec.eq_of_toNat_eq
    simp [ctSymbol, ctStride]; omega
  have hw' : (16 * x.toNat + w) % ctStride = w := by simp [ctStride]; omega
  rw [State.writeWord, if_pos]
  · rw [if_neg (by decide), if_neg (by decide), if_neg (by decide), if_pos (by decide), State.writeCT]
    simp only [hw', hs]
  · simp [State.mapped, State.spaceSize, spREG, spIBUF, spPBUF, spOBUF, spCT, ctWords]; omega

end Sys2Proof.Machine
end

