-- ==== Sys2Proof/Laws/Compress.lean ====
section
/-! SUPPORT. The table and the payload a COMPRESS leaves, seen through the table itself (41_compress.md R143 to R145). -/

namespace Sys2Proof.Machine

theorem tableSymbols_nodup (s : State) : s.tableSymbols.Nodup := by
  refine (tableSymbols_sorted s).imp ?_
  rintro a b h rfl
  exact BitVec.lt_irrefl _ h

theorem codesOf_mem {xs : List Symbol} {x : Symbol} (h : x ∈ xs) : ∃ p, (codesOf xs).at x = some p :=
  Option.isSome_iff_exists.1 ((codesOf_isSome xs x).2 h)

theorem codesOf_notMem {xs : List Symbol} {x : Symbol} (h : x ∉ xs) : (codesOf xs).at x = none := by
  cases hc : (codesOf xs).at x with
  | none => rfl
  | some p => exact absurd ((codesOf_isSome xs x).1 (by simp [hc])) h

/-- The table COMPRESS leaves holds the code of every symbol of the stream (R144). -/
theorem codeOf_compressOutputs (s : State) {xs : List Symbol} {x : Symbol} (h : x ∈ xs) :
    (codesOf xs).at x = some ((s.compressOutputs xs).codeOf x) := by
  obtain ⟨p, hp⟩ := codesOf_mem h
  rw [State.codeOf, entry_compressOutputs, compressEntry_some hp, codeBits_packCode _ (codesOf_length hp).2, hp]

/-- The symbols of the table COMPRESS leaves are those of the stream (R144). -/
theorem mem_tableSymbols_compressOutputs (s : State) (xs : List Symbol) (x : Symbol) :
    x ∈ (s.compressOutputs xs).tableSymbols ↔ x ∈ xs := by
  rw [mem_tableSymbols, entry_compressOutputs]
  by_cases h : x ∈ xs
  · obtain ⟨p, hp⟩ := codesOf_mem h
    simp [compressEntry_some hp, h]
  · simp [compressEntry_none (codesOf_notMem h), h, CTEntry.zero]

/-- The payload is the concatenation of the codes the table holds (R143). -/
theorem encodeBits_eq_flatMap (s : State) (xs : List Symbol) :
    encodeBits (codesOf xs) xs = xs.flatMap (s.compressOutputs xs).codeOf := by
  rw [encodeBits]
  refine List.flatMap_congr fun x hx => ?_
  rw [codeOf_compressOutputs s hx, Option.getD_some]

theorem prefixFree_compressOutputs (s : State) (xs : List Symbol) :
    PrefixFree (s.compressOutputs xs).tableSymbols (s.compressOutputs xs).codeOf := by
  intro x hx y hy hp
  rw [mem_tableSymbols_compressOutputs] at hx hy
  exact codesOf_prefixFree (codeOf_compressOutputs s hx) (codeOf_compressOutputs s hy) hp

end Sys2Proof.Machine
end

