-- ==== Sys2Proof/Laws/Decode.lean ====
section
/-! SUPPORT. A command word is its two fields (30_encoding.md R90). -/

namespace Sys2Proof

/-- RSV and OP together are the whole word. -/
theorem word_eq_fields (v : Word) : v = rsvField v ++ opField v := by
  have h : ∀ w : BitVec (24 + 8), w = w.extractLsb' 8 24 ++ w.extractLsb' 0 8 := fun w => by
    ext k hk
    simp only [BitVec.getElem_append, BitVec.getElem_extractLsb']
    split
    · simp [BitVec.getLsbD_eq_getElem hk]
    · rw [show 8 + (k - 8) = k by omega, BitVec.getLsbD_eq_getElem hk]
  exact h v

end Sys2Proof
end

