-- ==== Sys2Proof/Machine/HostText.lean ====
section
/-! DEFINITION. The text of host programs (30_encoding.md R97, R98; 95_test_vectors.md section 9): statements, labels and
host control flow, read into the HOST's turns (log 15). -/

namespace Sys2Proof.Machine

/-! ### Characters of a line -/

/-- A piece of a line: a character that stands for itself, a character in single quotes, or a string in double quotes. -/
inductive Mark where
  | plain (c : Char)
  | quoted (c : Char)
  | text (cs : List Char)
deriving DecidableEq, Repr

/-- The pieces of a line before its comment. The first argument is what has been read of an open string; a string that
is never closed stands for its characters. -/
def marksFrom : Option (List Char) → List Char → List Mark
  | none, [] => []
  | none, '\'' :: c :: '\'' :: cs => .quoted c :: marksFrom none cs
  | none, c :: cs =>
    if c = ';' then []
    else if c = '"' then marksFrom (some []) cs
    else .plain (if c = '\t' then ' ' else c) :: marksFrom none cs
  | some s, [] => .plain '"' :: s.map .plain
  | some s, c :: cs => if c = '"' then .text s :: marksFrom none cs else marksFrom (some (s ++ [c])) cs

/-- The pieces of a line, up to the `;` that starts a comment (R97). -/
def marksOf (line : List Char) : List Mark := marksFrom none line

/-- The pieces of an unquoted word. -/
def spelled (s : String) : List Mark := s.toList.map .plain

/-- The characters of pieces that are all unquoted. -/
def nameOf : List Mark → Option (List Char)
  | [] => some []
  | .plain c :: ms => (nameOf ms).map (c :: ·)
  | _ :: _ => none

/-- Drops the spaces at both ends. -/
def trimmed (ms : List Mark) : List Mark :=
  ((ms.dropWhile (· == .plain ' ')).reverse.dropWhile (· == .plain ' ')).reverse

/-- What stands before and after the first unquoted `sep`. -/
def cutAt (sep : List Mark) : List Mark → Option (List Mark × List Mark)
  | [] => none
  | m :: ms =>
    if sep.isPrefixOf (m :: ms) then some ([], (m :: ms).drop sep.length)
    else (cutAt sep ms).map fun p => (m :: p.1, p.2)

/-- The operands between unquoted commas. -/
def operandsOf (ms : List Mark) : List (List Mark) := (ms.splitOn (.plain ',')).map trimmed

/-- The words between unquoted spaces. -/
def wordsOf (ms : List Mark) : List (List Mark) := (ms.splitOn (.plain ' ')).filter (· ≠ [])

/-! ### Names, numbers and locations -/

/-- The entry of a list of names. -/
def named {α : Type} (names : List (List Char × α)) (cs : List Char) : Option α :=
  (names.find? fun p => p.1 == cs).map (·.2)

/-- The name of a space (R97). -/
def spaceNames : List (List Char × Space) :=
  [("REG".toList, spREG), ("IBUF".toList, spIBUF), ("PBUF".toList, spPBUF), ("OBUF".toList, spOBUF), ("CT".toList, spCT)]

/-- The name of a register and its REG index (R26, R97). -/
def regNames : List (List Char × Word) :=
  [("REG.ID".toList, 0#32), ("REG.VERSION".toList, 1#32), ("REG.CAP_IMAX".toList, 2#32), ("REG.CTRL".toList, regCTRL),
    ("REG.CMD".toList, regCMD), ("REG.STATUS".toList, regSTATUS), ("REG.ERRINFO".toList, 6#32),
    ("REG.ILEN".toList, regILEN), ("REG.PLEN".toList, regPLEN), ("REG.OLEN".toList, 9#32),
    ("REG.ORIG_BITS".toList, 10#32), ("REG.COMP_BITS".toList, 11#32), ("REG.RATIO".toList, 12#32),
    ("REG.NALPHA".toList, 13#32)]

/-- The mnemonic of a command (R94). -/
def commandNames : List (List Char × Instr) :=
  [("COMPRESS".toList, .compress), ("DECOMPRESS".toList, .decompress), ("CHECK_TABLE".toList, .checkTable),
    ("CLEAR".toList, .clear)]

/-- A decimal or `0x` hexadecimal number (R97). -/
def numberOf : List Char → Option Nat
  | [] => none
  | '0' :: 'x' :: c :: cs => digitsValue 16 0 (c :: cs)
  | c :: cs => digitsValue 10 0 (c :: cs)

/-- The ASCII value of a character (R97). -/
def asciiOf (c : Char) : Option Nat := if c.toNat < 128 then some c.toNat else none

/-- A number, or a character in single quotes for its ASCII value (R97). -/
def valueOf : List Mark → Option Nat
  | [.quoted c] => asciiOf c
  | ms => (nameOf ms).bind numberOf

/-- A value as a word of `w` bits; none for one that does not fit. -/
def fitted (w n : Nat) : Option (BitVec w) := if n < 2 ^ w then some (BitVec.ofNat w n) else none

/-- A value as a bus word. -/
def wordOf (ms : List Mark) : Option Word := (valueOf ms).bind (fitted 32)

/-- A value as a symbol. -/
def symbolOf (ms : List Mark) : Option Symbol := (valueOf ms).bind (fitted 8)

/-- A location: `SPACE[i]` or `REG.NAME` (R97). -/
def locationOf (ms : List Mark) : Option (Space × Word) :=
  match cutAt (spelled "[") ms with
  | none => ((nameOf ms).bind (named regNames)).map fun i => (spREG, i)
  | some (space, rest) =>
    match (nameOf (trimmed space)).bind (named spaceNames), rest.reverse with
    | some sp, .plain ']' :: inner => (wordOf (trimmed inner.reverse)).map fun i => (sp, i)
    | _, _ => none

/-! ### Statements -/

/-- The word a statement or pseudo-instruction begins with (R97, R98). -/
inductive Keyword where
  | wr
  | rd
  | cmd
  | wait
  | ack
  | loadi
  | loadp
  | setcode
  | delcode
deriving DecidableEq, Repr

/-- The keywords by name. -/
def keywords : List (List Char × Keyword) :=
  [("wr".toList, .wr), ("rd".toList, .rd), ("cmd".toList, .cmd), ("wait".toList, .wait), ("ack".toList, .ack),
    ("loadi".toList, .loadi), ("loadp".toList, .loadp), ("setcode".toList, .setcode), ("delcode".toList, .delcode)]

/-- What stands before the first `->`: what follows is "a comment for the reader, not a check" (R97). -/
def beforeArrow (ms : List Mark) : List Mark :=
  match cutAt (spelled "->") ms with
  | some p => p.1
  | none => ms

/-- The reads of an `rd`: one location, or in the spec's programs (95_test_vectors.md section 9) several between commas,
or the first and the last of consecutive ones, as in `rd PBUF[0] ... rd PBUF[10]`. -/
def readsOf (ms : List Mark) : Option (List Turn) :=
  match cutAt (spelled "...") (beforeArrow ms) with
  | none => ((operandsOf (beforeArrow ms)).mapM locationOf).map (·.map fun l => rd l.1 l.2)
  | some (first, last) =>
    match locationOf (trimmed first), cutAt (spelled "rd ") (trimmed last) with
    | some (sp, i), some ([], l) =>
      match locationOf (trimmed l) with
      | some (sp', j) =>
        if sp = sp' ∧ i ≤ j then some ((List.range (j.toNat - i.toNat + 1)).map fun k => rd sp (i + BitVec.ofNat 32 k))
        else none
      | none => none
    | _, _ => none

/-- A symbol written as a character of a `loadi` string (R98). -/
def charSymbol (c : Char) : Option Symbol := (asciiOf c).bind (fitted 8)

/-- A bit written as a character of a `loadp` or `setcode` string (R98). -/
def charBitOf (c : Char) : Option Bool := if c = '0' then some false else if c = '1' then some true else none

/-- A pseudo-instruction from its keyword and operands (R98). `polls` is the number of busy polls of a `wait` (log 11). -/
def pseudoOf (polls : Nat) (k : Keyword) (args : List (List Mark)) : Option Pseudo :=
  match k, args with
  | .cmd, [i] => ((nameOf i).bind (named commandNames)).map .cmd
  | .wait, [[]] => some (.wait polls)
  | .ack, [[]] => some .ack
  | .loadi, [[.text cs]] => (cs.mapM charSymbol).map .loadi
  | .loadp, [[.text bs]] => (bs.mapM charBitOf).map .loadp
  | .setcode, [x, [.text bs], f] =>
    match symbolOf x, bs.mapM charBitOf, wordOf f with
    | some x, some bs, some f => some (.setcode x bs f)
    | _, _, _ => none
  | .delcode, [x] => (symbolOf x).map .delcode
  | _, _ => none

/-- A statement or pseudo-instruction as the HOST's turns (R97, R98), a `wait` with `polls` busy
polls (log 11); none for text that is neither. -/
def statementOf (polls : Nat) (ms : List Mark) : Option (List Turn) :=
  let p := (cutAt (spelled " ") ms).getD (ms, [])
  match (nameOf p.1).bind (named keywords) with
  | none => none
  | some .wr =>
    match operandsOf p.2 with
    | [l, v] =>
      match locationOf l, wordOf v with
      | some l, some v => some [wr l.1 l.2 v]
      | _, _ => none
    | _ => none
  | some .rd => readsOf p.2
  | some k => (pseudoOf polls k (operandsOf p.2)).map Pseudo.turns

/-! ### Lines and control flow -/

/-- What a line does: transactions (none on a blank line), or the host's own `goto`, under a condition or always (R97). -/
inductive Body where
  | transactions (turns : List Turn)
  | jump (condition : Option (List (List Mark))) (label : List Char)
deriving DecidableEq, Repr

/-- A line: its label, if it has one, and what it does (R97). -/
structure Line where
  label : Option (List Char)
  body : Body
deriving DecidableEq, Repr

/-- The turns of a line's own transactions; "the `if` and `goto` lines are host control flow and make no transaction"
(95_test_vectors.md P3). -/
def Body.turns : Body → List Turn
  | .transactions ts => ts
  | .jump _ _ => []

/-- The characters may name a label: letters, digits and `_`, at least one. -/
def isLabel (cs : List Char) : Bool := cs ≠ [] && cs.all fun c => c.isAlphanum || c == '_'

/-- The pieces as a label. -/
def labelOf (ms : List Mark) : Option (List Char) :=
  match nameOf ms with
  | some cs => if isLabel cs then some cs else none
  | none => none

/-- The label before the first `:`, if there is one, and the rest of the line (R97). -/
def splitLabel (ms : List Mark) : Option (List Char) × List Mark :=
  match cutAt (spelled ":") ms with
  | some (l, rest) =>
    match labelOf (trimmed l) with
    | some cs => (some cs, trimmed rest)
    | none => (none, trimmed ms)
  | none => (none, trimmed ms)

/-- `goto label` or `if <condition> goto label` (R97); the condition is the host's and stays as its words. -/
def jumpOf (ms : List Mark) : Option Body :=
  match (wordsOf ms).reverse with
  | l :: g :: rest =>
    if g = spelled "goto" then
      match labelOf l, rest.reverse with
      | some label, [] => some (.jump none label)
      | some label, w :: condition =>
        if w = spelled "if" ∧ condition ≠ [] then some (.jump (some condition) label) else none
      | none, _ => none
    else none
  | _ => none

/-- A line of host assembly (R97): a label, then a statement, a pseudo-instruction, a `goto`, or nothing; none for a line
that is none of these. A `wait` takes `polls` busy polls (log 11). -/
def lineOf (polls : Nat) (line : List Char) : Option Line :=
  let p := splitLabel (marksOf line)
  let body :=
    if p.2 = [] then some (.transactions [])
    else
      match jumpOf p.2 with
      | some j => some j
      | none => (statementOf polls p.2).map .transactions
  body.map fun b => { label := p.1, body := b }

/-- The HOST's turns of one line of text, a `wait` with `polls` busy polls (log 11). -/
def lineTurns (polls : Nat) (line : List Char) : Option (List Turn) := (lineOf polls line).map (·.body.turns)

/-- A host program: its lines, one statement on each (R97). The spec allows any number of STATUS polls at each `wait`
(95_test_vectors.md section 9). That every `wait` of the program takes the same number, `polls`, each time it is met is the
model's choice. DESIGN CHOICE (log 11), unsafe for a claim about all runs of a program text. `lineOf` reads a `wait` with
any number. -/
def programOf (polls : Nat) (text : List Char) : Option (List Line) := (text.splitOn '\n').mapM (lineOf polls)

/-- The number of the first line with a label. -/
def lineLabelled (program : List Line) (label : List Char) : Option Nat :=
  program.findIdx? fun l => l.label == some label

/-- The HOST's turns along a path through a program from a line on. Whether each condition met holds is the host's own
matter (R97), so the outcomes are given, in the order met; the path ends after the last line, at a condition with no
outcome left or at a label that is nowhere, or after `fuel` lines (log 15). -/
def pathTurns (program : List Line) : Nat → Nat → List Bool → List Turn
  | 0, _, _ => []
  | fuel + 1, k, outcomes =>
    let jumpTo (label : List Char) (os : List Bool) : List Turn :=
      match lineLabelled program label with
      | some j => pathTurns program fuel j os
      | none => []
    match program[k]?.map Line.body, outcomes with
    | none, _ => []
    | some (.transactions ts), os => ts ++ pathTurns program fuel (k + 1) os
    | some (.jump none label), os => jumpTo label os
    | some (.jump (some _) label), true :: os => jumpTo label os
    | some (.jump (some _) _), false :: os => pathTurns program fuel (k + 1) os
    | some (.jump (some _) _), [] => []

end Sys2Proof.Machine
end

