-- ==== Sys2Proof/Laws/HostText.lean ====
section
/-! SUPPORT. Host control flow (30_encoding.md R97): which turns a line adds to a path, and where the path goes on. -/

namespace Sys2Proof.Machine

@[simp] theorem Body.turns_transactions (ts : List Turn) : (Body.transactions ts).turns = ts := rfl

/-- A jump makes no transaction. -/
@[simp] theorem Body.turns_jump (condition : Option (List (List Mark))) (label : List Char) :
    (Body.jump condition label).turns = [] := rfl

/-- The turns of a line are those of its body. -/
theorem lineTurns_of_lineOf {polls : Nat} {text : List Char} {l : Line} (h : lineOf polls text = some l) :
    lineTurns polls text = some l.body.turns := by
  rw [lineTurns, h, Option.map_some]

section Path

variable {program : List Line} {k : Nat} {name : Option (List Char)} (fuel : Nat) (outcomes : List Bool)

/-- A path ends after the last line. -/
theorem pathTurns_end (h : program[k]? = none) : pathTurns program (fuel + 1) k outcomes = [] := by
  simp [pathTurns, h]

/-- Transactions are made, and the path goes on with the next line. -/
theorem pathTurns_transactions {ts : List Turn} (h : program[k]? = some ⟨name, .transactions ts⟩) :
    pathTurns program (fuel + 1) k outcomes = ts ++ pathTurns program fuel (k + 1) outcomes := by
  simp [pathTurns, h]

/-- A `goto` goes on at its label. -/
theorem pathTurns_goto {label : List Char} {j : Nat} (h : program[k]? = some ⟨name, .jump none label⟩)
    (hj : lineLabelled program label = some j) :
    pathTurns program (fuel + 1) k outcomes = pathTurns program fuel j outcomes := by
  simp [pathTurns, h, hj]

/-- An `if … goto` whose condition holds goes on at its label. -/
theorem pathTurns_taken {condition : List (List Mark)} {label : List Char} {j : Nat}
    (h : program[k]? = some ⟨name, .jump (some condition) label⟩) (hj : lineLabelled program label = some j) :
    pathTurns program (fuel + 1) k (true :: outcomes) = pathTurns program fuel j outcomes := by
  simp [pathTurns, h, hj]

/-- An `if … goto` whose condition does not hold goes on with the next line. -/
theorem pathTurns_notTaken {condition : List (List Mark)} {label : List Char}
    (h : program[k]? = some ⟨name, .jump (some condition) label⟩) :
    pathTurns program (fuel + 1) k (false :: outcomes) = pathTurns program fuel (k + 1) outcomes := by
  simp [pathTurns, h]

end Path

end Sys2Proof.Machine
end

