-- ==== Sys2Proof/Laws/PerInstr.lean ====
section
/-! SUPPORT. Statements about every command as syntax, one lemma per constructor (30_encoding.md R90, R94). -/

namespace Sys2Proof.Laws.Encoding

/-- The command is well formed, its word has RSV = 0 and its own OP, is a legal command word, and decodes to it. -/
def Statement (i : Instr) : Prop :=
  i.wf = true ∧ rsvField (encode i) = 0#24 ∧ opField (encode i) = opcode i ∧ CommandWord.wf (encode i) = true ∧
    decode (encode i) = .ok i

theorem compress : Statement .compress := by unfold Statement; decide

theorem decompress : Statement .decompress := by unfold Statement; decide

theorem checkTable : Statement .checkTable := by unfold Statement; decide

theorem clear : Statement .clear := by unfold Statement; decide

end Sys2Proof.Laws.Encoding
end

