-- ==== Sys2Proof/Tests/Slice0.lean ====
section
/-! SUPPORT. Tests, their expected results taken from the spec's encodings and vectors (30_encoding.md R90 to R98,
95_test_vectors.md), and for each statement with hypotheses a witness that meets them. -/

namespace Sys2Proof.Tests

open Sys2Proof.Machine

set_option maxRecDepth 100000

/-! ### Helpers -/

/-- ASCII letters. -/
def a : Symbol := 0x61#8
/-- ASCII `b`. -/
def b : Symbol := 0x62#8
/-- ASCII `c`. -/
def c : Symbol := 0x63#8

/-- The bits of a string of `0` and `1`. -/
def bits (cs : List Nat) : BitStr := cs.map (· == 1)

/-- The reset state with moves to come. -/
def started (turns : List Turn) : State := { State.reset with turns := turns }

/-- A command word issued from reset. -/
def issued (v : Word) (turns : List Turn) : State := { State.reset.issue v with turns := turns }

/-- An input stream loaded. -/
def loaded (xs : List Symbol) : State := { State.reset with ibuf := Memory.setFrom [] 0 xs, iLen := xs.length }

/-- A table of codes loaded, FREQ 0. -/
def table (cs : List (Symbol × BitStr)) : State :=
  cs.foldl (fun s p => { s with
    ct := s.ct.set p.1.toNat { valid := true, len := BitVec.ofNat 8 p.2.length, freq := 0#32, code := packCode p.2 }
      p.1.isLt }) State.reset

/-- A table and payload characters loaded. -/
def coded (cs : List (Symbol × BitStr)) (chars : List Byte) : State :=
  { table cs with pbuf := Memory.setFrom [] 0 chars, pLen := chars.length }

/-- What a state that an outcome goes on to shows. -/
def shows {α : Type} (o : Host.Outcome State Fault Refusal) (f : State → α) : Option α :=
  match o with
  | .next t => some (f t)
  | _ => none

/-- "aabbbcc" (CP2). -/
def aabbbcc : List Symbol := [a, a, b, b, b, c, c]

/-- T7, the codes CP2 leaves. -/
def t7 : List (Symbol × BitStr) := [(a, [true, false]), (b, [false]), (c, [true, true])]

/-- The characters of "10100001111". -/
def payload7 : List Byte := (bits [1, 0, 1, 0, 0, 0, 0, 1, 1, 1, 1]).map bitChar

/-! ### Well-formedness refuses ill-formed terms -/

theorem test_wf_commands : Instr.compress.wf && Instr.decompress.wf && Instr.checkTable.wf && Instr.clear.wf = true := by
  decide
theorem test_wf_word_legal : CommandWord.wf 0x00000004#32 = true := by decide
theorem test_wf_word_reserved : CommandWord.wf 0x00000101#32 = false := by decide
theorem test_wf_word_zero : CommandWord.wf 0x00000000#32 = false := by decide
theorem test_wf_word_unassigned : CommandWord.wf 0x00000005#32 = false := by decide
theorem test_wf_imax_low : Config.wfIMax 0 = false := by decide
theorem test_wf_imax_high : Config.wfIMax (2 ^ 27 + 1) = false := by decide
theorem test_wf_imax_bounds : Config.wfIMax 1 && Config.wfIMax (2 ^ 27) = true := by decide
theorem test_wf_loadi : Pseudo.wfLoadi 2 [a, b, c] = false := by decide
theorem test_wf_loadp : Pseudo.wfLoadp 1 (List.replicate 9 true) = false := by decide
theorem test_wf_setcode : Pseudo.wfCode (List.replicate 256 true) = false := by decide

/-! ### Decoding: words written bit by bit, RSV [31:8] and OP [7:0] (R90, R94) -/

theorem test_decode_compress : decode 0b00000000000000000000000000000001#32 = .ok .compress := by decide
theorem test_decode_decompress : decode 0b00000000000000000000000000000010#32 = .ok .decompress := by decide
theorem test_decode_check_table : decode 0b00000000000000000000000000000011#32 = .ok .checkTable := by decide
theorem test_decode_clear : decode 0b00000000000000000000000000000100#32 = .ok .clear := by decide
theorem test_decode_reserved_bit : decode 0b00000000000000000000000100000001#32 = .error .reservedNonzero := by decide
theorem test_decode_top_bit : decode 0b10000000000000000000000000000010#32 = .error .reservedNonzero := by decide
theorem test_decode_zero : decode 0b00000000000000000000000000000000#32 = .error .opcodeZero := by decide
theorem test_decode_five : decode 0b00000000000000000000000000000101#32 = .error .opcodeUnassigned := by decide
theorem test_decode_table_word : decodeTableWord 32 2 = some .decompress ∧ decodeTableWord 32 0x101 = none := by decide

/-! ### Commands (95_test_vectors.md sections 3 to 7) -/

theorem test_compress_cp2 :
    shows (exec .compress (loaded aabbbcc)) (fun t => (t.payload, [t.errInfo, t.origBits, t.compBits, t.ratio])) =
      some (payload7, [0#32, 56#32, 11#32, 0x00051745#32]) := by decide +kernel

theorem test_compress_cp2_table :
    shows (exec .compress (loaded aabbbcc)) (fun t =>
      [0x610, 0x611, 0x612, 0x620, 0x621, 0x622, 0x630, 0x631, 0x632, 0x613, 0x640].map (t.readWord 4#3)) =
      some [0x80000002#32, 2#32, 1#32, 0x80000001#32, 3#32, 0#32, 0x80000002#32, 2#32, 3#32, 0#32, 0#32] := by
  decide +kernel

/-- The tree and the codes of R121. -/
theorem test_build_tree_r121 :
    (buildTree (countFreq aabbbcc)).map (fun T => (T, [a, b, c].map (genCodes T).at)) =
      some (⟨[.leaf a 2, .leaf b 3, .leaf c 2, .internal 4 0 2, .internal 7 1 3], 4⟩,
        [some [true, false], some [false], some [true, true]]) := by decide +kernel

theorem test_decompress_dp1 :
    shows (exec .decompress (coded t7 payload7)) (fun t => (t.err, t.oLen, (List.range 7).map t.readOBUF)) =
      some (0#4, 7, aabbbcc) := by decide +kernel

theorem test_decompress_dp3 :
    shows (exec .decompress (coded [(a, [false]), (b, [true, false])] [0x31#8, 0x30#8, 0x31#8, 0x31#8]))
      (fun t => (t.err, t.errInfo, t.oLen)) = some (7#4, 2#32, 0) := by decide +kernel

theorem test_check_table_tc3 :
    shows (exec .checkTable (table [(a, [false]), (b, [false, true])])) (fun t => (t.err, t.errInfo)) =
      some (6#4, 0x00006261#32) := by decide +kernel

theorem test_check_table_tc6 :
    shows (exec .checkTable (table [(a, [false]), (b, [false, true]), (c, [false, true])])) (fun t => (t.err, t.errInfo)) =
      some (5#4, 0x00006362#32) := by decide +kernel

theorem test_clear_cl1 :
    shows (exec .clear { coded t7 payload7 with ie := true, ignwr := true })
      (fun t => (t.statusWord, t.pLen, t.readWord 4#3 0x610, (List.range 11).map t.readPBUF, t.irq)) =
      some (0x00000006#32, 0, 0#32, payload7, true) := by decide +kernel

theorem test_illegal_il4 :
    shows (step (issued 0x00000101#32 [.core])) (fun t => (t.statusWord, t.errInfo)) =
      some (0x00000802#32, 0x00000101#32) := by decide

/-! ### The host port (95_test_vectors.md section 8) -/

theorem test_write_ilen_while_busy_hi10 :
    shows (step (issued 1#32 [wr 0#3 7#32 3#32])) (fun t => (t.statusWord, t.iLen)) = some (0x00000005#32, 0) := by decide

theorem test_ct_meta_hi7 :
    shows (step (started [wr 4#3 0x610#32 0xFFFFFFFF#32])) (fun t => t.readWord 4#3 0x610) = some 0x800000FF#32 := by
  decide +kernel

theorem test_ibuf_byte_hi6 :
    shows (step (started [wr 1#3 0#32 0x12345661#32])) (fun t => t.readWord 1#3 0) = some 0x00000061#32 := by
  decide

/-- P3's `setcode 'b', "10", 0` writes META 0x80000002 and CODE word 0 = 1 (section 9). -/
theorem test_setcode_p3 :
    (Pseudo.setcode b [true, false] 0#32).turns.take 3 =
      [wr 4#3 0x620#32 0x80000002#32, wr 4#3 0x621#32 0#32, wr 4#3 0x622#32 1#32] := by decide

/-- The record of P1's load of 'b' and its statement in host assembly. -/
theorem test_record_line :
    (BusRecord.mk .w 1#3 2#32 0x62#32).line = "W 1 00000002 00000062".toList ∧
    lineTurns 0 "wr IBUF[2], 0x62 ; load".toList = some [wr 1#3 2#32 0x62#32] := by decide +kernel

/-- Quoted characters that are punctuation outside quotes (R97: a comma, a semicolon and a bracket by their ASCII values). -/
theorem test_line_quoted_punctuation :
    lineTurns 0 "wr IBUF[','], 1".toList = some [wr 1#3 0x2C#32 1#32] ∧
    lineTurns 0 "wr IBUF[0], ';' ; load".toList = some [wr 1#3 0#32 0x3B#32] ∧
    lineTurns 0 "rd IBUF[']'] -> ':'".toList = some [rd 1#3 0x5D#32] ∧
    lineTurns 0 "wr FOO[0], 1".toList = none := by decide +kernel

/-- P1's labelled statement and its condition, and P3's labels and jumps (section 9). -/
theorem test_line_labels :
    lineOf 0 "w1:     rd REG.STATUS".toList = some ⟨some "w1".toList, .transactions [rd 0#3 5#32]⟩ ∧
    lineOf 0 "        if bit 0 = 1 goto w1              ; reads 0x00000002".toList =
      some ⟨none, .jump (some [spelled "bit", spelled "0", spelled "=", spelled "1"]) "w1".toList⟩ ∧
    lineOf 0 "try:    cmd DECOMPRESS".toList = some ⟨some "try".toList, .transactions [wr 0#3 4#32 2#32]⟩ ∧
    lineOf 0 "        goto try".toList = some ⟨none, .jump none "try".toList⟩ := by decide +kernel

/-- P1's lists of reads and P3's pseudo-instructions as text (section 9). -/
theorem test_line_short_forms :
    lineTurns 0 "rd PBUF[0] ... rd PBUF[2]        ; three".toList = some [rd 2#3 0#32, rd 2#3 1#32, rd 2#3 2#32] ∧
    lineTurns 0 "rd CT[0x610], CT[0x611], CT[0x612] ; 'a'".toList = some [rd 4#3 0x610#32, rd 4#3 0x611#32, rd 4#3 0x612#32] ∧
    lineTurns 0 "loadp \"10\"".toList = some [wr 2#3 0#32 0x31#32, wr 2#3 1#32 0x30#32, wr 0#3 8#32 2#32] ∧
    lineTurns 0 "setcode 'b', \"10\", 0".toList = some (Pseudo.setcode b [true, false] 0#32).turns := by decide +kernel

/-- A poll loop as in P1, left at its second pass. -/
theorem test_path_poll_loop :
    (programOf 0 "cmd CLEAR\nw1: rd REG.STATUS\nif bit 0 = 1 goto w1\nrd REG.ERRINFO -> 0".toList).map
        (fun p => pathTurns p 10 0 [true, false]) =
      some [wr 0#3 4#32 4#32, rd 0#3 5#32, rd 0#3 5#32, rd 0#3 6#32] := by decide +kernel

/-! ### Witnesses: states that meet the hypotheses of the statements -/

theorem witness_StepRunsTheDecodedCommand :
    (∃ s : State, s.busy = true ∧ s.rst = false ∧ decode s.pend = .ok .compress ∧ s.turns = []) ∧
    ∃ (s : State) (rest : List Turn), s.busy = true ∧ s.rst = false ∧ decode s.pend = .ok .clear ∧ s.turns = .core :: rest :=
  ⟨⟨issued 1#32 [], by decide⟩, issued 4#32 [.core], [], by decide⟩

theorem witness_IllegalWordCompletesWithItsError :
    (∃ s : State, s.busy = true ∧ s.rst = false ∧ s.turns = [.core] ∧ s.pend.extractLsb' 8 24 ≠ 0#24) ∧
    (∃ s : State, s.busy = true ∧ s.rst = false ∧ s.turns = [.core] ∧ s.pend.extractLsb' 0 8 = 0#8) ∧
    ∃ s : State, s.busy = true ∧ s.rst = false ∧ s.turns = [.core] ∧ s.pend.extractLsb' 0 8 = 5#8 :=
  ⟨⟨issued 0x101#32 [.core], by decide⟩, ⟨issued 0#32 [.core], by decide⟩, issued 5#32 [.core], by decide⟩

theorem witness_CmdWriteIssuesTheCommand :
    (∃ s : State, s.rst = false ∧ s.turns = [.bus (.write 0#3 4#32 0xFFFFFFFF#32)] ∧ s.busy = false) ∧
    ∃ s : State, s.rst = false ∧ s.turns = [.bus (.write 0#3 4#32 0#32)] ∧ s.busy = true :=
  ⟨⟨started [wr 0#3 4#32 0xFFFFFFFF#32], by decide⟩, issued 1#32 [wr 0#3 4#32 0#32], by decide⟩

theorem witness_IdleCoreKeepsAllState :
    (∃ s : State, s.busy = false ∧ s.turns = []) ∧ ∃ s : State, s.busy = false ∧ s.turns = [.core] :=
  ⟨⟨started [], by decide⟩, started [.core], by decide⟩

theorem witness_CompressOfEmptyInputFails : ∃ s : State, s.iLen = 0 := ⟨State.reset, rfl⟩

/-- For every statement that assumes ILEN ≠ 0, with ILEN ≤ 2^27 or not: both ends of the range. -/
theorem witness_nonempty_input :
    (∃ s : State, s.iLen ≠ 0 ∧ s.iLen = 1) ∧ ∃ s : State, s.iLen ≠ 0 ∧ s.iLen = 2 ^ 27 ∧ s.iLen ≤ 2 ^ 27 :=
  ⟨⟨loaded [a], by decide⟩, { State.resetWith (2 ^ 27) with iLen := 2 ^ 27 }, by decide⟩

/-- The symbols 0x00 to 0xFF once each (CP10). -/
def all256 : State := { State.resetWith 256 with
  ibuf := (List.range 256).map fun k => (k, BitVec.ofNat 8 k), iLen := 256 }

theorem inputStream_all256 : all256.inputStream = allSymbols := by decide +kernel

theorem order_all256 : (countFreq allSymbols).order.length = 256 := by
  have hn : allSymbols.Nodup := allSymbols_sorted.imp (by rintro x y h rfl; exact BitVec.lt_irrefl _ h)
  have hp : (countFreq allSymbols).order.Perm allSymbols :=
    (List.perm_ext_iff_of_nodup (countFreq_order_nodup _) hn).2 (by simp)
  rw [hp.length_eq]; simp [allSymbols, Config.nSym]

/-- CP10: 2048 bits, the largest size 256 symbols can have. -/
theorem test_compress_cp10 : (encodeBits (codesOf all256.inputStream) all256.inputStream).length = 2048 := by
  have hl : all256.inputStream.length = 256 := by simp [all256]
  have ho : (countFreq all256.inputStream).order.length = 256 := by
    rw [inputStream_all256, order_all256]
  have h₁ := encodeBits_length_le all256.inputStream
  have h₂ := encodeBits_length_ge_order all256.inputStream (by omega) 8
  rw [ho] at h₂
  omega

theorem witness_RatioIsTheRoundedQuotientInItsRange :
    (∃ s t : State, s.iLen ≠ 0 ∧ s.iLen ≤ 2 ^ 27 ∧ exec .compress s = .next t ∧ t.compBits.toNat = 8 * s.iLen) ∧
    ∃ s t : State, s.iLen ≠ 0 ∧ s.iLen ≤ 2 ^ 27 ∧ exec .compress s = .next t ∧ t.compBits.toNat = s.iLen := by
  refine ⟨⟨all256, (all256.compressOutputs all256.inputStream).succeed, by decide, by decide, ?_, ?_⟩,
    loaded [a], ((loaded [a]).compressOutputs (loaded [a]).inputStream).succeed, by decide, by decide, ?_, ?_⟩
  · rw [exec_compress, if_neg (by decide)]
  · show (BitVec.ofNat 32 (encodeBits (codesOf all256.inputStream) all256.inputStream).length).toNat = 8 * 256
    rw [test_compress_cp10]; decide
  · rw [exec_compress, if_neg (by decide)]
  · decide +kernel

theorem witness_GeneratedCodesArePrefixFree :
    (∃ xs T x p, xs ≠ [] ∧ buildTree (countFreq xs) = some T ∧ (genCodes T).at x = some p ∧
      (countFreq xs).order.length = 1) ∧
    ∃ xs T x y p q, xs ≠ [] ∧ buildTree (countFreq xs) = some T ∧ (countFreq xs).order.length = 2 ∧
      (genCodes T).at x = some p ∧ (genCodes T).at y = some q ∧ x ≠ y :=
  ⟨⟨[a], ⟨[.leaf a 1], 0⟩, a, [false], by decide +kernel⟩,
   [a, b], ⟨[.leaf a 1, .leaf b 1, .internal 2 0 1], 2⟩, a, b, [false], [true], by decide +kernel⟩

theorem witness_DecompressAfterCompressRestoresTheInput :
    ∃ (s : State) (reads₁ reads₂ reads₃ : List (Space × Word)) (rest : List Turn),
      s.busy = false ∧ s.rst = false ∧ s.iLen = 1 ∧
      s.turns = wr 0#3 4#32 0x00000001#32 :: reads₁.map (fun x => rd x.1 x.2) ++ .core ::
        reads₂.map (fun x => rd x.1 x.2) ++ wr 0#3 4#32 0x00000002#32 :: reads₃.map (fun x => rd x.1 x.2) ++ .core :: rest :=
  ⟨{ loaded [a] with turns :=
      [wr 0#3 4#32 1#32, rd 0#3 5#32, .core, rd 0#3 8#32, rd 2#3 0#32, wr 0#3 4#32 2#32, .core, rd 0#3 9#32] },
   [(0#3, 5#32)], [(0#3, 8#32), (2#3, 0#32)], [], [rd 0#3 9#32], by decide⟩

theorem witness_CompressDependsOnTheInputAlone :
    ∃ s s' : State, s.iLen ≠ 0 ∧ s.inputStream = s'.inputStream ∧ s.pLen ≠ s'.pLen ∧ s.ie ≠ s'.ie :=
  ⟨loaded [a, b], { loaded [a, b] with pLen := 5, ie := true }, by decide +kernel⟩

theorem witness_RepeatedSymbolCompressesToOneBitEach :
    (∃ s : State, s.iLen = 1 ∧ ∀ i < s.iLen, s.readIBUF i = a) ∧
    ∃ s : State, s.iLen ≠ 0 ∧ s.iLen ≤ 2 ^ 27 ∧ ∀ i < s.iLen, s.readIBUF i = 0xFF#8 :=
  ⟨⟨loaded [a], by decide +kernel⟩, loaded (List.replicate 16 0xFF#8), by decide +kernel⟩

theorem witness_BuiltTreeHasTheShapeOfAHuffmanTree :
    (∃ xs : List Symbol, (countFreq xs).order.length = 2) ∧ ∃ xs : List Symbol, (countFreq xs).order.length = 256 :=
  ⟨⟨[a, b], by decide +kernel⟩, allSymbols, order_all256⟩

theorem witness_EachMergeTakesTheTwoLeastNodes :
    (∃ active : List Nat, active.Nodup ∧ 2 ≤ active.length ∧ active.length = 2) ∧
    ∃ active : List Nat, active.Nodup ∧ 2 ≤ active.length ∧ active.length = 3 :=
  ⟨⟨[1, 0], by decide⟩, [0, 1, 2], by decide⟩

theorem witness_ResortedListMergesAsSelectionDoes :
    ∃ (nodes : Arena) (active : List Nat), active.Pairwise (· < ·) ∧ (∀ k ∈ active, k < nodes.length) ∧ active = [0, 1, 2] :=
  ⟨[.leaf a 2, .leaf b 2, .leaf c 1], [0, 1, 2], by decide⟩

theorem witness_DecompressChecksItsPreconditionsInOrder :
    (∃ s : State, s.pLen = 0) ∧ (∃ s : State, s.pLen ≠ 0 ∧ ∀ x, (s.entry x).valid = false) ∧
    (∃ s : State, s.pLen ≠ 0 ∧ (∃ x, (s.entry x).valid = true) ∧ 0 < s.pLen ∧ s.readPBUF 0 ≠ 0x30#8 ∧
      s.readPBUF 0 ≠ 0x31#8 ∧ ∀ j < 0, s.readPBUF j = 0x30#8 ∨ s.readPBUF j = 0x31#8) ∧
    ∃ s : State, s.pLen = 3 ∧ (∃ x, (s.entry x).valid = true) ∧ s.readPBUF 2 ≠ 0x30#8 ∧
      s.readPBUF 2 ≠ 0x31#8 ∧ ∀ j < 2, s.readPBUF j = 0x30#8 ∨ s.readPBUF j = 0x31#8 :=
  ⟨⟨State.reset, rfl⟩, ⟨coded [] [0x30#8], by decide +kernel⟩,
   ⟨coded [(a, [false])] [0x00#8], by decide +kernel, ⟨a, by decide +kernel⟩, by decide +kernel⟩,
   coded t7 [0x30#8, 0x31#8, 0x32#8], by decide +kernel, ⟨a, by decide +kernel⟩, by decide +kernel⟩

/-- A table of two symbols: its symbols and codes. -/
theorem tableSymbols_pair : (coded [(0x00#8, [false, true]), (0xFF#8, [false, true])] [0x30#8]).tableSymbols = [0x00#8, 0xFF#8] ∧
    (coded [(0x00#8, [false, true]), (0xFF#8, [false])] [0x31#8]).tableSymbols = [0x00#8, 0xFF#8] := by decide +kernel

theorem witness_TableFaultsReportTheSmallestPair :
    (∃ (s : State) (x y : Symbol), LeastPair (DuplicatePair s.tableSymbols s.codeOf) x y ∧ s.pLen ≠ 0 ∧ s.PayloadBinary) ∧
    ∃ (s : State) (x y : Symbol), (∀ u v, ¬ DuplicatePair s.tableSymbols s.codeOf u v) ∧
      LeastPair (PrefixPair s.tableSymbols s.codeOf) x y ∧ s.pLen ≠ 0 ∧ s.PayloadBinary := by
  have two : ∀ z : Symbol, z ∈ [(0x00#8 : Symbol), 0xFF#8] ↔ z = 0x00#8 ∨ z = 0xFF#8 := by simp
  refine ⟨⟨coded [(0x00#8, [false, true]), (0xFF#8, [false, true])] [0x30#8], 0x00#8, 0xFF#8, ⟨⟨?_, ?_, by decide, ?_⟩, ?_⟩, by decide +kernel, ?_⟩,
    coded [(0x00#8, [false, true]), (0xFF#8, [false])] [0x31#8], 0xFF#8, 0x00#8, ?_, ⟨⟨?_, ?_, by decide, ?_, ?_⟩, ?_⟩, by decide +kernel, ?_⟩
  · rw [tableSymbols_pair.1]; decide
  · rw [tableSymbols_pair.1]; decide
  · decide +kernel
  · rintro x y ⟨hx, hy, hlt, -⟩
    rw [tableSymbols_pair.1, two] at hx hy
    rcases hx with rfl | rfl <;> rcases hy with rfl | rfl <;> revert hlt <;> decide
  · rw [State.PayloadBinary]; decide +kernel
  · rintro x y ⟨hx, hy, hlt, hc⟩
    rw [tableSymbols_pair.2, two] at hx hy
    rcases hx with rfl | rfl <;> rcases hy with rfl | rfl <;> revert hlt hc <;> decide +kernel
  · rw [tableSymbols_pair.2]; decide
  · rw [tableSymbols_pair.2]; decide
  · decide +kernel
  · decide +kernel
  · rintro x y ⟨hx, hy, hne, hp, -⟩
    rw [tableSymbols_pair.2, two] at hx hy
    rcases hx with rfl | rfl <;> rcases hy with rfl | rfl <;> revert hne hp <;> decide +kernel
  · rw [State.PayloadBinary]; decide +kernel

/-- The table {a: "0", b: "10"} of DP3 and DP18, with a payload. -/
def ab (chars : List Byte) : State := coded [(a, [false]), (b, [true, false])] chars

theorem tableSymbols_ab (chars : List Byte) : (ab chars).tableSymbols = [a, b] := by
  have h : (table [(a, [false]), (b, [true, false])]).tableSymbols = [a, b] := by decide +kernel
  exact h

theorem codeOf_ab (chars : List Byte) : (ab chars).codeOf a = [false] ∧ (ab chars).codeOf b = [true, false] := by
  have h : (table [(a, [false]), (b, [true, false])]).codeOf a = [false] ∧
    (table [(a, [false]), (b, [true, false])]).codeOf b = [true, false] := by decide +kernel
  exact h

theorem prefixFree_ab (chars : List Byte) : PrefixFree (ab chars).tableSymbols (ab chars).codeOf := by
  rw [tableSymbols_ab, PrefixFree]; simp [codeOf_ab]

/-- The payloads "0" and "01" split without and with a fragment. -/
theorem splits_ab (chars : List Byte) :
    SplitsInto (ab chars).tableSymbols (ab chars).codeOf [false] [a] [] ∧
    SplitsInto (ab chars).tableSymbols (ab chars).codeOf [false, true] [a] [true] := by
  obtain ⟨h₁, h₂⟩ := codeOf_ab chars
  rw [tableSymbols_ab]
  refine ⟨⟨by simp [h₁], by simp [h₁], fun p hp hne => absurd (List.prefix_nil.1 hp) hne⟩,
    by simp [h₁], by simp [h₁], fun p hp hne x hx hc => ?_⟩
  have := hp.length_le
  rcases List.mem_pair.1 hx with rfl | rfl
  · rw [h₁] at hc; subst hc; revert hp; decide
  · rw [h₂] at hc; subst hc; revert this; decide

theorem witness_DecompressEmitsTheSymbolsOrReportsTheFragment :
    (∃ s : State, s.tableSymbols ≠ [] ∧ PrefixFree s.tableSymbols s.codeOf ∧ s.pLen ≠ 0 ∧ s.PayloadBinary) ∧
    ∀ tail ∈ [[], [true]], ∃ (s : State) (bits : BitStr) (xs : List Symbol), s.tableSymbols ≠ [] ∧
      PrefixFree s.tableSymbols s.codeOf ∧ s.pLen ≠ 0 ∧ s.PayloadIs bits ∧
      SplitsInto s.tableSymbols s.codeOf bits xs tail := by
  have h : ∀ chars, (ab chars).tableSymbols ≠ [] := fun chars => by rw [tableSymbols_ab]; decide
  refine ⟨⟨ab [0x30#8], h _, prefixFree_ab _, by decide +kernel, ?_⟩, fun tail ht => ?_⟩
  · rw [State.PayloadBinary]; decide +kernel
  · simp only [List.mem_cons, List.not_mem_nil, or_false] at ht
    rcases ht with rfl | rfl
    · exact ⟨ab [0x30#8], [false], [a], h _, prefixFree_ab _, by decide +kernel,
        by rw [State.PayloadIs]; decide +kernel, (splits_ab _).1⟩
    · exact ⟨ab [0x30#8, 0x31#8], [false, true], [a], h _, prefixFree_ab _, by decide +kernel,
        by rw [State.PayloadIs]; decide +kernel, (splits_ab _).2⟩

theorem witness_DecompressWritesOnlyItsOutput :
    (∃ s t : State, exec .decompress s = .next t ∧ t.err ≠ 0#4) ∧
    ∃ s t : State, exec .decompress s = .next t ∧ t.err = 0#4 :=
  ⟨⟨State.reset, _, exec_decompress_error (e := .emptyPayload) rfl, by decide⟩,
   ab [0x30#8], _, exec_decompress_ok (out := [a]) (by decide +kernel), rfl⟩

/-- Two tables that differ in FREQ and in a CODE bit at LEN. -/
theorem witness_DecodersReadOnlyTheCodesOfValidEntries :
    ∃ s s' : State, s.payload = s'.payload ∧ (∀ x, (s.entry x).valid = (s'.entry x).valid) ∧
      (∀ x, (s.entry x).valid = true → (s.entry x).len = (s'.entry x).len ∧
        ∀ k < (s.entry x).len.toNat, (s.entry x).code.getLsbD k = (s'.entry x).code.getLsbD k) ∧ s.entry a ≠ s'.entry a := by
  refine ⟨{ State.reset with ct := State.reset.ct.set a.toNat ⟨true, 1#8, 0#32, 0#256⟩ a.isLt },
    { State.reset with ct := State.reset.ct.set a.toNat ⟨true, 1#8, 7#32, 2#256⟩ a.isLt }, rfl, ?_, ?_, ?_⟩
  · intro x
    rw [entry_set, entry_set]; split <;> rfl
  · intro x
    rw [entry_set, entry_set]; split
    · decide
    · exact fun _ => ⟨rfl, fun _ _ => rfl⟩
  · rw [entry_set, entry_set]; decide

theorem checkTable_reset : State.reset.checkTable = some .emptyTable := by decide +kernel

theorem witness_TrieDecoderHasTheSameResult :
    (∃ (T : List Symbol) (code : Symbol → BitStr), tableCheck T code = none ∧ T.length = 2) ∧
    ∃ (T : List Symbol) (code : Symbol → BitStr), tableCheck T code = none ∧ T = [a] ∧ code a = [] :=
  ⟨⟨[a, b], fun x => if x = a then [false] else [true, false], by decide⟩, [a], fun _ => [], by decide⟩

theorem witness_CheckTableDecidesPrefixFreedom :
    (∃ s : State, s.tableSymbols = []) ∧ (∃ s : State, s.tableSymbols ≠ [] ∧ PrefixFree s.tableSymbols s.codeOf) ∧
    ∃ s : State, ¬ PrefixFree s.tableSymbols s.codeOf := by
  refine ⟨⟨State.reset, by decide +kernel⟩, ⟨ab [0x30#8], ?_, ?_⟩,
    coded [(0x00#8, [false, true]), (0xFF#8, [false])] [0x31#8], fun h => ?_⟩
  · rw [tableSymbols_ab]; decide
  · rw [tableSymbols_ab, PrefixFree]
    simp [codeOf_ab]
  · rw [tableSymbols_pair.2] at h
    exact absurd (h 0xFF#8 (by decide) 0x00#8 (by decide) (by decide +kernel)) (by decide)

theorem witness_CheckTableForetellsDecompress :
    (∃ s t : State, s.pLen ≠ 0 ∧ s.PayloadBinary ∧ exec .checkTable s = .next t ∧ t.err ≠ 0#4) ∧
    ∃ s t : State, s.pLen ≠ 0 ∧ s.PayloadBinary ∧ exec .checkTable s = .next t ∧ t.err = 0#4 := by
  refine ⟨⟨coded [] [0x30#8], _, by decide, ?_, exec_checkTable_error (e := .emptyTable) checkTable_reset, by decide⟩,
    ab [0x30#8], _, by decide +kernel, ?_, exec_checkTable_ok (by decide +kernel), rfl⟩ <;>
  · rw [State.PayloadBinary]; decide +kernel

theorem witness_FailedCommandWritesOnlyStatus :
    (∃ s t : State, exec .compress s = .next t ∧ t.err ≠ 0#4) ∧ (∃ s t : State, exec .decompress s = .next t ∧ t.err ≠ 0#4) ∧
    ∃ s t : State, exec .checkTable s = .next t ∧ t.err ≠ 0#4 :=
  ⟨⟨State.reset, State.reset.raise .emptyInput, rfl, by decide⟩,
   ⟨State.reset, _, exec_decompress_error (e := .emptyPayload) rfl, by decide⟩,
   State.reset, _, exec_checkTable_error checkTable_reset, by decide⟩

theorem witness_CommandsReportOnlyTheirOwnErrors :
    ∃ s : State, (∃ t, exec .compress s = .next t) ∧ (∃ t, exec .decompress s = .next t) ∧
      (∃ t, exec .checkTable s = .next t) ∧ ∃ t, exec .clear s = .next t :=
  ⟨State.reset, ⟨State.reset.raise .emptyInput, rfl⟩, ⟨_, exec_decompress_error (e := .emptyPayload) rfl⟩,
   ⟨_, exec_checkTable_error checkTable_reset⟩, _, exec_clear _⟩

theorem witness_BusyCoreCompletesAfterAnyHostTurns :
    ∃ (s : State) (ops : List BusOp) (rest : List Turn), s.busy = true ∧ s.rst = false ∧
      s.turns = ops.map Turn.bus ++ .core :: rest ∧ ops.length = 2 :=
  ⟨issued 0xFF#32 [wr 0#3 4#32 4#32, rd 0#3 5#32, .core], [.write 0#3 4#32 4#32, .read 0#3 5#32], [], by decide⟩

theorem witness_LengthWritesKeepTheLegalRange :
    ∃ s₁ s₂ s₃ s₄ : State, (s₁.busy = false ∧ s₁.rst = false ∧ s₁.turns = [.bus (.write 0#3 7#32 16#32)] ∧ s₁.iMax = 16) ∧
      (s₂.busy = false ∧ s₂.rst = false ∧ s₂.turns = [.bus (.write 0#3 7#32 17#32)] ∧ s₂.iMax = 16) ∧
      (s₃.busy = false ∧ s₃.rst = false ∧ s₃.turns = [.bus (.write 0#3 8#32 128#32)] ∧ s₃.iMax = 16) ∧
      (s₄.busy = false ∧ s₄.rst = false ∧ s₄.turns = [.bus (.write 0#3 8#32 129#32)] ∧ s₄.iMax = 16) :=
  ⟨started [wr 0#3 7#32 16#32], started [wr 0#3 7#32 17#32], started [wr 0#3 8#32 128#32], started [wr 0#3 8#32 129#32],
   by decide⟩

theorem witness_ControlAndStatusWritesAreAlwaysPerformed :
    (∃ s : State, s.rst = false ∧ s.busy = true ∧ s.turns = [.bus (.write 0#3 3#32 0xFFFFFFFF#32)]) ∧
    ∃ s : State, s.rst = false ∧ s.busy = true ∧ s.turns = [.bus (.write 0#3 5#32 6#32)] :=
  ⟨⟨issued 1#32 [wr 0#3 3#32 0xFFFFFFFF#32], by decide⟩, issued 1#32 [wr 0#3 5#32 6#32], by decide⟩

/-- The hypotheses about a busy CORE and a write, with the locations at the boundaries of `locked`: CMD, IBUF[15],
PBUF[127], CT word 9 of the last entry are in it; ERRINFO, IBUF[16], PBUF[128], OBUF[0], CT word 10 are not. -/
theorem witness_BusyWritesAreDropped :
    (∀ l ∈ [((0#3 : Space), (4#32 : Word)), (0#3, 7#32), (0#3, 8#32), (1#3, 15#32), (2#3, 127#32), (4#3, 4089#32)],
      ∃ (s : State) (v : Word), s.busy = true ∧ s.rst = false ∧ s.turns = [.bus (.write l.1 l.2 v)] ∧
        ((l.1 = 0#3 ∧ (l.2 = 4#32 ∨ l.2 = 7#32 ∨ l.2 = 8#32)) ∨ (l.1 = 1#3 ∧ l.2.toNat < s.iMax) ∨
          (l.1 = 2#3 ∧ l.2.toNat < 8 * s.iMax) ∨ (l.1 = 4#3 ∧ l.2.toNat < 4096 ∧ l.2.toNat % 16 < 10))) ∧
    ∀ l ∈ [((0#3 : Space), (6#32 : Word)), (1#3, 16#32), (2#3, 128#32), (3#3, 0#32), (4#3, 4090#32), (4#3, 4096#32)],
      ∃ (s : State) (v : Word), s.busy = true ∧ s.rst = false ∧ s.turns = [.bus (.write l.1 l.2 v)] ∧
        ¬ ((l.1 = 0#3 ∧ (l.2 = 4#32 ∨ l.2 = 7#32 ∨ l.2 = 8#32)) ∨ (l.1 = 1#3 ∧ l.2.toNat < s.iMax) ∨
          (l.1 = 2#3 ∧ l.2.toNat < 8 * s.iMax) ∨ (l.1 = 4#3 ∧ l.2.toNat < 4096 ∧ l.2.toNat % 16 < 10)) ∧
        ¬ (l.1 = 0#3 ∧ (l.2 = 3#32 ∨ l.2 = 5#32)) := by
  constructor <;>
  · intro l hl
    refine ⟨issued 1#32 [wr l.1 l.2 0#32], 0#32, rfl, rfl, rfl, ?_⟩
    simp only [List.mem_cons, List.not_mem_nil, or_false] at hl
    rcases hl with rfl | rfl | rfl | rfl | rfl | rfl <;> decide

theorem witness_ReadsChangeNothingAndAreExact :
    (∃ s : State, s.rst = false ∧ s.turns = [.bus (.read 2#3 127#32)] ∧ s.busy = false) ∧
    ∃ s : State, s.rst = false ∧ s.turns = [.bus (.read 0#3 5#32)] ∧ s.busy = true :=
  ⟨⟨started [rd 2#3 127#32], by decide⟩, issued 1#32 [rd 0#3 5#32], by decide⟩

theorem witness_IdentityRegistersAreConstant : ∃ s t : State, step s = .next t :=
  ⟨started [.rst true], _, rfl⟩

theorem witness_BufferWritesStoreOneElement :
    ∃ s₁ s₂ s₃ : State, (s₁.busy = false ∧ s₁.rst = false ∧ s₁.turns = [.bus (.write 1#3 15#32 0x161#32)] ∧ 15 < s₁.iMax) ∧
      (s₂.busy = false ∧ s₂.rst = false ∧ s₂.turns = [.bus (.write 2#3 127#32 0x131#32)] ∧ 127 < 8 * s₂.iMax) ∧
      s₃.busy = false ∧ s₃.rst = false ∧ s₃.turns = [.bus (.write 3#3 0#32 0x41#32)] ∧ 0 < 8 * s₃.iMax :=
  ⟨started [wr 1#3 15#32 0x161#32], started [wr 2#3 127#32 0x131#32], started [wr 3#3 0#32 0x41#32], by decide⟩

theorem witness_CodeTableWordsFollowTheLayout :
    ∀ w ∈ [0, 1, 2, 9, 10, 15], ∃ (s : State) (x : Symbol) (v : Word), s.busy = false ∧ s.rst = false ∧ w < 16 ∧
      s.turns = [.bus (.write 4#3 (BitVec.ofNat 32 (16 * x.toNat + w)) v)] := by
  intro w hw
  refine ⟨started [wr 4#3 (BitVec.ofNat 32 (16 * (0xFF#8 : Symbol).toNat + w)) 0xFFFFFFFF#32], 0xFF#8, 0xFFFFFFFF#32, rfl, rfl, ?_, rfl⟩
  revert w; decide

theorem witness_ReservedLocationsReadZeroAndIgnoreWrites :
    ∀ l ∈ [((0#3 : Space), (14#32 : Word)), (1#3, 16#32), (2#3, 128#32), (3#3, 128#32), (4#3, 4096#32), (5#3, 0#32), (7#3, 0#32)],
      ∃ s s' : State, s.rst = false ∧ s'.rst = false ∧ s.iMax = 16 ∧ s'.iMax = 16 ∧ s.turns = [.bus (.read l.1 l.2)] ∧
        s'.turns = [.bus (.write l.1 l.2 1#32)] ∧
        ((l.1 = 0#3 ∧ 14 ≤ l.2.toNat) ∨ (l.1 = 1#3 ∧ s.iMax ≤ l.2.toNat) ∨ (l.1 = 2#3 ∧ 8 * s.iMax ≤ l.2.toNat) ∨
          (l.1 = 3#3 ∧ 8 * s.iMax ≤ l.2.toNat) ∨ (l.1 = 4#3 ∧ 4096 ≤ l.2.toNat) ∨ 5#3 ≤ l.1) := by
  intro l hl
  refine ⟨started [rd l.1 l.2], issued 1#32 [wr l.1 l.2 1#32], rfl, rfl, rfl, rfl, rfl, rfl, ?_⟩
  simp only [List.mem_cons, List.not_mem_nil, or_false] at hl
  rcases hl with rfl | rfl | rfl | rfl | rfl | rfl | rfl <;> decide

theorem witness_BusyChangesOnlyAtIssueAndCompletion :
    (∃ s t : State, step s = .next t ∧ s.busy = false ∧ t.busy = true) ∧
    (∃ s t : State, step s = .next t ∧ s.turns = [.core] ∧ s.busy = true ∧ t.busy = false) ∧
    (∃ s t : State, step s = .next t ∧ s.turns = [] ∧ s.busy = true ∧ t.busy = false) ∧
    ∃ s t : State, step s = .next t ∧ s.turns = [.rst true] ∧ s.busy = true ∧ t.busy = false :=
  ⟨⟨started [wr 0#3 4#32 1#32], _, rfl, by decide⟩, ⟨issued 0#32 [.core], _, rfl, by decide⟩, ⟨issued 0#32 [], _, rfl, by decide⟩,
   issued 1#32 [.rst true], _, rfl, by decide⟩

theorem witness_OperandsCannotChangeWhileBusy :
    (∃ s t : State, s.busy = true ∧ s.turns = [.bus (.write 1#3 0#32 0x61#32)] ∧ step s = .next t) ∧
    ∃ s t : State, s.busy = true ∧ s.turns = [.bus (.write 0#3 4#32 4#32)] ∧ step s = .next t :=
  ⟨⟨issued 1#32 [wr 1#3 0#32 0x61#32], _, rfl, rfl, rfl⟩, issued 1#32 [wr 0#3 4#32 4#32], _, rfl, rfl, rfl⟩

/-- `irq` rises at a completion, with the CORE's turn listed or none, and at a write of CTRL. It falls at an acknowledge, an
issue, a write of CTRL and a reset. -/
theorem witness_InterruptRisesAndFallsAsTheRuleSays :
    (∀ turns ∈ [[], [Turn.core]], ∃ s t : State, step s = .next t ∧ s.turns = turns ∧ s.rst = false ∧ s.busy = true ∧
      s.ie = true ∧ s.irq = false ∧ t.irq = true) ∧
    (∃ s t : State, step s = .next t ∧ s.turns = [wr 0#3 3#32 1#32] ∧ s.rst = false ∧ s.done = true ∧
      s.irq = false ∧ t.irq = true) ∧
    ∀ m ∈ [wr 0#3 5#32 2#32, wr 0#3 4#32 1#32, wr 0#3 3#32 0#32, .rst true],
      ∃ s t : State, step s = .next t ∧ s.turns = [m] ∧ s.rst = false ∧ s.busy = false ∧ s.irq = true ∧ t.irq = false := by
  refine ⟨fun turns ht => ?_, ⟨{ started [wr 0#3 3#32 1#32] with done := true }, _, rfl, by decide⟩, fun m hm => ?_⟩
  · simp only [List.mem_cons, List.not_mem_nil, or_false] at ht
    rcases ht with rfl | rfl
    · exact ⟨{ issued 0#32 [] with ie := true }, _, rfl, by decide⟩
    · exact ⟨{ issued 0#32 [.core] with ie := true }, _, rfl, by decide⟩
  · simp only [List.mem_cons, List.not_mem_nil, or_false] at hm
    rcases hm with rfl | rfl | rfl | rfl
    · exact ⟨{ started [wr 0#3 5#32 2#32] with done := true, ie := true }, _, rfl, by decide⟩
    · exact ⟨{ started [wr 0#3 4#32 1#32] with done := true, ie := true }, _, rfl, by decide⟩
    · exact ⟨{ started [wr 0#3 3#32 0#32] with done := true, ie := true }, _, rfl, by decide⟩
    · exact ⟨{ started [.rst true] with done := true, ie := true }, _, rfl, by decide⟩

theorem witness_ResetAbandonsTheCommandAndZeroesTheState :
    (∃ s : State, s.turns = [.rst true] ∧ s.busy = true) ∧ (∃ s : State, s.turns = [.rst false] ∧ s.rst = true) ∧
    (∃ s : State, s.rst = true ∧ s.turns = [.bus (.write 0#3 4#32 1#32)]) ∧ ∃ s : State, s.rst = true ∧ s.turns = [.core] :=
  ⟨⟨issued 1#32 [.rst true], by decide⟩, ⟨{ started [.rst false] with rst := true }, by decide⟩,
   ⟨{ started [wr 0#3 4#32 1#32] with rst := true }, by decide⟩, { issued 1#32 [.core] with rst := true }, by decide⟩

theorem witness_StepKeepsTheInvariant : ∃ s t : State, s.Inv ∧ step s = .next t ∧ s.busy = true := by
  refine ⟨{ issued 0#32 [] with iLen := 16, ibuf := Memory.setFrom [] 0 aabbbcc }, _, ?_, rfl, rfl⟩
  exact ⟨by decide, by decide, by decide, by decide, by decide, by decide, by decide, by decide, by decide, by decide⟩

theorem witness_ResetHasTheInvariant : Config.LegalIMax 1 ∧ Config.LegalIMax (2 ^ 27) := by decide

theorem witness_ReachableStatesKeepTheRegisterBounds :
    (∃ s : State, Reachable s ∧ s.done = true) ∧ ∃ s : State, Reachable s ∧ s.done = false := by
  refine ⟨⟨_, .step _ _ (.step _ _ (.reset 16 (by decide) [wr 0#3 4#32 0#32]) rfl) rfl, by decide⟩,
    _, .reset (2 ^ 27) (by decide) [.core], rfl⟩

theorem witness_LoadiLoadsTheInput :
    (∃ (s : State) (rest : List Turn), s.busy = false ∧ s.rst = false ∧ s.iMax < 2 ^ 32 ∧
      s.turns = (Pseudo.loadi []).turns ++ rest) ∧
    ∃ (s : State) (cs : List Symbol) (rest : List Turn), s.busy = false ∧ s.rst = false ∧ s.iMax < 2 ^ 32 ∧
      cs.length ≤ s.iMax ∧ cs.length = 16 ∧ s.turns = (Pseudo.loadi cs).turns ++ rest :=
  ⟨⟨started (Pseudo.loadi []).turns, [], by decide⟩,
   started (Pseudo.loadi (List.replicate 16 a)).turns, List.replicate 16 a, [], by decide⟩

theorem witness_SetcodeLoadsTheEntry :
    (∃ (s : State) (rest : List Turn), s.busy = false ∧ s.rst = false ∧ s.turns = (Pseudo.setcode a [] 0#32).turns ++ rest) ∧
    ∃ (s : State) (bs : BitStr) (rest : List Turn), s.busy = false ∧ s.rst = false ∧ bs.length ≤ 255 ∧ bs.length = 255 ∧
      s.turns = (Pseudo.setcode 0xFF#8 bs 5#32).turns ++ rest :=
  ⟨⟨started (Pseudo.setcode a [] 0#32).turns, [], rfl, rfl, by simp [started]⟩,
   started (Pseudo.setcode 0xFF#8 (List.replicate 255 true) 5#32).turns, List.replicate 255 true, [], rfl, rfl,
   by simp, by simp, by simp [started]⟩

end Sys2Proof.Tests
end

section
/-! SUPPORT. What every command leaves (10_state.md R45, R210), and the invariant of R47: each shared operation keeps it, so
every step does and every reachable state has it. -/

namespace Sys2Proof.Machine

/-! ### The completion of a command -/

/-- Every error has a code of at most 8 (R210). -/
theorem CmdError.code_le (e : CmdError) : e.code ≤ 8#4 := by
  cases e <;> simp [CmdError.code]

/-- No error has the code of success (R210). -/
theorem CmdError.code_ne_zero (e : CmdError) : e.code ≠ 0#4 := by
  cases e <;> simp [CmdError.code]

/-- The fields no command writes: I_MAX, PEND (log 2), IE, IGNWR, IBUF and the model's own. -/
structure KeptByCommands (s t : State) : Prop where
  iMax : t.iMax = s.iMax
  pend : t.pend = s.pend
  ie : t.ie = s.ie
  ignwr : t.ignwr = s.ignwr
  ibuf : t.ibuf = s.ibuf
  fill : t.fill = s.fill
  draws : t.draws = s.draws
  rst : t.rst = s.rst
  turns : t.turns = s.turns
  trace : t.trace = s.trace

/-- `t` is what a command that started in `s` leaves when it has completed (R45). -/
structure Completed (s t : State) : Prop extends KeptByCommands s t where
  busy : t.busy = false
  done : t.done = true
  info_of_success : t.err = 0#4 → t.errInfo = 0#32
  err_le : t.err ≤ 8#4

theorem KeptByCommands.refl (s : State) : KeptByCommands s s := by constructor <;> rfl

theorem clearOutputs_kept (s : State) : KeptByCommands s s.clearOutputs := by constructor <;> rfl

theorem compressOutputs_kept (s : State) (xs : List Symbol) : KeptByCommands s (s.compressOutputs xs) := by
  constructor <;> rfl

theorem decompressOutputs_kept (s : State) (out : List Symbol) : KeptByCommands s (s.decompressOutputs out) := by
  constructor <;> rfl

/-- A buffer element of the input is kept with IBUF (R39). -/
theorem KeptByCommands.readIBUF {s t : State} (h : KeptByCommands s t) (j : Nat) : t.readIBUF j = s.readIBUF j := by
  simp only [State.readIBUF, State.element_eq, h.ibuf, h.fill]

theorem succeed_completed {s u : State} (h : KeptByCommands s u) : Completed s u.succeed where
  toKeptByCommands := { h with }
  busy := rfl
  done := rfl
  info_of_success _ := rfl
  err_le := by simp

theorem raise_completed (s : State) (e : CmdError) : Completed s (s.raise e) where
  toKeptByCommands := { KeptByCommands.refl s with }
  busy := rfl
  done := rfl
  info_of_success h := absurd h e.code_ne_zero
  err_le := e.code_le

/-- No command stops (R218). -/
theorem exec_answers (i : Instr) (s : State) : ∃ t, exec i s = .next t := by
  cases i with
  | compress => rw [exec_compress]; split <;> exact ⟨_, rfl⟩
  | decompress =>
    cases h : s.decompressResult with
    | error e => exact ⟨_, exec_decompress_error h⟩
    | ok out => exact ⟨_, exec_decompress_ok h⟩
  | checkTable =>
    cases h : s.checkTable with
    | some e => exact ⟨_, exec_checkTable_error h⟩
    | none => exact ⟨_, exec_checkTable_ok h⟩
  | clear => exact ⟨_, exec_clear s⟩

/-- What a command answers is a completion (R45). -/
theorem exec_completed {i : Instr} {s t : State} (h : exec i s = .next t) : Completed s t := by
  rcases exec_cases h with ⟨-, -, rfl⟩ | ⟨-, -, rfl⟩ | ⟨-, e, -, rfl⟩ | ⟨-, out, -, rfl⟩ | ⟨-, e, -, rfl⟩ | ⟨-, -, rfl⟩ |
    ⟨-, rfl⟩
  · exact raise_completed s _
  · exact succeed_completed (compressOutputs_kept s _)
  · exact raise_completed s e
  · exact succeed_completed (decompressOutputs_kept s out)
  · exact raise_completed s e
  · exact succeed_completed (.refl s)
  · exact succeed_completed (clearOutputs_kept s)

/-- A successful DECOMPRESS emits at most one symbol per payload character (R170). -/
theorem decompressResult_ok_length {s : State} {out : List Symbol} (h : s.decompressResult = .ok out) :
    out.length ≤ s.pLen := by
  rcases decompressResult_cases s with ⟨-, hr⟩ | ⟨-, -, hr⟩ | ⟨-, -, i, -, hr⟩ | ⟨-, -, -, e, -, hr⟩ | ⟨-, -, -, -, hr⟩
  iterate 4 rw [hr] at h; cases h
  rw [hr, Decoding.result] at h
  split at h <;> cases h
  simpa using decodeBits_out_length s.tableSymbols s.codeOf (s.payload.map charBit)

/-! ### The invariant, operation by operation -/

namespace State.Inv

variable {s : State}

theorem complete (h : s.Inv) {code : BitVec 4} (hc : code ≤ 8#4) (info : Word) : (s.complete code info).Inv :=
  { h with done_idle := fun _ => rfl, err_le := hc }

theorem succeed (h : s.Inv) : s.succeed.Inv := h.complete (by simp) _

theorem raise (h : s.Inv) (e : CmdError) : (s.raise e).Inv := h.complete e.code_le _

theorem clearOutputs (h : s.Inv) : s.clearOutputs.Inv :=
  { h with iLen_le := Nat.zero_le _, pLen_le := Nat.zero_le _, oLen_le := Nat.zero_le _, nAlpha_le := Nat.zero_le _ }

/-- The payload fits PBUF: eight bits per symbol suffice (R120), and PBUF has eight elements per element of IBUF. -/
theorem compressOutputs (h : s.Inv) : (s.compressOutputs s.inputStream).Inv := by
  have fits : (encodeBits (codesOf s.inputStream) s.inputStream).length ≤ Config.pMax s.iMax :=
    calc _ ≤ 8 * s.inputStream.length := encodeBits_length_le _
      _ = 8 * s.iLen := by rw [inputStream_length]
      _ ≤ 8 * s.iMax := Nat.mul_le_mul_left 8 h.iLen_le
  exact { h with
    pLen_le := fits
    nAlpha_le := countFreq_order_length _
    pbuf_wf := Memory.wf_setFrom _ h.pbuf_wf (by simpa using fits) }

theorem decompressOutputs (h : s.Inv) {out : List Symbol} (hout : out.length ≤ s.pLen) : (s.decompressOutputs out).Inv := by
  have fits : out.length ≤ Config.oMax s.iMax := hout.trans h.pLen_le
  exact { h with oLen_le := fits, obuf_wf := Memory.wf_setFrom _ h.obuf_wf (by simpa using fits) }

theorem exec (h : s.Inv) {i : Instr} {t : State} (hx : exec i s = .next t) : t.Inv := by
  rcases exec_cases hx with ⟨-, -, rfl⟩ | ⟨-, -, rfl⟩ | ⟨-, e, -, rfl⟩ | ⟨-, out, hr, rfl⟩ | ⟨-, e, -, rfl⟩ | ⟨-, -, rfl⟩ |
    ⟨-, rfl⟩
  · exact h.raise _
  · exact h.compressOutputs.succeed
  · exact h.raise e
  · exact (h.decompressOutputs (decompressResult_ok_length hr)).succeed
  · exact h.raise e
  · exact h.succeed
  · exact h.clearOutputs.succeed

theorem issue (h : s.Inv) (v : Word) : (s.issue v).Inv := { h with done_idle := fun hd => nomatch hd }

theorem writeStatus (h : s.Inv) (v : Word) : (s.writeStatus v).Inv :=
  { h with done_idle := fun hd => h.done_idle (Bool.and_eq_true_iff.1 hd).1 }

theorem writeWord (h : s.Inv) (sp : Space) (i : Nat) (v : Word) : (s.writeWord sp i v).Inv := by
  rcases writeWord_cases s sp i v with hw | hw | hw | hw | ⟨hv, hw⟩ | ⟨hv, hw⟩ | ⟨hi, hw⟩ | ⟨hi, hw⟩ | ⟨c, hw⟩ <;> rw [hw]
  · exact h
  · exact { h with }
  · exact h.issue v
  · exact h.writeStatus v
  · exact { h with iLen_le := hv }
  · exact { h with pLen_le := hv }
  · exact { h with ibuf_wf := Memory.wf_set _ h.ibuf_wf hi }
  · exact { h with pbuf_wf := Memory.wf_set _ h.pbuf_wf hi }
  · exact { h with }

theorem busTransaction (h : s.Inv) (op : BusOp) : (s.busTransaction op).Inv := by
  rcases busTransaction_cases s op with hb | ⟨n, r, hb⟩ | ⟨r, -, hb⟩ | ⟨sp, i, v, r, -, -, -, hb⟩ <;> rw [hb]
  · exact h
  · exact { h with }
  · exact { h with }
  · exact { h.writeWord sp i.toNat v with }

/-- The reset state for a legal `I_MAX` has the invariant (R48). -/
theorem resetWith {iMax : Nat} (legal : Config.LegalIMax iMax) : (State.resetWith iMax).Inv where
  iMax_legal := legal
  iLen_le := Nat.zero_le _
  pLen_le := Nat.zero_le _
  oLen_le := Nat.zero_le _
  nAlpha_le := Nat.zero_le _
  done_idle _ := rfl
  err_le := by simp [State.resetWith]
  ibuf_wf := rfl
  pbuf_wf := rfl
  obuf_wf := rfl

theorem setReset (h : s.Inv) (asserted : Bool) : (s.setReset asserted).Inv := { resetWith h.iMax_legal with }

/-- The invariant does not depend on the moves to come. -/
theorem withTurns (h : s.Inv) (rest : List Turn) : ({ s with turns := rest } : State).Inv := { h with }

theorem coreMovesFrom (h : s.Inv) {s₁ : State} (hm : CoreMovesFrom s s₁) : s₁.Inv := by
  rcases hm with ⟨-, rfl⟩ | ⟨rest, -, rfl⟩
  exacts [h, h.withTurns rest]

theorem step (h : s.Inv) {t : State} (hs : step s = .next t) : t.Inv := by
  rcases step_cases hs with ⟨s₁, hm, ⟨-, rfl⟩ | ⟨-, i, -, hx⟩ | ⟨-, -, rfl⟩⟩ | ⟨op, rest, -, rfl⟩ | ⟨b, rest, -, rfl⟩
  · exact h.coreMovesFrom hm
  · exact (h.coreMovesFrom hm).exec hx
  · exact (h.coreMovesFrom hm).raise _
  · exact (h.withTurns rest).busTransaction op
  · exact (h.withTurns rest).setReset b

end State.Inv

/-- Every reachable state has the invariant (R47). -/
theorem Reachable.inv {s : State} (h : Reachable s) : s.Inv := by
  induction h with
  | reset iMax legal turns => exact (State.Inv.resetWith legal).withTurns turns
  | step s t _ moves ih => exact ih.step moves

/-- Settles O53: what a step can do (`step_cases`), and that each shared operation keeps the invariant. -/
theorem stepKeepsTheInvariant : Obligations.StepKeepsTheInvariant := fun _ _ h hs => h.step hs

/-- Settles O54: the reset state has the invariant, whatever moves are listed. -/
theorem resetHasTheInvariant : Obligations.ResetHasTheInvariant :=
  ⟨fun _ turns legal => (State.Inv.resetWith legal).withTurns turns, State.Inv.resetWith (by decide)⟩

/-- Settles O55: the bounds are parts of the invariant. -/
theorem reachableStatesKeepTheRegisterBounds : Obligations.ReachableStatesKeepTheRegisterBounds := by
  intro s hs
  obtain ⟨-, iLen_le, pLen_le, oLen_le, nAlpha_le, done_idle, -, -, -, -⟩ := hs.inv
  exact ⟨iLen_le, pLen_le, oLen_le, nAlpha_le, done_idle⟩

/-- Settles O36: every command answers, and what it answers is a completion. -/
theorem everyCommandCompletes : Obligations.EveryCommandCompletes := by
  intro i s
  obtain ⟨t, hx⟩ := exec_answers i s
  have h := exec_completed hx
  exact ⟨t, hx, h.busy, h.done, h.info_of_success, h.err_le, h.iMax, h.pend, h.ie, h.ignwr, h.ibuf, h.readIBUF, h.fill,
    h.draws, h.rst, h.turns, h.trace⟩

end Sys2Proof.Machine
end

section
/-! SUPPORT. The words of the registers (10_state.md R26 to R30), and what each host write does, at its location, busy or
idle (20_memory.md R62 to R67). -/

namespace Sys2Proof.Machine

/-! ### Registers -/

theorem readWord_reg (s : State) {i : Nat} (hi : i < 14) : s.readWord 0#3 i = s.regWord i := by
  simp [State.readWord, State.mapped, State.spaceSize, spREG, regWords, hi]

theorem ctrlWord_eq (s : State) : s.ctrlWord = if s.ie then 1#32 else 0#32 := by
  cases h : s.ie <;> simp [State.ctrlWord, h]

/-- STATUS bit by bit (R30). -/
theorem statusWord_getLsbD (s : State) (k : Nat) :
    s.statusWord.getLsbD k =
      if k = 0 then s.busy else if k = 1 then s.done else if k = 2 then s.ignwr else if k < 8 then false
      else s.err.getLsbD (k - 8) := by
  rw [State.statusWord]
  change BitVec.getLsbD (w := 20 + 4 + 5 + 1 + 1 + 1) (_ ++ _) k = _
  simp only [BitVec.getLsbD_append, BitVec.getLsbD_ofBool, BitVec.getLsbD_zero]
  grind

/-- The fields of STATUS, each at its place, and its reserved bits 0 (R30). -/
theorem statusWord_fields (s : State) :
    s.statusWord.extractLsb' 8 4 = s.err ∧ s.statusWord.extractLsb' 3 5 = 0#5 ∧
    s.statusWord.extractLsb' 12 20 = 0#20 := by
  refine ⟨?_, ?_, ?_⟩ <;> ext k hk <;> rw [BitVec.getElem_extractLsb', statusWord_getLsbD]
  · simp [show ¬ 8 + k = 1 by omega, show ¬ 8 + k = 2 by omega, BitVec.getLsbD_eq_getElem hk]
  · simp [show ¬ 3 + k = 1 by omega, show ¬ 3 + k = 2 by omega, show 3 + k < 8 by omega]
  · simp [show ¬ 12 + k = 1 by omega, show ¬ 12 + k = 2 by omega, show ¬ 12 + k < 8 by omega,
      show 4 ≤ 12 + k - 8 by omega]

/-! ### Where a write is locked while busy -/

/-- The number of a space is 0 to 7 (R60). -/
theorem space_cases (sp : Space) :
    sp = 0#3 ∨ sp = 1#3 ∨ sp = 2#3 ∨ sp = 3#3 ∨ sp = 4#3 ∨ sp = 5#3 ∨ sp = 6#3 ∨ sp = 7#3 := by
  revert sp; decide

@[simp] theorem mapped_ibuf (s : State) (i : Nat) : s.mapped 1#3 i = decide (i < s.iMax) := rfl
@[simp] theorem mapped_pbuf (s : State) (i : Nat) : s.mapped 2#3 i = decide (i < 8 * s.iMax) := rfl
@[simp] theorem mapped_ct (s : State) (i : Nat) : s.mapped 4#3 i = decide (i < 4096) := rfl

/-- The locations whose writes are dropped while busy (R67; log 9). -/
theorem lockedWhileBusy_iff (s : State) (sp : Space) (i : Nat) :
    s.lockedWhileBusy sp i = true ↔
      (sp = 0#3 ∧ (i = 4 ∨ i = 7 ∨ i = 8)) ∨ (sp = 1#3 ∧ i < s.iMax) ∨ (sp = 2#3 ∧ i < 8 * s.iMax) ∨
        (sp = 4#3 ∧ i < 4096 ∧ i % 16 < 10) := by
  have reg : i < 14 ∧ ((i = 4 ∨ i = 7) ∨ i = 8) ↔ i = 4 ∨ i = 7 ∨ i = 8 := by omega
  rcases space_cases sp with rfl | rfl | rfl | rfl | rfl | rfl | rfl | rfl <;>
    simp [State.lockedWhileBusy, State.mapped, State.spaceSize, spREG, spIBUF, spPBUF, spOBUF, spCT, regWords, ctWords,
      Config.pMax, reg]
  exact fun _ => Iff.rfl

theorem busWrite_locked {s : State} (hb : s.busy = true) {sp : Space} {i : Nat} (hl : s.lockedWhileBusy sp i = true)
    (v : Word) : s.busWrite sp i v = s.noteIgnored := by
  simp [State.busWrite, hb, hl]

theorem busWrite_unlocked {s : State} {sp : Space} {i : Nat} (hl : s.lockedWhileBusy sp i = false) (v : Word) :
    s.busWrite sp i v = s.writeWord sp i v := by
  simp [State.busWrite, hl]

/-! ### The writes that change nothing -/

theorem CTEntry.setWord_reserved (e : CTEntry) {w : Nat} (hw : 10 ≤ w) (v : Word) : e.setWord w v = e := by
  rw [CTEntry.setWord, if_neg (by omega), if_neg (by omega), if_neg (by omega)]

/-- A write of a reserved word of a CT entry changes nothing (R25, R38). -/
theorem writeCT_reserved (s : State) {i : Nat} (hi : 10 ≤ i % ctStride) (v : Word) : s.writeCT i v = s := by
  rw [State.writeCT, CTEntry.setWord_reserved _ hi, State.entry, Vector.set_getElem_self]

/-- A write of a register beside CTRL, CMD, STATUS, ILEN and PLEN changes nothing (R24, R25). -/
theorem writeReg_readOnly (s : State) {i : Nat} (h : i ≠ 3 ∧ i ≠ 4 ∧ i ≠ 5 ∧ i ≠ 7 ∧ i ≠ 8) (v : Word) :
    s.writeReg i v = s := by
  rw [State.writeReg.eq_def]
  split <;> simp_all

/-- Beside the locations locked while busy, a write changes nothing but CTRL and STATUS (R67). -/
theorem writeWord_unlocked {s : State} {sp : Space} {i : Nat} (hl : s.lockedWhileBusy sp i = false)
    (h : ¬ (sp = 0#3 ∧ (i = 3 ∨ i = 5))) (v : Word) : s.writeWord sp i v = s := by
  rw [← Bool.not_eq_true, lockedWhileBusy_iff] at hl
  rw [State.writeWord]
  by_cases hm : s.mapped sp i = true
  · rw [if_pos hm]
    rcases space_cases sp with rfl | rfl | rfl | rfl | rfl | rfl | rfl | rfl
    · exact writeReg_readOnly s (by grind) v
    · exact absurd (.inr (.inl ⟨rfl, by simpa using hm⟩)) hl
    · exact absurd (.inr (.inr (.inl ⟨rfl, by simpa using hm⟩))) hl
    · rfl
    · exact writeCT_reserved s (Nat.le_of_not_lt fun hw => hl (.inr (.inr (.inr ⟨rfl, by simpa using hm, hw⟩)))) v
    all_goals rfl
  · rw [if_neg hm]

/-! ### The step of a host write -/

/-- A host write out of reset, with its record (R62). -/
theorem step_write {s : State} {sp : Space} {i v : Word} {rest : List Turn} (hr : s.rst = false)
    (h : s.turns = .bus (.write sp i v) :: rest) :
    step s = .next { State.busWrite { s with turns := rest } sp i.toNat v with trace := ⟨.w, sp, i, v⟩ :: s.trace } := by
  rw [step_bus h, State.busTransaction, if_neg (by simp [hr])]

section
variable {s : State} {sp : Space} {i v : Word} {rest : List Turn} (hr : s.rst = false)
include hr

/-- A write that is dropped while busy sets IGNWR and leaves everything else (R67). -/
theorem step_write_locked (hb : s.busy = true) (hl : s.lockedWhileBusy sp i.toNat = true)
    (h : s.turns = .bus (.write sp i v) :: rest) :
    step s = .next { s with turns := rest, trace := ⟨.w, sp, i, v⟩ :: s.trace, ignwr := true } := by
  rw [step_write hr h, busWrite_locked (s := { s with turns := rest }) hb hl]; rfl

/-- A write of a location that is neither locked while busy nor CTRL or STATUS changes nothing (R25, R67). -/
theorem step_write_ignored (hl : s.lockedWhileBusy sp i.toNat = false) (hi : ¬ (sp = 0#3 ∧ (i = 3#32 ∨ i = 5#32)))
    (h : s.turns = .bus (.write sp i v) :: rest) :
    step s = .next { s with turns := rest, trace := ⟨.w, sp, i, v⟩ :: s.trace } := by
  have hi' : ¬ (sp = 0#3 ∧ (i.toNat = 3 ∨ i.toNat = 5)) := by simpa [← BitVec.toNat_inj] using hi
  rw [step_write hr h, busWrite_unlocked (s := { s with turns := rest }) hl,
    writeWord_unlocked (s := { s with turns := rest }) hl hi']

/-- A write of CTRL, busy or idle, stores IE (R28, R67). -/
theorem step_write_ctrl (h : s.turns = .bus (.write 0#3 3#32 v) :: rest) :
    step s = .next { s with turns := rest, trace := ⟨.w, 0#3, 3#32, v⟩ :: s.trace, ie := v.getLsbD 0 } := by
  rw [step_write hr h, busWrite_unlocked rfl]; rfl

/-- A write of STATUS, busy or idle, clears the flags it names (R30, R67). -/
theorem step_write_status (h : s.turns = .bus (.write 0#3 5#32 v) :: rest) :
    step s = .next { s with
      turns := rest, trace := ⟨.w, 0#3, 5#32, v⟩ :: s.trace
      done := s.done && !v.getLsbD 1, ignwr := s.ignwr && !v.getLsbD 2 } := by
  rw [step_write hr h, busWrite_unlocked rfl]; rfl

/-- A write of CMD while idle issues the command (R29). -/
theorem step_write_cmd (hb : s.busy = false) (h : s.turns = .bus (.write 0#3 4#32 v) :: rest) :
    step s = .next { s with
      turns := rest, trace := ⟨.w, 0#3, 4#32, v⟩ :: s.trace, pend := v, busy := true, done := false } := by
  rw [step_write_idle hb hr h]; rfl

end

end Sys2Proof.Machine
end

section
/-! SUPPORT. The CORE's move (10_state.md R45), what each step does to BUSY, DONE and IE (R23, R29, R46, R240), and that no
step changes I_MAX (R27). -/

namespace Sys2Proof.Machine

/-! ### The CORE's move -/

theorem exists_coreMovesFrom {s : State} (h : s.turns = [] ∨ ∃ rest, s.turns = .core :: rest) :
    ∃ s₁, CoreMovesFrom s s₁ := by
  rcases h with h | ⟨rest, h⟩
  exacts [⟨s, .inl ⟨h, rfl⟩⟩, ⟨_, .inr ⟨rest, h, rfl⟩⟩]

theorem CoreMovesFrom.turns {s s₁ : State} (hm : CoreMovesFrom s s₁) :
    s.turns = [] ∨ ∃ rest, s.turns = .core :: rest := by
  rcases hm with ⟨ht, -⟩ | ⟨rest, ht, -⟩
  exacts [.inl ht, .inr ⟨rest, ht⟩]

theorem CoreMovesFrom.eq_with_turns {s s₁ : State} (hm : CoreMovesFrom s s₁) : s₁ = { s with turns := s₁.turns } := by
  rcases hm with ⟨-, rfl⟩ | ⟨rest, -, rfl⟩ <;> rfl

theorem step_of_coreMovesFrom {s s₁ : State} (hm : CoreMovesFrom s s₁) : step s = coreMove s₁ := by
  rcases hm with ⟨ht, rfl⟩ | ⟨rest, ht, rfl⟩
  exacts [step_nil ht, step_core ht]

theorem coreEnabled_iff (s : State) : s.coreEnabled = true ↔ s.busy = true ∧ s.rst = false := by
  simp [State.coreEnabled]

theorem CoreMovesFrom.coreEnabled {s s₁ : State} (hm : CoreMovesFrom s s₁) : s₁.coreEnabled = s.coreEnabled :=
  (congrArg State.coreEnabled hm.eq_with_turns :)

theorem CoreMovesFrom.pend {s s₁ : State} (hm : CoreMovesFrom s s₁) : s₁.pend = s.pend :=
  (congrArg State.pend hm.eq_with_turns :)

theorem CoreMovesFrom.ie {s s₁ : State} (hm : CoreMovesFrom s s₁) : s₁.ie = s.ie :=
  (congrArg State.ie hm.eq_with_turns :)

theorem CoreMovesFrom.iMax {s s₁ : State} (hm : CoreMovesFrom s s₁) : s₁.iMax = s.iMax :=
  (congrArg State.iMax hm.eq_with_turns :)

/-- A busy CORE out of reset that has the move runs the decoded command (R45, R93). -/
theorem step_core_command {s s₁ : State} (hm : CoreMovesFrom s s₁) (he : s.coreEnabled = true) {i : Instr}
    (hd : decode s.pend = .ok i) : step s = exec i s₁ := by
  rw [step_of_coreMovesFrom hm, coreMove_command (hm.coreEnabled.trans he) (hm.pend ▸ hd)]

/-- A CORE without a step changes nothing when it has the move (R45, R227). -/
theorem step_core_idle {s s₁ : State} (hm : CoreMovesFrom s s₁) (he : s.coreEnabled = false) : step s = .next s₁ := by
  rw [step_of_coreMovesFrom hm, coreMove_idle (hm.coreEnabled.trans he)]

/-- The CORE's step, whatever the command word, is a completion (R45, R192). -/
theorem step_core_completed {s s₁ t : State} (hm : CoreMovesFrom s s₁) (he : s.coreEnabled = true) (h : step s = .next t) :
    Completed s₁ t := by
  rw [step_of_coreMovesFrom hm] at h
  have he₁ := hm.coreEnabled.trans he
  cases hd : decode s₁.pend with
  | ok i => rw [coreMove_command he₁ hd] at h; exact exec_completed h
  | error e => rw [coreMove_illegal he₁ hd] at h; cases h; exact raise_completed s₁ _

/-! ### The flags -/

/-- BUSY, DONE and IE are as before. -/
structure SameFlags (s t : State) : Prop where
  busy : t.busy = s.busy
  done : t.done = s.done
  ie : t.ie = s.ie

/-- The ways a step can treat BUSY, DONE and IE. -/
inductive FlagStep (s t : State) : Prop
  | keeps (same : SameFlags s t)
  | completes (move : s.turns = [] ∨ ∃ rest, s.turns = .core :: rest) (not_reset : s.rst = false) (was_busy : s.busy = true)
      (busy : t.busy = false) (done : t.done = true) (ie : t.ie = s.ie)
  | issues (v : Word) (rest : List Turn) (move : s.turns = .bus (.write 0#3 4#32 v) :: rest) (not_reset : s.rst = false)
      (was_idle : s.busy = false) (pend : t.pend = v) (busy : t.busy = true) (done : t.done = false) (ie : t.ie = s.ie)
  | writesCtrl (v : Word) (rest : List Turn) (move : s.turns = .bus (.write 0#3 3#32 v) :: rest)
      (busy : t.busy = s.busy) (done : t.done = s.done) (ie : t.ie = v.getLsbD 0)
  | writesStatus (v : Word) (rest : List Turn) (move : s.turns = .bus (.write 0#3 5#32 v) :: rest)
      (busy : t.busy = s.busy) (done : t.done = (s.done && !v.getLsbD 1)) (ie : t.ie = s.ie)
  | resets (b : Bool) (rest : List Turn) (move : s.turns = .rst b :: rest)
      (busy : t.busy = false) (done : t.done = false) (ie : t.ie = false)

theorem writeReg_sameFlags (s : State) {i : Nat} (h : i ≠ 3 ∧ i ≠ 4 ∧ i ≠ 5) (v : Word) :
    SameFlags s (s.writeReg i v) := by
  obtain ⟨h₃, h₄, h₅⟩ := h
  rw [State.writeReg.eq_def]
  split
  · exact absurd rfl h₃
  · exact absurd rfl h₄
  · exact absurd rfl h₅
  · split <;> exact ⟨rfl, rfl, rfl⟩
  · split <;> exact ⟨rfl, rfl, rfl⟩
  · exact ⟨rfl, rfl, rfl⟩

/-- A write beside CTRL, CMD and STATUS keeps the flags (R26, R62). -/
theorem writeWord_sameFlags (s : State) {sp : Space} {i : Nat} (h : ¬ (sp = 0#3 ∧ (i = 3 ∨ i = 4 ∨ i = 5))) (v : Word) :
    SameFlags s (s.writeWord sp i v) := by
  rw [State.writeWord]
  by_cases hm : s.mapped sp i = true
  · rw [if_pos hm]
    by_cases hreg : sp = spREG
    · rw [if_pos hreg]; exact writeReg_sameFlags s (by simpa [hreg, spREG] using h) v
    · rw [if_neg hreg]; split_ifs <;> exact ⟨rfl, rfl, rfl⟩
  · rw [if_neg hm]; exact ⟨rfl, rfl, rfl⟩

theorem busTransaction_flags {s : State} {op : BusOp} {rest : List Turn} (ht : s.turns = .bus op :: rest) :
    FlagStep s ({ s with turns := rest }.busTransaction op) := by
  rcases busTransaction_cases { s with turns := rest } op with
    hb | ⟨n, r, hb⟩ | ⟨r, -, hb⟩ | ⟨sp, i, v, r, rfl, hr, hl, hb⟩ <;> rw [hb]
  · exact .keeps ⟨rfl, rfl, rfl⟩
  · exact .keeps ⟨rfl, rfl, rfl⟩
  · exact .keeps ⟨rfl, rfl, rfl⟩
  · by_cases hf : sp = 0#3 ∧ (i.toNat = 3 ∨ i.toNat = 4 ∨ i.toNat = 5)
    · obtain ⟨rfl, hi | hi | hi⟩ := hf
      · obtain rfl : i = 3#32 := BitVec.eq_of_toNat_eq hi
        exact .writesCtrl v rest ht rfl rfl rfl
      · obtain rfl : i = 4#32 := BitVec.eq_of_toNat_eq hi
        have idle : s.busy = false := by simpa using fun hbusy => hl ⟨hbusy, rfl⟩
        exact .issues v rest ht hr idle rfl rfl rfl rfl
      · obtain rfl : i = 5#32 := BitVec.eq_of_toNat_eq hi
        exact .writesStatus v rest ht rfl rfl rfl
    · obtain ⟨hbusy, hdone, hie⟩ := writeWord_sameFlags { s with turns := rest } hf v
      exact .keeps ⟨hbusy, hdone, hie⟩

/-- Every step treats the flags in one of these ways. -/
theorem step_flags {s t : State} (h : step s = .next t) : FlagStep s t := by
  rcases step_cases h with ⟨s₁, hm, -⟩ | ⟨op, rest, ht, rfl⟩ | ⟨b, rest, ht, rfl⟩
  · cases he : s.coreEnabled with
    | false =>
      rw [step_core_idle hm he] at h
      cases h
      rw [hm.eq_with_turns]
      exact .keeps ⟨rfl, rfl, rfl⟩
    | true =>
      have completed := step_core_completed hm he h
      obtain ⟨hb, hr⟩ := (coreEnabled_iff s).1 he
      exact .completes hm.turns hr hb completed.busy completed.done (completed.ie.trans hm.ie)
  · exact busTransaction_flags ht
  · exact .resets b rest ht rfl rfl rfl

/-! ### I_MAX -/

theorem writeWord_iMax (s : State) (sp : Space) (i : Nat) (v : Word) : (s.writeWord sp i v).iMax = s.iMax := by
  rcases writeWord_cases s sp i v with hw | hw | hw | hw | ⟨-, hw⟩ | ⟨-, hw⟩ | ⟨-, hw⟩ | ⟨-, hw⟩ | ⟨c, hw⟩ <;> rw [hw] <;> rfl

theorem busTransaction_iMax (s : State) (op : BusOp) : (s.busTransaction op).iMax = s.iMax := by
  rcases busTransaction_cases s op with hb | ⟨n, r, hb⟩ | ⟨r, -, hb⟩ | ⟨sp, i, v, r, -, -, -, hb⟩ <;> rw [hb]
  exact writeWord_iMax s sp i.toNat v

/-- No step changes I_MAX (R27). -/
theorem step_iMax {s t : State} (h : step s = .next t) : t.iMax = s.iMax := by
  rcases step_cases h with ⟨s₁, hm, ⟨-, rfl⟩ | ⟨-, i, -, hx⟩ | ⟨-, -, rfl⟩⟩ | ⟨op, rest, -, rfl⟩ | ⟨b, rest, -, rfl⟩
  · exact hm.iMax
  · exact (exec_completed hx).iMax.trans hm.iMax
  · exact hm.iMax
  · exact busTransaction_iMax { s with turns := rest } op
  · rfl

end Sys2Proof.Machine
end

section
/-! SUPPORT. The words of a code table entry after a write (10_state.md R38). -/

namespace Sys2Proof.Machine

/-- META bit by bit (R38). -/
theorem metaWord_getLsbD (e : CTEntry) {k : Nat} (hk : k < 32) :
    e.metaWord.getLsbD k = if k < 8 then e.len.getLsbD k else if k = 31 then e.valid else false := by
  rw [CTEntry.metaWord]
  change BitVec.getLsbD (w := 1 + 23 + 8) (_ ++ _) k = _
  simp only [BitVec.getLsbD_append, BitVec.getLsbD_ofBool, BitVec.getLsbD_zero]
  by_cases h₈ : k < 8
  · rw [if_pos h₈, if_pos h₈]
  · by_cases h₃₁ : k = 31
    · simp [h₃₁]
    · simp [h₈, h₃₁, show k - 8 < 23 by omega]

/-- The bits of META that are not reserved (R38). -/
theorem metaMask_getLsbD : ∀ k < 32, (0x800000FF#32).getLsbD k = (decide (k < 8) || decide (k = 31)) := by decide

/-- META written and read back: VALID and LEN, the reserved bits 0 (R38). -/
theorem metaWord_setWord (e : CTEntry) (v : Word) : (e.setWord 0 v).metaWord = v &&& 0x800000FF#32 := by
  apply BitVec.eq_of_getLsbD_eq
  intro k hk
  rw [metaWord_getLsbD _ hk, BitVec.getLsbD_and, metaMask_getLsbD k hk, CTEntry.setWord, if_pos rfl]
  by_cases h₈ : k < 8
  · simp [h₈]
  · by_cases h₃₁ : k = 31
    · subst h₃₁; simp
    · simp [h₈, h₃₁]

/-- A CODE word read after a write of a CODE word (R38). -/
theorem codeWord_setCodeWord (e : CTEntry) {j k : Nat} (hj : j < 8) (hk : k < 8) (v : Word) :
    (e.setCodeWord j v).codeWord k = if k = j then v else e.codeWord k := by
  ext b hb
  rw [CTEntry.codeWord, BitVec.getElem_extractLsb', setCodeWord_getLsbD _ _ _ _ (by omega)]
  by_cases h : k = j
  · subst h; simp [hb, BitVec.getLsbD_eq_getElem]
  · rw [if_neg (by omega), if_neg h, CTEntry.codeWord, BitVec.getElem_extractLsb']

theorem word_code (e : CTEntry) {w : Nat} (h₂ : 2 ≤ w) (h₁₀ : w < 10) : e.word w = e.codeWord (w - 2) := by
  rw [CTEntry.word, if_neg (by omega), if_neg (by omega), if_pos h₁₀]

theorem word_reserved (e : CTEntry) {w : Nat} (h : 10 ≤ w) : e.word w = 0#32 := by
  rw [CTEntry.word, if_neg (by omega), if_neg (by omega), if_neg (by omega)]

theorem setWord_code (e : CTEntry) {w : Nat} (h₂ : 2 ≤ w) (h₁₀ : w < 10) (v : Word) :
    e.setWord w v = e.setCodeWord (w - 2) v := by
  rw [CTEntry.setWord, if_neg (by omega), if_neg (by omega), if_pos h₁₀]

/-- A word number is that of META, of FREQ, of a CODE word or of a reserved word (R38). -/
theorem wordNumber_cases (w : Nat) : w = 0 ∨ w = 1 ∨ (2 ≤ w ∧ w < 10) ∨ 10 ≤ w := by omega

/-- A word of an entry, read after a write of it: its named bits are the written ones, its reserved bits 0 (R38). -/
theorem word_setWord_self (e : CTEntry) (w : Nat) (v : Word) :
    (e.setWord w v).word w = if w = 0 then v &&& 0x800000FF#32 else if w < 10 then v else 0#32 := by
  rcases wordNumber_cases w with rfl | rfl | ⟨h₂, h₁₀⟩ | h
  · exact metaWord_setWord e v
  · rfl
  · rw [setWord_code e h₂ h₁₀, word_code _ h₂ h₁₀, codeWord_setCodeWord e (by omega) (by omega), if_pos rfl,
      if_neg (by omega), if_pos h₁₀]
  · rw [word_reserved _ h, if_neg (by omega), if_neg (by omega)]

/-- Every other word of the entry reads as before (R38). -/
theorem word_setWord_ne (e : CTEntry) {w w' : Nat} (hne : w' ≠ w) (v : Word) :
    (e.setWord w v).word w' = e.word w' := by
  rcases wordNumber_cases w with rfl | rfl | ⟨h₂, h₁₀⟩ | h
  · simp only [CTEntry.word, if_neg hne]; rfl
  · simp only [CTEntry.word, if_neg hne]; rfl
  · rw [setWord_code e h₂ h₁₀]
    rcases wordNumber_cases w' with rfl | rfl | ⟨h₂', h₁₀'⟩ | h'
    · rfl
    · rfl
    · rw [word_code _ h₂' h₁₀', word_code _ h₂' h₁₀', codeWord_setCodeWord e (by omega) (by omega), if_neg (by omega)]
    · rw [word_reserved _ h', word_reserved _ h']
  · rw [CTEntry.setWord_reserved e h]

/-- A CODE word written: bit `b` of the word is bit `32 × j + b` of CODE (R38). -/
theorem code_setWord (e : CTEntry) {w : Nat} (h₂ : 2 ≤ w) (h₁₀ : w < 10) (v : Word) {b : Nat} (hb : b < 32) :
    (e.setWord w v).code.getLsbD (32 * (w - 2) + b) = v.getLsbD b := by
  rw [setWord_code e h₂ h₁₀, setCodeWord_getLsbD _ _ _ _ (by omega), if_pos (by omega), Nat.add_sub_cancel_left]

/-- The word a CT index reads: word `k % 16` of the entry of symbol `k / 16`, and 0 above the space (R38, R64). -/
theorem readWord_ct (s : State) (k : Nat) :
    s.readWord 4#3 k = if k < 4096 then (s.entry (ctSymbol k)).word (k % 16) else 0#32 := by
  simp [State.readWord, spREG, spIBUF, spPBUF, spOBUF, ctStride]

theorem ctSymbol_toNat {k : Nat} (hk : k < 4096) : (ctSymbol k).toNat = k / 16 := by
  rw [ctSymbol, ctStride, BitVec.toNat_ofNat]
  omega

/-- A host write of word `w` of the entry of `x` while idle replaces that entry and leaves everything else (R38). -/
theorem step_write_ct {s : State} {x : Symbol} {w : Nat} {v : Word} {rest : List Turn} (hb : s.busy = false)
    (hr : s.rst = false) (hw : w < 16)
    (h : s.turns = .bus (.write 4#3 (BitVec.ofNat 32 (16 * x.toNat + w)) v) :: rest) :
    step s = .next { s with
      turns := rest, trace := ⟨.w, 4#3, BitVec.ofNat 32 (16 * x.toNat + w), v⟩ :: s.trace
      ct := s.ct.set x.toNat ((s.entry x).setWord w v) x.isLt } := by
  have index : (BitVec.ofNat 32 (16 * x.toNat + w)).toNat = 16 * x.toNat + w := by
    rw [BitVec.toNat_ofNat]; omega
  rw [step_write_idle hb hr h, index, writeWord_ct _ x w hw]
  rfl

/-- The words of CT where the entry of `x` has word `w` written and every other entry is as before: the word itself reads
by its layout, every other word as before (R38). -/
theorem readWord_ct_of_entry {s t : State} {x : Symbol} {w : Nat} {v : Word} (hw : w < 16)
    (entry : ∀ y, t.entry y = if x = y then (s.entry x).setWord w v else s.entry y) :
    t.readWord 4#3 (16 * x.toNat + w) = (if w = 0 then v &&& 0x800000FF#32 else if w < 10 then v else 0#32) ∧
    ∀ k, k ≠ 16 * x.toNat + w → t.readWord 4#3 k = s.readWord 4#3 k := by
  constructor
  · have symbol : ctSymbol (16 * x.toNat + w) = x :=
      BitVec.eq_of_toNat_eq ((ctSymbol_toNat (by omega)).trans (by omega))
    rw [readWord_ct, if_pos (by omega), symbol, entry, if_pos rfl, show (16 * x.toNat + w) % 16 = w by omega,
      word_setWord_self]
  · intro k hk
    rw [readWord_ct, readWord_ct]
    by_cases hr : k < 4096
    · rw [if_pos hr, if_pos hr, entry]
      by_cases hx : x = ctSymbol k
      · have : x.toNat = k / 16 := hx ▸ ctSymbol_toNat hr
        rw [if_pos hx, word_setWord_ne _ (by omega), hx]
      · rw [if_neg hx]
    · rw [if_neg hr, if_neg hr]

end Sys2Proof.Machine
end

section
/-! SUPPORT. The statements about the state (10_state.md) and the step, settled. -/

namespace Sys2Proof.Machine

/-- Settles O41: the locked locations are those of R67, and every other write but CTRL's and STATUS's changes nothing. -/
theorem busyWritesAreDropped : Obligations.BusyWritesAreDropped := by
  intro s sp i v rest hb hr ht locked
  have hlocked : s.lockedWhileBusy sp i.toNat = true ↔ locked := by
    simpa [BitVec.toNat_eq_nat] using lockedWhileBusy_iff s sp i.toNat
  refine ⟨fun h => step_write_locked hr hb (hlocked.2 h) ht, fun h hi => step_write_ignored hr ?_ hi ht⟩
  rwa [← Bool.not_eq_true, hlocked]

/-- Settles O44: the words of the registers, and that no step changes I_MAX. -/
theorem identityRegistersAreConstant : Obligations.IdentityRegistersAreConstant := by
  intro s t h
  have hMax := step_iMax h
  refine ⟨readWord_reg t (by decide), readWord_reg t (by decide), ?_, hMax⟩
  rw [readWord_reg t (by decide), State.regWord, hMax]

/-- Settles O46: the entry written, and the words of CT that follow from it. -/
theorem codeTableWordsFollowTheLayout : Obligations.CodeTableWordsFollowTheLayout := by
  intro s x w v rest hb hr hw ht
  let u : State := { s with
    turns := rest, trace := ⟨.w, 4#3, BitVec.ofNat 32 (16 * x.toNat + w), v⟩ :: s.trace
    ct := s.ct.set x.toNat ((s.entry x).setWord w v) x.isLt }
  have entry : ∀ y, u.entry y = if x = y then (s.entry x).setWord w v else s.entry y := entry_set s x _
  have written : u.entry x = (s.entry x).setWord w v := by rw [entry, if_pos rfl]
  refine ⟨u, step_write_ct hb hr hw ht, rfl, ?_, ?_, ?_, readWord_ct_of_entry hw entry⟩
  · rintro rfl; rw [written]; exact ⟨rfl, rfl⟩
  · rintro rfl; rw [written]; rfl
  · intro h₂ h₁₀ b hb; rw [written, code_setWord _ h₂ h₁₀ v hb]

/-- Settles O48: of the ways a step can treat the flags, only an issue sets BUSY, and only a completion or a level of the
reset input clears it. -/
theorem busyChangesOnlyAtIssueAndCompletion : Obligations.BusyChangesOnlyAtIssueAndCompletion := by
  intro s t h
  constructor
  · intro idle becomes_busy
    cases step_flags h with
    | keeps same => simp_all [same.busy]
    | completes move not_reset was_busy busy done ie => simp_all
    | issues v rest move not_reset was_idle pend busy done ie => exact ⟨v, rest, move, not_reset, pend, done⟩
    | writesCtrl v rest move busy done ie => simp_all
    | writesStatus v rest move busy done ie => simp_all
    | resets b rest move busy done ie => simp_all
  · intro was_busy becomes_idle
    cases step_flags h with
    | keeps same => simp_all [same.busy]
    | completes move not_reset was_busy busy done ie => exact .inl ⟨move, not_reset, done⟩
    | issues v rest move not_reset was_idle pend busy done ie => simp_all
    | writesCtrl v rest move busy done ie => simp_all
    | writesStatus v rest move busy done ie => simp_all
    | resets b rest move busy done ie => exact .inr ⟨b, rest, move⟩

/-- Settles O50: what each named event leaves of DONE and IE, and the ways a step can treat them. -/
theorem interruptRisesAndFallsAsTheRuleSays : Obligations.InterruptRisesAndFallsAsTheRuleSays := by
  intro s t h
  refine ⟨rfl, ?_, ?_, ?_, ?_, ?_, ?_, ?_⟩
  · intro hr hb hie move
    obtain ⟨s₁, hm⟩ := exists_coreMovesFrom move
    have completed := step_core_completed hm ((coreEnabled_iff s).2 ⟨hb, hr⟩) h
    rw [State.irq, completed.done, completed.ie, hm.ie, hie]; rfl
  · intro v rest hr ht
    cases (step_write_ctrl hr ht).symm.trans h
    exact ⟨fun hv hd => Bool.and_eq_true_iff.2 ⟨hd, hv⟩, fun hv => Bool.and_eq_false_iff.2 (.inr hv)⟩
  · intro v rest hr ht hv
    cases (step_write_status hr ht).symm.trans h
    simp [State.irq, hv]
  · intro v rest hr ht hb
    cases (step_write_cmd hr hb ht).symm.trans h
    rfl
  · intro b rest ht
    cases (step_rst ht).symm.trans h
    rfl
  · intro low high
    simp only [State.irq, Bool.and_eq_true, Bool.and_eq_false_iff] at low high
    cases step_flags h with
    | keeps same => simp_all [same.done, same.ie]
    | completes move not_reset was_busy busy done ie => exact .inl ⟨was_busy, busy, ie ▸ high.2⟩
    | issues v rest move not_reset was_idle pend busy done ie => simp_all
    | writesCtrl v rest move busy done ie => exact .inr ⟨v, rest, move, ie ▸ high.2, done ▸ high.1⟩
    | writesStatus v rest move busy done ie => simp_all
    | resets b rest move busy done ie => simp_all
  · intro high low
    simp only [State.irq, Bool.and_eq_true, Bool.and_eq_false_iff] at low high
    cases step_flags h with
    | keeps same => simp_all [same.done, same.ie]
    | completes move not_reset was_busy busy done ie => simp_all
    | issues v rest move not_reset was_idle pend busy done ie => exact .inr (.inl ⟨v, rest, move, was_idle⟩)
    | writesCtrl v rest move busy done ie => exact .inr (.inr (.inl ⟨v, rest, move, by simp_all⟩))
    | writesStatus v rest move busy done ie => exact .inl ⟨v, rest, move, by simp_all⟩
    | resets b rest move busy done ie => exact .inr (.inr (.inr ⟨b, rest, move⟩))

/-- Settles O4: the CORE's move, with its turn next or none listed. -/
theorem stepRunsTheDecodedCommand : Obligations.StepRunsTheDecodedCommand := by
  intro s i hb hr hd
  have he := (coreEnabled_iff s).2 ⟨hb, hr⟩
  exact ⟨fun ht => step_core_command (.inl ⟨ht, rfl⟩) he hd, fun rest ht => step_core_command (.inr ⟨rest, ht, rfl⟩) he hd⟩

/-- Settles O9: the CORE's move where it has no step. -/
theorem idleCoreKeepsAllState : Obligations.IdleCoreKeepsAllState := by
  intro s hb
  have he : s.coreEnabled = false := by simp [State.coreEnabled, hb]
  exact ⟨fun ht => step_core_idle (.inl ⟨ht, rfl⟩) he, fun rest ht => step_core_idle (.inr ⟨rest, ht, rfl⟩) he⟩

/-- A command's word decodes to the command (R94). -/
theorem decode_encode (i : Instr) : decode (encode i) = .ok i := by
  cases i <;> decide

/-- A 32-bit word of the opcode table is taken whole (log 12). -/
theorem tableWord_toNat (v : Word) : tableWord 32 v.toNat = v := by
  rw [tableWord, Nat.mod_eq_of_lt v.isLt, BitVec.ofNat_toNat, BitVec.setWidth_eq]

/-- Settles O6: the placed word is the pending one, and the CORE has the move. -/
theorem placedWordRunsNext : Obligations.PlacedWordRunsNext := by
  intro s i
  rw [State.withFetchWord, tableWord_toNat]
  exact step_core_command (.inr ⟨s.turns, rfl, rfl⟩) rfl (decode_encode i)

/-- Settles O7: CMD is locked while busy, issues while idle, and has no word of its own. -/
theorem cmdWriteIssuesTheCommand : Obligations.CmdWriteIssuesTheCommand := fun s _ _ hr ht =>
  ⟨fun hb => step_write_cmd hr hb ht, fun hb => step_write_locked hr hb rfl ht, readWord_reg s (by decide)⟩

/-- Settles O40: the steps of a CTRL and of a STATUS write, whatever BUSY is. -/
theorem controlAndStatusWritesAreAlwaysPerformed : Obligations.ControlAndStatusWritesAreAlwaysPerformed := by
  intro s v rest hr
  refine ⟨step_write_ctrl hr, fun ht => ?_⟩
  rw [step_write_status hr ht]
  cases v.getLsbD 1 <;> cases v.getLsbD 2 <;> simp

/-- Settles O43: each register's word, and STATUS bit by bit. -/
theorem registerWordsFollowTheMap : Obligations.RegisterWordsFollowTheMap := by
  intro s
  obtain ⟨err, reserved₃, reserved₁₂⟩ := statusWord_fields s
  simp only [readWord_reg, Nat.reduceLT, State.regWord, ctrlWord_eq, statusWord_getLsbD, err, reserved₃, reserved₁₂]
  simp [Config.idWord, Config.versionWord]

/-- STATUS reads 0 at reset (R48). -/
theorem resetWith_statusWord (n : Nat) : (State.resetWith n).statusWord = 0#32 := by
  simp [State.statusWord, State.resetWith]

/-- Settles O51: the fields of the reset state, STATUS and the entries. -/
theorem resetStateHoldsTheResetValues : Obligations.ResetStateHoldsTheResetValues := by
  intro n
  refine ⟨rfl, rfl, rfl, ?_, rfl, rfl, rfl, rfl, rfl, rfl, rfl, rfl, rfl, fun x => ?_⟩
  · rw [readWord_reg _ (by decide)]; exact resetWith_statusWord n
  · simp [State.entry, State.resetWith, CTEntry.zero]

end Sys2Proof.Machine
end

section
/-! SUPPORT. The host port (20_memory.md): what a read answers, the reserved locations, the elements of the buffers, and what
a transaction leaves alone while the CORE is busy. -/

namespace Sys2Proof.Machine

/-! ### Reads -/

/-- Where R67 does not leave the word free a read answers the location's word and changes nothing (R61, R67). -/
theorem busRead_eq_readWord {s : State} {sp : Space} {i : Nat}
    (h : s.busy = false ∨ s.mapped sp i = false ∨ exactWhileBusy sp i = true) :
    s.busRead sp i = (s.readWord sp i, s) := by
  rw [State.busRead, if_neg]
  rcases h with h | h | h <;> simp [h]

/-- A host read out of reset whose word R67 does not leave free, with its record (R61, R67). -/
theorem step_read_exact {s : State} {sp : Space} {i : Word} {rest : List Turn} (hr : s.rst = false)
    (h : s.busy = false ∨ s.mapped sp i.toNat = false ∨ exactWhileBusy sp i.toNat = true)
    (ht : s.turns = .bus (.read sp i) :: rest) :
    step s = .next { s with turns := rest, trace := ⟨.r, sp, i, s.readWord sp i.toNat⟩ :: s.trace } := by
  rw [step_bus ht, State.busTransaction, if_neg (by simp [hr])]
  simp only [busRead_eq_readWord (s := { s with turns := rest }) h]
  rfl

/-- ID, VERSION, CAP_IMAX, CTRL and STATUS (R67). -/
theorem exactWhileBusy_reg {i : Word} (h : i = 0#32 ∨ i = 1#32 ∨ i = 2#32 ∨ i = 3#32 ∨ i = 5#32) :
    exactWhileBusy 0#3 i.toNat = true := by
  rcases h with rfl | rfl | rfl | rfl | rfl <;> rfl

/-! ### Reserved locations -/

/-- The locations that are not mapped: an index outside its space's range, and spaces 5 to 7 (R63, R64). -/
theorem mapped_eq_false_iff (s : State) (sp : Space) (i : Nat) :
    s.mapped sp i = false ↔
      (sp = 0#3 ∧ 14 ≤ i) ∨ (sp = 1#3 ∧ s.iMax ≤ i) ∨ (sp = 2#3 ∧ 8 * s.iMax ≤ i) ∨ (sp = 3#3 ∧ 8 * s.iMax ≤ i) ∨
        (sp = 4#3 ∧ 4096 ≤ i) ∨ 5#3 ≤ sp := by
  rcases space_cases sp with rfl | rfl | rfl | rfl | rfl | rfl | rfl | rfl <;>
    simp [State.mapped, State.spaceSize, spREG, spIBUF, spPBUF, spOBUF, spCT, regWords, ctWords, Config.oMax, Config.pMax]

theorem readWord_unmapped {s : State} {sp : Space} {i : Nat} (h : s.mapped sp i = false) : s.readWord sp i = 0#32 := by
  simp [State.readWord, h]

theorem lockedWhileBusy_unmapped {s : State} {sp : Space} {i : Nat} (h : s.mapped sp i = false) :
    s.lockedWhileBusy sp i = false := by
  simp [State.lockedWhileBusy, h]

/-- A host write of a reserved location changes nothing (R64). -/
theorem step_write_unmapped {s : State} {sp : Space} {i v : Word} {rest : List Turn} (hr : s.rst = false)
    (h : s.mapped sp i.toNat = false) (ht : s.turns = .bus (.write sp i v) :: rest) :
    step s = .next { s with turns := rest, trace := ⟨.w, sp, i, v⟩ :: s.trace } := by
  refine step_write_ignored hr (lockedWhileBusy_unmapped h) ?_ ht
  rintro ⟨rfl, rfl | rfl⟩ <;> cases h

/-! ### Elements of the buffers -/

/-- An element read after one was written: the written value, and every other element as it was (R65). -/
theorem element_set (s : State) (m : Memory) (i : Nat) (b : Byte) (sp : Space) (j : Nat) :
    s.element (m.set i b) sp j = if i = j then b else s.element m sp j := by
  rw [State.element_eq, State.element_eq, Memory.get?_set]
  split <;> rfl

theorem readWord_ibuf {s : State} {i : Nat} (hi : i < s.iMax) : s.readWord 1#3 i = (s.readIBUF i).setWidth 32 := by
  rw [State.readWord, if_pos (by simpa using hi)]; rfl

theorem readWord_pbuf {s : State} {i : Nat} (hi : i < 8 * s.iMax) : s.readWord 2#3 i = (s.readPBUF i).setWidth 32 := by
  rw [State.readWord, if_pos (by simpa using hi)]; rfl

@[simp] theorem mapped_obuf (s : State) (i : Nat) : s.mapped 3#3 i = decide (i < 8 * s.iMax) := rfl

theorem readWord_obuf {s : State} {i : Nat} (hi : i < 8 * s.iMax) : s.readWord 3#3 i = (s.readOBUF i).setWidth 32 := by
  rw [State.readWord, if_pos (by simpa using hi)]; rfl

section
variable {s : State} {i v : Word} {rest : List Turn} (hb : s.busy = false) (hr : s.rst = false)
include hb hr

/-- A host write of IBUF while idle stores bits [7:0] in one element (R39, R65). -/
theorem step_write_ibuf (hi : i.toNat < s.iMax) (ht : s.turns = .bus (.write 1#3 i v) :: rest) :
    step s = .next { s with
      turns := rest, trace := ⟨.w, 1#3, i, v⟩ :: s.trace, ibuf := s.ibuf.set i.toNat (v.extractLsb' 0 8) } := by
  rw [step_write_idle hb hr ht, State.writeWord, if_pos (by simpa using hi),
    ← BitVec.setWidth_eq_extractLsb' (show 8 ≤ 32 by decide)]
  rfl

/-- A host write of PBUF while idle stores bits [7:0] in one element (R40, R65). -/
theorem step_write_pbuf (hi : i.toNat < 8 * s.iMax) (ht : s.turns = .bus (.write 2#3 i v) :: rest) :
    step s = .next { s with
      turns := rest, trace := ⟨.w, 2#3, i, v⟩ :: s.trace, pbuf := s.pbuf.set i.toNat (v.extractLsb' 0 8) } := by
  rw [step_write_idle hb hr ht, State.writeWord, if_pos (by simpa using hi),
    ← BitVec.setWidth_eq_extractLsb' (show 8 ≤ 32 by decide)]
  rfl

end

/-- A host write of OBUF changes nothing (R41). -/
theorem step_write_obuf {s : State} {i v : Word} {rest : List Turn} (hr : s.rst = false)
    (ht : s.turns = .bus (.write 3#3 i v) :: rest) :
    step s = .next { s with turns := rest, trace := ⟨.w, 3#3, i, v⟩ :: s.trace } :=
  step_write_ignored hr (by simp [← Bool.not_eq_true, lockedWhileBusy_iff]) (by simp) ht

/-! ### Transactions while busy -/

/-- What no transaction changes while the CORE is busy: BUSY, PEND, the operands of the commands, and the model's own fields
that say how the run goes on (R67, R77). -/
structure KeptWhileBusy (s t : State) : Prop where
  busy : t.busy = s.busy
  pend : t.pend = s.pend
  iLen : t.iLen = s.iLen
  pLen : t.pLen = s.pLen
  ct : t.ct = s.ct
  ibuf : t.ibuf = s.ibuf
  pbuf : t.pbuf = s.pbuf
  fill : t.fill = s.fill
  rst : t.rst = s.rst
  turns : t.turns = s.turns

theorem KeptWhileBusy.readIBUF {s t : State} (h : KeptWhileBusy s t) (j : Nat) : t.readIBUF j = s.readIBUF j := by
  simp only [State.readIBUF, State.element_eq, h.ibuf, h.fill]

theorem KeptWhileBusy.readPBUF {s t : State} (h : KeptWhileBusy s t) (j : Nat) : t.readPBUF j = s.readPBUF j := by
  simp only [State.readPBUF, State.element_eq, h.pbuf, h.fill]

/-- The writes performed while busy are CTRL's and STATUS's, or change nothing (R67). -/
theorem writeWord_keptWhileBusy {s : State} {sp : Space} {i : Nat} (hl : s.lockedWhileBusy sp i = false) (v : Word) :
    KeptWhileBusy s (s.writeWord sp i v) := by
  by_cases hc : sp = 0#3 ∧ (i = 3 ∨ i = 5)
  · obtain ⟨rfl, rfl | rfl⟩ := hc <;> constructor <;> rfl
  · rw [writeWord_unlocked hl hc]; constructor <;> rfl

theorem busTransaction_keptWhileBusy {s : State} (hb : s.busy = true) (op : BusOp) :
    KeptWhileBusy s (s.busTransaction op) := by
  rcases busTransaction_cases s op with h | ⟨n, r, h⟩ | ⟨r, -, h⟩ | ⟨sp, i, v, r, -, -, hl, h⟩ <;> rw [h]
  · constructor <;> rfl
  · constructor <;> rfl
  · constructor <;> rfl
  · have unlocked : s.lockedWhileBusy sp i.toNat = false := by simpa [hb] using hl
    exact { writeWord_keptWhileBusy unlocked v with }

/-! ### The run of a busy CORE -/

/-- The CORE's move never stops (R218). -/
theorem coreMove_answers (s : State) : ∃ t, coreMove s = .next t := by
  cases he : s.coreEnabled with
  | false => exact ⟨s, coreMove_idle he⟩
  | true =>
    cases hd : decode s.pend with
    | ok i => rw [coreMove_command he hd]; exact exec_answers i s
    | error e => exact ⟨_, coreMove_illegal he hd⟩

/-- A busy CORE out of reset that has the move completes in that step (R45, R218). -/
theorem exists_step_core_completed {s s₁ : State} (hm : CoreMovesFrom s s₁) (he : s.coreEnabled = true) :
    ∃ t, step s = .next t ∧ Completed s₁ t := by
  obtain ⟨t, ht⟩ := coreMove_answers s₁
  have hs : step s = .next t := (step_of_coreMovesFrom hm).trans ht
  exact ⟨t, hs, step_core_completed hm he hs⟩

/-- Settles O38, by induction on the transactions: each leaves BUSY, the reset input and the turns after it, and the CORE's
move completes. -/
theorem busyCoreCompletesAfterAnyHostTurns : Obligations.BusyCoreCompletesAfterAnyHostTurns := by
  intro s ops rest hb hr ht
  induction ops generalizing s with
  | nil =>
    obtain ⟨t, hs, completed⟩ :=
      exists_step_core_completed (.inr ⟨rest, ht, rfl⟩) ((coreEnabled_iff s).2 ⟨hb, hr⟩)
    exact ⟨t, stepsTo_one hs, completed.busy, completed.done, completed.turns⟩
  | cons op ops ih =>
    have kept := busTransaction_keptWhileBusy (s := { s with turns := ops.map Turn.bus ++ .core :: rest }) hb op
    obtain ⟨t, steps, idle, done, turns⟩ := ih _ (kept.busy.trans hb) (kept.rst.trans hr) kept.turns
    exact ⟨t, ⟨_, step_bus ht, steps⟩, idle, done, turns⟩

/-- Settles O49: the step is a transaction while busy. -/
theorem operandsCannotChangeWhileBusy : Obligations.OperandsCannotChangeWhileBusy := by
  intro s t op rest hb ht h
  cases (step_bus ht).symm.trans h
  have kept := busTransaction_keptWhileBusy (s := { s with turns := rest }) hb op
  exact ⟨kept.busy.trans hb, kept.pend, kept.iLen, kept.pLen, kept.ct, kept.readIBUF, kept.readPBUF⟩

/-- Settles O42: a read is exact, or it is of a location R67 leaves free while busy. -/
theorem readsChangeNothingAndAreExact : Obligations.ReadsChangeNothingAndAreExact := by
  intro s sp i rest hr ht
  by_cases determined : s.busy = false ∨ s.mapped sp i.toNat = false ∨ exactWhileBusy sp i.toNat = true
  · exact ⟨s.readWord sp i.toNat, s.draws, step_read_exact hr determined ht, fun _ => ⟨rfl, rfl⟩, fun _ _ => ⟨rfl, rfl⟩⟩
  · obtain ⟨w, n, hs⟩ := step_read hr ht
    refine ⟨w, n, hs, fun idle => absurd (.inl idle) determined, ?_⟩
    rintro rfl hi
    exact absurd (.inr (.inr (exactWhileBusy_reg hi))) determined

/-- Settles O45: the steps of the buffer writes, and an element read after it was written. -/
theorem bufferWritesStoreOneElement : Obligations.BufferWritesStoreOneElement := by
  intro s i v rest hb hr
  refine ⟨fun ht hi => ⟨_, step_write_ibuf hb hr hi ht, rfl, ?_, fun j hj => ?_⟩,
    fun ht hi => ⟨_, step_write_pbuf hb hr hi ht, rfl, ?_, fun j hj => ?_⟩, step_write_obuf hr, readWord_obuf⟩
  · rw [readWord_ibuf (by exact hi), State.readIBUF, element_set, if_pos rfl]
  · rw [State.readIBUF, element_set, if_neg hj.symm]; rfl
  · rw [readWord_pbuf (by exact hi), State.readPBUF, element_set, if_pos rfl]
  · rw [State.readPBUF, element_set, if_neg hj.symm]; rfl

/-- Settles O47: the reserved locations are those that are not mapped. -/
theorem reservedLocationsReadZeroAndIgnoreWrites : Obligations.ReservedLocationsReadZeroAndIgnoreWrites := by
  intro s sp i v rest hr reserved
  have unmapped := (mapped_eq_false_iff s sp i.toNat).2 reserved
  refine ⟨fun ht => ?_, step_write_unmapped hr unmapped⟩
  rw [step_read_exact hr (.inr (.inl unmapped)) ht, readWord_unmapped unmapped]

end Sys2Proof.Machine
end

section
/-! SUPPORT. The decoder of command words, case by case (30_encoding.md R93 to R95), and what DECOMPRESS writes at most
(R92; 42_decompress.md R170). -/

namespace Sys2Proof

/-- Everything the decoder can answer: RSV is not 0, or OP is a command's, 0, or one that no command has (R93 to R95). -/
theorem decode_cases (v : Word) :
    (rsvField v ≠ 0#24 ∧ decode v = .error .reservedNonzero) ∨
    (rsvField v = 0#24 ∧ ∃ i, opField v = opcode i ∧ decode v = .ok i) ∨
    (rsvField v = 0#24 ∧ opField v = 0#8 ∧ decode v = .error .opcodeZero) ∨
    (rsvField v = 0#24 ∧ 5#8 ≤ opField v ∧ decode v = .error .opcodeUnassigned) := by
  rw [decode, ite_not]
  split_ifs with hr h₁ h₂ h₃ h₄ h₀
  · exact .inr (.inl ⟨hr, .compress, h₁, rfl⟩)
  · exact .inr (.inl ⟨hr, .decompress, h₂, rfl⟩)
  · exact .inr (.inl ⟨hr, .checkTable, h₃, rfl⟩)
  · exact .inr (.inl ⟨hr, .clear, h₄, rfl⟩)
  · exact .inr (.inr (.inl ⟨hr, h₀, rfl⟩))
  · exact .inr (.inr (.inr ⟨hr, by bv_omega, rfl⟩))
  · exact .inl ⟨hr, rfl⟩

/-- A word is the command's own when its fields are (R90, R94). -/
theorem eq_encode {v : Word} {i : Instr} (hr : rsvField v = 0#24) (ho : opField v = opcode i) : v = encode i := by
  rw [word_eq_fields v, hr, ho, encode]

/-- Every OP of a command is 0x01 to 0x04 (R94). -/
theorem opcode_range (i : Instr) : opcode i ≠ 0#8 ∧ ¬ 5#8 ≤ opcode i := by
  cases i <;> decide

end Sys2Proof

namespace Sys2Proof.Machine

/-- Settles O1, by evaluation of the decoder. -/
theorem tableWordsDecodeToTheirCommands : Obligations.TableWordsDecodeToTheirCommands := by
  unfold Obligations.TableWordsDecodeToTheirCommands
  decide

/-- Settles O2: a word that decodes has the fields of its command, so it is the command's word. -/
theorem legalWordIsTheEncodingOfItsCommand : Obligations.LegalWordIsTheEncodingOfItsCommand := by
  intro v i
  constructor
  · intro h
    rcases decode_cases v with ⟨-, hd⟩ | ⟨hr, j, ho, hd⟩ | ⟨-, -, hd⟩ | ⟨-, -, hd⟩ <;> cases hd.symm.trans h
    exact eq_encode hr ho
  · rintro rfl
    exact decode_encode i

/-- Settles O3: the decoder's four answers exclude each other, and so do their conditions on the fields. -/
theorem illegalWordsAreRejectedByName : Obligations.IllegalWordsAreRejectedByName := by
  intro v
  change (_ ↔ rsvField v ≠ 0#24) ∧ (_ ↔ rsvField v = 0#24 ∧ opField v = 0#8) ∧ (_ ↔ rsvField v = 0#24 ∧ 5#8 ≤ opField v)
  rcases decode_cases v with ⟨hr, hd⟩ | ⟨hr, i, ho, hd⟩ | ⟨hr, ho, hd⟩ | ⟨hr, ho, hd⟩
  · simp [hd, hr]
  · simpa [hd, hr, ho] using opcode_range i
  · simp [hd, hr, ho]
  · have : opField v ≠ 0#8 := by rintro h; simp [h] at ho
    simp [hd, hr, ho, this]

/-- Settles O28: an error completion writes no output, and a success writes its symbols from OBUF[0] on. -/
theorem decompressWritesOnlyItsOutput : Obligations.DecompressWritesOnlyItsOutput := by
  intro s
  cases h : s.decompressResult with
  | error e =>
    exact ⟨s.raise e, exec_decompress_error h, rfl, fun _ => ⟨rfl, fun _ => rfl⟩, fun h₀ => absurd h₀ e.code_ne_zero,
      fun _ => rfl, fun _ => rfl⟩
  | ok out =>
    refine ⟨(s.decompressOutputs out).succeed, exec_decompress_ok h, rfl, fun h₀ => absurd rfl h₀,
      fun _ => ⟨decompressResult_ok_length h, fun j hj => ?_⟩, fun _ => rfl, fun _ => rfl⟩
    exact (readOBUF_decompressOutputs s out j).trans (dif_neg (Nat.not_lt.2 hj))

end Sys2Proof.Machine
end

section
/-! SUPPORT. The hexadecimal digits of a transaction record, written and read back (30_encoding.md R99). -/

namespace Sys2Proof.Machine

/-- The last `k` hexadecimal digits of a number, most significant first; `hexWord` writes eight of them. -/
def lastHexDigits : Nat → Nat → List Char
  | 0, _ => []
  | k + 1, n => hexDigit (n / 16 ^ k % 16) :: lastHexDigits k n

theorem hexWord_eq (v : Word) : hexWord v = lastHexDigits 8 v.toNat := rfl

@[simp] theorem hexWord_length (v : Word) : (hexWord v).length = 8 := rfl

/-- A digit written is read as its value (R97, R99). -/
theorem hexValue_hexDigit : ∀ n < 16, hexValue (hexDigit n) = some n := by decide

/-- Digits read on behind those that gave `acc`. -/
theorem digitsValue_lastHexDigits (k n acc : Nat) :
    digitsValue 16 acc (lastHexDigits k n) = some (16 ^ k * acc + n % 16 ^ k) := by
  induction k generalizing acc with
  | zero => simp [lastHexDigits, digitsValue, Nat.mod_one]
  | succ k ih =>
    have digit : n / 16 ^ k % 16 < 16 := Nat.mod_lt _ (by decide)
    simp only [lastHexDigits, digitsValue, hexValue_hexDigit _ digit, if_pos digit, ih, Nat.mod_pow_succ]
    congr 1
    ring

theorem hexWordOf_hexWord (v : Word) : hexWordOf (hexWord v) = some v := by
  rw [hexWordOf, if_pos (hexWord_length v), hexWord_eq, digitsValue_lastHexDigits, Nat.mul_zero, Nat.zero_add,
    show 16 ^ 8 = 2 ^ 32 from rfl, Nat.mod_eq_of_lt v.isLt, Option.map_some, BitVec.ofNat_toNat, BitVec.setWidth_eq]

theorem spaceOf_hexDigit : ∀ sp : Space, spaceOf (hexDigit sp.toNat) = some sp := by decide

/-- Settles O56: the letter, the space digit and the two words of the line are read back one by one. -/
theorem transactionRecordLineReadsBack : Obligations.TransactionRecordLineReadsBack := by
  rintro ⟨kind, space, index, data⟩
  have first : (hexWord index ++ ' ' :: hexWord data).take 8 = hexWord index := List.take_left' (hexWord_length index)
  have rest : (hexWord index ++ ' ' :: hexWord data).drop 8 = ' ' :: hexWord data := List.drop_left' (hexWord_length index)
  have second : (hexWord index ++ ' ' :: hexWord data).drop 9 = hexWord data := congrArg List.tail rest
  cases kind <;>
    simp only [BusRecord.line, recordOf, first, rest, second, spaceOf_hexDigit, hexWordOf_hexWord, List.head?_cons] <;> rfl

end Sys2Proof.Machine
end

section
/-! SUPPORT. The pseudo-instructions that load the input and an entry of the code table, run to their ends
(30_encoding.md R98). -/

namespace Sys2Proof.Machine

/-- A number that fits a word or a field is its value (R12). -/
theorem toNat_ofNat_of_lt {w n : Nat} (h : n < 2 ^ w) : (BitVec.ofNat w n).toNat = n := by
  rw [BitVec.toNat_ofNat, Nat.mod_eq_of_lt h]

/-! ### loadi -/

/-- Elements read after consecutive ones were written (R39 to R41). -/
theorem element_setFrom (s : State) (m : Memory) (start : Nat) (vs : List Byte) (sp : Space) (j : Nat) :
    s.element (m.setFrom start vs) sp j =
      if start ≤ j ∧ j < start + vs.length then vs.getD (j - start) 0#8 else s.element m sp j := by
  rw [State.element_eq, State.element_eq, Memory.get?_setFrom]
  split
  next h => simp [List.getElem?_eq_getElem (show j - start < vs.length by omega)]
  next => rfl

/-- A legal write of ILEN while idle (R32). -/
theorem step_write_iLen {s : State} {v : Word} {rest : List Turn} (hb : s.busy = false) (hr : s.rst = false)
    (hv : v.toNat ≤ s.iMax) (h : s.turns = .bus (.write 0#3 7#32 v) :: rest) :
    step s = .next { s with turns := rest, trace := ⟨.w, 0#3, 7#32, v⟩ :: s.trace, iLen := v.toNat } := by
  have written : State.writeWord { s with turns := rest } 0#3 7 v = { s with turns := rest, iLen := v.toNat } := if_pos hv
  rw [step_write_idle hb hr h, show (7#32).toNat = 7 from rfl, written]

/-- Bits [7:0] of the word that carries a symbol are the symbol (R65). -/
theorem extractLsb'_setWidth_symbol (c : Symbol) : (c.setWidth 32).extractLsb' 0 8 = c := by
  rw [← BitVec.setWidth_eq_extractLsb' (by decide), BitVec.setWidth_setWidth_of_le _ (by decide), BitVec.setWidth_eq]

/-- The turns that write consecutive elements of IBUF while idle (R39, R97). -/
theorem stepsTo_wrFrom_ibuf {s : State} {start : Nat} {cs : List Symbol} {rest : List Turn} (hb : s.busy = false)
    (hr : s.rst = false) (hMax : s.iMax < 2 ^ 32) (fits : start + cs.length ≤ s.iMax)
    (h : s.turns = wrFrom spIBUF start (cs.map (·.setWidth 32)) ++ rest) :
    ∃ r, StepsTo cs.length s { s with turns := rest, trace := r, ibuf := s.ibuf.setFrom start cs } := by
  induction cs generalizing s start with
  | nil => cases s; cases h; exact ⟨_, rfl⟩
  | cons c cs ih =>
    rw [List.length_cons] at fits
    have index : (BitVec.ofNat 32 start).toNat = start := toNat_ofNat_of_lt (by omega)
    obtain ⟨r₁, first⟩ : ∃ r, step s = .next { s with
        turns := wrFrom spIBUF (start + 1) (cs.map (·.setWidth 32)) ++ rest, trace := r, ibuf := s.ibuf.set start c } := by
      have written := step_write_ibuf hb hr (by rw [index]; omega) h
      rw [index, extractLsb'_setWidth_symbol] at written
      exact ⟨_, written⟩
    have fits' : start + 1 + cs.length ≤ s.iMax := by omega
    obtain ⟨r, others⟩ := ih (s := { s with trace := r₁, ibuf := s.ibuf.set start c, turns := _ }) hb hr hMax fits' rfl
    exact ⟨r, _, first, others⟩

/-- Settles O57: the writes of the elements, then the write of ILEN. -/
theorem loadiLoadsTheInput : Obligations.LoadiLoadsTheInput := by
  intro s cs rest hb hr hMax fits ht
  rw [Pseudo.turns, List.append_assoc] at ht
  obtain ⟨r, elements⟩ := stepsTo_wrFrom_ibuf hb hr hMax (by omega) ht
  have len : (BitVec.ofNat 32 cs.length).toNat = cs.length := toNat_ofNat_of_lt (by omega)
  have last := step_write_iLen (s := { s with
    turns := wr spREG regILEN (BitVec.ofNat 32 cs.length) :: rest, trace := r, ibuf := s.ibuf.setFrom 0 cs })
    hb hr (len.trans_le fits) rfl
  rw [len] at last
  refine ⟨_, stepsTo_trans elements (stepsTo_one last), rfl, rfl, ?_, fun j hj => ?_, rfl⟩
  · refine List.ext_getElem (inputStream_length _) fun j hj hj' => ?_
    rw [inputStream_getElem, State.readIBUF, element_setFrom, if_pos (by omega)]
    simp [hj']
  · rw [State.readIBUF, element_setFrom, if_neg (by omega)]
    rfl

/-! ### setcode -/

/-- The entry with consecutive words written, from word `w` on (R38). -/
def CTEntry.setWordsFrom : CTEntry → Nat → List Word → CTEntry
  | e, _, [] => e
  | e, w, v :: vs => (e.setWord w v).setWordsFrom (w + 1) vs

/-- The state with the entry of `x` replaced, after transactions of the host. -/
def State.withEntry (s : State) (x : Symbol) (e : CTEntry) (rest : List Turn) (r : List BusRecord) : State :=
  { s with turns := rest, trace := r, ct := s.ct.set x.toNat e x.isLt }

theorem entry_withEntry (s : State) (x : Symbol) (e : CTEntry) (rest : List Turn) (r : List BusRecord) (y : Symbol) :
    (s.withEntry x e rest r).entry y = if x = y then e else s.entry y :=
  entry_set s x e y

theorem entry_withEntry_self (s : State) (x : Symbol) (e : CTEntry) (rest : List Turn) (r : List BusRecord) :
    (s.withEntry x e rest r).entry x = e :=
  (entry_withEntry s x e rest r x).trans (if_pos rfl)

theorem withEntry_withEntry (s : State) (x : Symbol) (e e' : CTEntry) (rest rest' : List Turn) (r r' : List BusRecord) :
    (s.withEntry x e rest r).withEntry x e' rest' r' = s.withEntry x e' rest' r' := by
  simp only [State.withEntry, Vector.set_set]

theorem withEntry_entry (s : State) (x : Symbol) : s.withEntry x (s.entry x) s.turns s.trace = s := by
  have same : s.ct.set x.toNat (s.entry x) x.isLt = s.ct := Vector.set_getElem_self x.isLt
  rw [State.withEntry, same]

/-- The turns that write consecutive words of one entry while idle (R38, R97). -/
theorem stepsTo_wrFrom_ct {s : State} {x : Symbol} {w : Nat} {vs : List Word} {rest : List Turn} (hb : s.busy = false)
    (hr : s.rst = false) (fits : w + vs.length ≤ 16) (h : s.turns = wrFrom spCT (ctBase x + w) vs ++ rest) :
    ∃ r, StepsTo vs.length s (s.withEntry x ((s.entry x).setWordsFrom w vs) rest r) := by
  induction vs generalizing s w with
  | nil => cases h; exact ⟨s.trace, (withEntry_entry s x).symm⟩
  | cons v vs ih =>
    rw [List.length_cons] at fits
    obtain ⟨r₁, first⟩ : ∃ r, step s = .next
        (s.withEntry x ((s.entry x).setWord w v) (wrFrom spCT (ctBase x + (w + 1)) vs ++ rest) r) :=
      ⟨_, step_write_ct hb hr (by omega) h⟩
    obtain ⟨r, others⟩ := ih (w := w + 1) (s := s.withEntry x _ _ r₁) hb hr (by omega) rfl
    rw [entry_withEntry_self, withEntry_withEntry] at others
    exact ⟨r, _, first, others⟩

/-- META as `setcode` writes it: VALID, and LEN (R38, R98). -/
theorem setWord_meta (e : CTEntry) {n : Nat} (hn : n ≤ 255) :
    e.setWord 0 (BitVec.ofNat 32 (0x80000000 + n)) = { e with valid := true, len := BitVec.ofNat 8 n } := by
  have valid : (BitVec.ofNat 32 (0x80000000 + n)).getLsbD 31 = true := by
    rw [BitVec.getLsbD_ofNat, show 0x80000000 = 2 ^ 31 from rfl, Nat.testBit_two_pow_add_eq,
      Nat.testBit_lt_two_pow (by omega)]
    rfl
  have len : (BitVec.ofNat 32 (0x80000000 + n)).extractLsb' 0 8 = BitVec.ofNat 8 n := by
    apply BitVec.eq_of_toNat_eq
    simp only [BitVec.extractLsb'_toNat, BitVec.toNat_ofNat]
    omega
  rw [CTEntry.setWord, if_pos rfl, valid, len]

/-- A code whose bits below CODE word `j` stand in the entry, written from that word to the last, replaces CODE (R38). -/
theorem setWordsFrom_code (c : BitVec 256) {n j : Nat} (hn : j + n = 8) (e : CTEntry)
    (below : ∀ k < 32 * j, e.code.getLsbD k = c.getLsbD k) :
    e.setWordsFrom (j + 2) ((List.range' j n).map fun i => c.extractLsb' (32 * i) 32) = { e with code := c } := by
  induction n generalizing j e with
  | zero =>
    have : e.code = c := BitVec.eq_of_getLsbD_eq fun k hk => below k (by omega)
    rw [← this]; rfl
  | succ n ih =>
    rw [List.range'_succ, List.map_cons, CTEntry.setWordsFrom, setWord_code e (by omega) (by omega), Nat.add_sub_cancel,
      show j + 2 + 1 = j + 1 + 2 by omega, ih (by omega)]
    · rfl
    · intro k hk
      rw [setCodeWord_getLsbD _ _ _ _ (by omega)]
      split
      next h => simp [show 32 * j + (k - 32 * j) = k by omega, show k - 32 * j < 32 by omega]
      next h => exact below k (by omega)

/-- The entry `setcode` leaves, whatever the entry was (R37, R98). -/
theorem setWordsFrom_setcode (e : CTEntry) {bs : BitStr} (hbs : bs.length ≤ 255) (f : Word) :
    e.setWordsFrom 0 (BitVec.ofNat 32 (0x80000000 + bs.length) :: f ::
        (List.range 8).map fun j => (packCode bs).extractLsb' (32 * j) 32) =
      { valid := true, len := BitVec.ofNat 8 bs.length, freq := f, code := packCode bs } := by
  rw [CTEntry.setWordsFrom, setWord_meta e hbs, CTEntry.setWordsFrom, List.range_eq_range',
    setWordsFrom_code (packCode bs) (j := 0) rfl _ (fun k hk => absurd hk (Nat.not_lt_zero k))]
  rfl

/-- Settles O58: the ten writes replace the entry by the one that packs the code. -/
theorem setcodeLoadsTheEntry : Obligations.SetcodeLoadsTheEntry := by
  intro s x bs f rest hb hr hbs ht
  obtain ⟨r, steps⟩ := stepsTo_wrFrom_ct (w := 0) hb hr (by simp) ht
  rw [setWordsFrom_setcode _ hbs] at steps
  have loaded := entry_withEntry_self s x ⟨true, BitVec.ofNat 8 bs.length, f, packCode bs⟩ rest r
  refine ⟨_, steps, rfl, congrArg CTEntry.valid loaded, ?_, congrArg CTEntry.freq loaded, ?_, fun k hk => ?_, fun y hy => ?_⟩
  · rw [loaded]; exact toNat_ofNat_of_lt (by omega)
  · exact (congrArg CTEntry.codeBits loaded).trans (codeBits_packCode bs hbs true f)
  · rw [loaded, packCode_getLsbD]; simp [hk]
  · rw [entry_withEntry, if_neg hy.symm]

end Sys2Proof.Machine
end

section
/-! SUPPORT. One round of the merge loop, said by the two least nodes, and the re-sorted working list (40_stages.md R112,
R113, R117). -/

namespace Sys2Proof.Machine

/-! ### Selection -/

/-- Selection gives the first index by (frequency, index) (R112). -/
theorem least_selectFrom (nodes : Arena) (k : Nat) (js : List Nat) : nodes.Least (k :: js) (selectFrom nodes k js) :=
  ⟨selectFrom_mem nodes k js, fun j hj hne => pairLt_iff.1 (selectFrom_least nodes k js j hj hne)⟩

/-- Only one index comes first: the order by (frequency, index) is strict (R14). -/
theorem Arena.Least.unique {nodes : Arena} {active : List Nat} {a b : Nat} (ha : nodes.Least active a)
    (hb : nodes.Least active b) : a = b := by
  by_contra hne
  have hab := ha.2 b hb.1 (Ne.symm hne)
  have hba := hb.2 a ha.1 hne
  omega

/-- One round of the merge loop (R113). -/
theorem exists_mergeLoop_round (fuel : Nat) (nodes : Arena) {active : List Nat} (h : 2 ≤ active.length) : ∃ a b,
    nodes.Least active a ∧ nodes.Least (active.erase a) b ∧
    mergeLoop (fuel + 1) nodes active =
      mergeLoop fuel (nodes ++ [.internal (nodes.freqAt a + nodes.freqAt b) a b])
        ((active.erase a).erase b ++ [nodes.length]) := by
  match active, h with
  | k :: j :: rest, _ =>
    have ha := least_selectFrom nodes k (j :: rest)
    refine ⟨_, _, ha, ?_, rfl⟩
    have left : (k :: j :: rest).erase (selectFrom nodes k (j :: rest)) ≠ [] := by
      have := List.length_erase_of_mem ha.1
      exact List.ne_nil_of_length_pos (by rw [this]; simp)
    obtain ⟨i, is, he⟩ := List.exists_cons_of_ne_nil left
    rw [he]
    exact least_selectFrom nodes i is

/-- Settles O59: the first selection is the least of the list, the second the least of what is left. -/
theorem eachMergeTakesTheTwoLeastNodes : Obligations.EachMergeTakesTheTwoLeastNodes :=
  fun fuel nodes _ _ h => exists_mergeLoop_round fuel nodes h

/-! ### The re-sorted list -/

/-- A stable insertion of an index below all those of the list keeps the order by (frequency, index). -/
theorem orderedInsert_pairLt {nodes : Arena} {k : Nat} {l : List Nat} (hk : ∀ j ∈ l, k < j)
    (hl : l.Pairwise fun i j => pairLt nodes i j = true) :
    (l.orderedInsert (fun i j => nodes.freqAt i ≤ nodes.freqAt j) k).Pairwise fun i j => pairLt nodes i j = true := by
  induction l with
  | nil => exact List.pairwise_singleton _ _
  | cons j l ih =>
    obtain ⟨first, rest⟩ := List.pairwise_cons.1 hl
    rw [List.orderedInsert]
    split
    next hle =>
      have hkj : pairLt nodes k j = true := pairLt_iff.2 (by have := hk j (by simp); omega)
      refine List.pairwise_cons.2 ⟨fun i hi => ?_, hl⟩
      rcases List.mem_cons.1 hi with rfl | hi
      exacts [hkj, pairLt_trans hkj (first i hi)]
    next hle =>
      refine List.pairwise_cons.2 ⟨fun i hi => ?_, ih (fun i hi => hk i (by simp [hi])) rest⟩
      rcases (List.mem_orderedInsert _).1 hi with rfl | hi
      exacts [pairLt_iff.2 (by omega), first i hi]

/-- The stable order by frequency of a list in index order is the order by (frequency, index) (R117). -/
theorem sortedActive_pairLt (nodes : Arena) {active : List Nat} (h : active.Pairwise (· < ·)) :
    (sortedActive nodes active).Pairwise fun i j => pairLt nodes i j = true := by
  induction active with
  | nil => exact List.Pairwise.nil
  | cons k ks ih =>
    obtain ⟨first, rest⟩ := List.pairwise_cons.1 h
    exact orderedInsert_pairLt (fun j hj => first j ((List.perm_insertionSort _ ks).mem_iff.1 hj)) (ih rest)

/-- The front of a list in order of (frequency, index) is its least (R112). -/
theorem least_of_perm {nodes : Arena} {active l : List Nat} {a : Nat} (hp : active.Perm (a :: l))
    (hl : (a :: l).Pairwise fun i j => pairLt nodes i j = true) : nodes.Least active a := by
  refine ⟨hp.mem_iff.2 List.mem_cons_self, fun k hk hne => ?_⟩
  have hkl : k ∈ l := (List.mem_cons.1 (hp.mem_iff.1 hk)).resolve_left hne
  exact pairLt_iff.1 ((List.pairwise_cons.1 hl).1 k hkl)

/-- The two front nodes of the sorted list are the two that selection takes. -/
theorem sortedActive_eq_cons {nodes : Arena} {active : List Nat} (h : active.Pairwise (· < ·)) {a b : Nat}
    (ha : nodes.Least active a) (hb : nodes.Least (active.erase a) b) :
    ∃ rest, sortedActive nodes active = a :: b :: rest := by
  have hp : active.Perm (sortedActive nodes active) := (List.perm_insertionSort _ active).symm
  have sorted := sortedActive_pairLt nodes h
  generalize sortedActive nodes active = l at hp sorted ⊢
  match l with
  | [] => exact absurd (hp.mem_iff.1 ha.1) (by simp)
  | a' :: l =>
    obtain rfl := ha.unique (least_of_perm hp sorted)
    have hp₁ : (active.erase a).Perm l := by simpa using hp.erase a
    match l with
    | [] => exact absurd (hp₁.mem_iff.1 hb.1) (by simp)
    | b' :: l =>
      obtain rfl := hb.unique (least_of_perm hp₁ (List.pairwise_cons.1 sorted).2)
      exact ⟨l, rfl⟩

theorem mergeLoopBySort_round {nodes : Arena} {active rest : List Nat} {a b : Nat}
    (h : sortedActive nodes active = a :: b :: rest) (fuel : Nat) :
    mergeLoopBySort (fuel + 1) nodes active =
      mergeLoopBySort fuel (nodes ++ [.internal (nodes.freqAt a + nodes.freqAt b) a b])
        ((active.erase a).erase b ++ [nodes.length]) := by
  simp only [mergeLoopBySort, h]

/-- Settles O23: the list stays in index order, so its stable sort is by (frequency, index) and the two front nodes are
those selection takes. -/
theorem resortedListMergesAsSelectionDoes : Obligations.ResortedListMergesAsSelectionDoes := by
  intro fuel
  induction fuel with
  | zero => intro nodes active _ _; rfl
  | succ fuel ih =>
    intro nodes active sorted below
    match active with
    | [] => rfl
    | [k] => rfl
    | k :: j :: js =>
      obtain ⟨a, b, ha, hb, round⟩ := exists_mergeLoop_round fuel nodes (active := k :: j :: js) (by simp)
      obtain ⟨rest, hs⟩ := sortedActive_eq_cons sorted ha hb
      have kept : ((k :: j :: js).erase a).erase b |>.Sublist (k :: j :: js) :=
        List.erase_sublist.trans List.erase_sublist
      rw [round, mergeLoopBySort_round hs]
      apply ih
      · refine List.pairwise_append.2 ⟨sorted.sublist kept, List.pairwise_singleton _ _, fun i hi m hm => ?_⟩
        rw [List.mem_singleton.1 hm]
        exact below i (kept.subset hi)
      · intro i hi
        rw [List.length_append, List.length_singleton]
        rcases List.mem_append.1 hi with hi | hi
        · exact Nat.lt_succ_of_lt (below i (kept.subset hi))
        · rw [List.mem_singleton.1 hi]; exact Nat.lt_succ_self _

end Sys2Proof.Machine
end

section
/-! SUPPORT. The Frequency Counter and COMPRESS, said of the stream alone (40_stages.md R110, R115, R117; 41_compress.md
R151, R152). -/

namespace Sys2Proof.Machine

theorem allSymbols_nodup : allSymbols.Nodup :=
  allSymbols_sorted.imp BitVec.ne_of_lt

/-- The counts of all symbols sum to the length of the stream (R110). -/
theorem sum_count_allSymbols (xs : List Symbol) : (allSymbols.map xs.count).sum = xs.length :=
  calc (allSymbols.map xs.count).sum
    _ = ∑ x ∈ allSymbols.toFinset, xs.count x := (List.sum_toFinset _ allSymbols_nodup).symm
    _ = xs.length := by
      simpa using Multiset.sum_count_eq_card (s := allSymbols.toFinset) (m := (xs : Multiset Symbol)) (by simp)

/-- Settles O21: the invariant of the counting loop, at the end of the stream. -/
theorem countFreqCountsAndOrders : Obligations.CountFreqCountsAndOrders := by
  intro xs
  obtain ⟨counts, mem_order, nodup, first⟩ := countFreq_counts xs
  refine ⟨counts, fun x => ?_, nodup, first, ?_⟩
  · rw [mem_order, counts, List.count_pos_iff]
  · rw [funext counts]; exact sum_count_allSymbols xs

/-! ### COMPRESS depends on the stream -/

theorem exec_compress_nonempty {s : State} (h : s.iLen ≠ 0) :
    exec .compress s = .next (s.compressOutputs s.inputStream).succeed := by
  rw [exec_compress, if_neg h]

/-- The payload below PLEN after a COMPRESS (R145). -/
theorem readPBUF_compressed (s : State) (xs : List Symbol) {j : Nat} (h : j < (encodeBits (codesOf xs) xs).length) :
    (s.compressOutputs xs).succeed.readPBUF j = bitChar (encodeBits (codesOf xs) xs)[j] :=
  (readPBUF_compressOutputs s xs j).trans (dif_pos h)

/-- Settles O19: every output is a function of the stream. -/
theorem compressDependsOnTheInputAlone : Obligations.CompressDependsOnTheInputAlone := by
  intro s s' h same
  have h' : s'.iLen ≠ 0 := by rwa [← inputStream_length, ← same, inputStream_length]
  refine ⟨_, _, exec_compress_nonempty h, exec_compress_nonempty h', ?_⟩
  rw [← same]
  refine ⟨rfl, rfl, fun j hj => ?_, rfl, rfl, rfl, rfl⟩
  rw [readPBUF_compressed s _ hj, readPBUF_compressed s' _ hj]

/-! ### One repeated symbol -/

theorem countFreq_order_replicate {n : Nat} (hn : n ≠ 0) (x : Symbol) :
    (countFreq (List.replicate n x)).order = [x] := by
  have hp : (countFreq (List.replicate n x)).order.Perm [x] :=
    (List.perm_ext_iff_of_nodup (countFreq_order_nodup _) (List.nodup_singleton x)).2 fun y => by simp [hn]
  exact List.perm_singleton.1 hp

/-- A lone symbol gets the code "0" (R115, R118). -/
theorem codesOf_lone {xs : List Symbol} {x : Symbol} (ho : (countFreq xs).order = [x]) :
    codesOf xs = Codes.empty.put x [false] := by
  have hne : xs ≠ [] := by rintro rfl; simp [countFreq] at ho
  rcases codesOf_spec hne with ⟨y, hy, hc⟩ | ⟨t, hp, pos, -, -⟩
  · obtain rfl : x = y := by simpa [ho] using hy
    exact hc
  · have one : t.leaves.length = 1 := by simpa [ho] using hp.length_eq
    have coded : t.coded ≠ [] := fun h => by rw [← HTree.coded_leaves, h] at one; simp at one
    obtain ⟨z, hz⟩ := List.exists_mem_of_ne_nil _ coded
    have := pos z hz
    have := HTree.path_length_lt hz
    omega

theorem encodeBits_replicate {n : Nat} {c : Codes} {x : Symbol} (h : c.at x = some [false]) :
    encodeBits c (List.replicate n x) = List.replicate n false := by
  induction n with
  | zero => rfl
  | succ n ih => rw [List.replicate_succ, encodeBits, List.flatMap_cons, h]; exact congrArg (false :: ·) ih

/-- Eight bits in, one bit out: the ratio is 8.0 (R148). -/
theorem ratioWord_eight {n : Nat} (h : n ≠ 0) : ratioWord (8 * n) n = 0x00080000#32 := by
  have : 8 * n * 65536 / n = 0x80000 := Nat.div_eq_of_eq_mul_left (Nat.pos_of_ne_zero h) (by omega)
  rw [ratioWord, this]

/-- Settles O20: the stream is the symbol repeated, its tree a lone leaf. -/
theorem repeatedSymbolCompressesToOneBitEach : Obligations.RepeatedSymbolCompressesToOneBitEach := by
  intro s x h all
  have stream : s.inputStream = List.replicate s.iLen x :=
    List.eq_replicate_iff.2 ⟨inputStream_length s, fun y hy => by
      obtain ⟨i, hi, rfl⟩ := List.mem_map.1 hy
      exact all i (List.mem_range.1 hi)⟩
  have order := countFreq_order_replicate h x
  have codes := codesOf_lone order
  have at_x : (codesOf (List.replicate s.iLen x)).at x = some [false] := by rw [codes, Codes.at_put, if_pos rfl]
  have bits := encodeBits_replicate (n := s.iLen) at_x
  have len : (encodeBits (codesOf (List.replicate s.iLen x)) (List.replicate s.iLen x)).length = s.iLen := by
    rw [bits, List.length_replicate]
  refine ⟨_, exec_compress_nonempty h, ?_⟩
  rw [stream]
  refine ⟨?_, fun y hy => ?_, len, fun j hj => ?_, congrArg List.length order, fun _ => ?_⟩
  · refine (entry_compressOutputs s _ x).trans ?_
    rw [compressEntry_some at_x, countFreq_count, List.count_replicate_self]
    have packed : packCode [false] = 0#256 := by decide
    rw [packed]; rfl
  · refine (entry_compressOutputs s _ y).trans (compressEntry_none ?_)
    rw [codes, Codes.at_put, if_neg hy.symm, Codes.at_empty]
  · rw [readPBUF_compressed s _ (hj.trans_eq len.symm)]
    simp only [bits, List.getElem_replicate]
    rfl
  · rw [State.succeed_ratio, State.compressOutputs_ratio, len, List.length_replicate]
    exact ratioWord_eight h

end Sys2Proof.Machine
end

section
/-! SUPPORT. The shape of the arena the merge loop builds and the codes of its leaves (40_stages.md R113, R114, R118,
R119). -/

namespace Sys2Proof.Machine

/-! ### Children in the arena -/

/-- Node `k` is internal and `j` is its left or its right child (R43). -/
def Arena.IsChild (nodes : Arena) (j k : Nat) : Prop :=
  ∃ f l r, nodes[k]? = some (.internal f l r) ∧ (l = j ∨ r = j)

theorem getElem?_concat_eq_some {nodes : Arena} {n m : Node} {k : Nat} :
    (nodes ++ [n])[k]? = some m ↔ nodes[k]? = some m ∨ k = nodes.length ∧ m = n := by
  rcases Nat.lt_trichotomy k nodes.length with h | rfl | h
  · simp [List.getElem?_append_left h, h.ne]
  · simp [eq_comm]
  · simp [List.getElem?_append_right h.le, List.getElem?_eq_none h.le, h.ne', Nat.sub_ne_zero_of_lt h]

/-- The new internal node is the only new parent, of its two children. -/
theorem isChild_concat {nodes : Arena} {f a b j k : Nat} :
    Arena.IsChild (nodes ++ [.internal f a b]) j k ↔ nodes.IsChild j k ∨ k = nodes.length ∧ (a = j ∨ b = j) := by
  simp only [Arena.IsChild, getElem?_concat_eq_some]
  constructor
  · rintro ⟨f', l, r, h | ⟨rfl, h⟩, hc⟩
    · exact .inl ⟨f', l, r, h, hc⟩
    · cases h; exact .inr ⟨rfl, hc⟩
  · rintro (⟨f', l, r, h, hc⟩ | ⟨rfl, hc⟩)
    · exact ⟨f', l, r, .inl h, hc⟩
    · exact ⟨f, a, b, .inr ⟨rfl, rfl⟩, hc⟩

theorem freqAt_eq {nodes : Arena} {k : Nat} {m : Node} (h : nodes[k]? = some m) : nodes.freqAt k = m.freq := by
  rw [Arena.freqAt, h]

theorem freqAt_concat {nodes : Arena} {n : Node} {k : Nat} (h : k < nodes.length) :
    Arena.freqAt (nodes ++ [n]) k = nodes.freqAt k := by
  rw [Arena.freqAt, Arena.freqAt, List.getElem?_append_left h]

/-! ### The invariant of the merge loop -/

/-- The arena is a forest over `n` leaves, with the active indices for its roots and `total` for the sum of the roots'
frequencies. -/
structure Arena.Forest (n total : Nat) (nodes : Arena) (active : List Nat) : Prop where
  nodup : active.Nodup
  active_lt : ∀ j ∈ active, j < nodes.length
  le_length : n ≤ nodes.length
  size : nodes.length + active.length = 2 * n
  total_eq : (active.map nodes.freqAt).sum = total
  freq_le : ∀ (k : Nat) (m : Node), nodes[k]? = some m → m.freq ≤ total
  leaf_lt : ∀ (k : Nat) (x : Symbol) (f : Nat), nodes[k]? = some (.leaf x f) → k < n
  internal : ∀ k f l r : Nat, nodes[k]? = some (.internal f l r) → n ≤ k ∧ l < k ∧ r < k ∧ l ≠ r
  root : ∀ j ∈ active, ∀ k, ¬ nodes.IsChild j k
  child : ∀ j < nodes.length, j ∉ active → ∃! k, nodes.IsChild j k

namespace Arena.Forest

variable {n total : Nat} {nodes : Arena} {active : List Nat}

/-- An index of no node is a child of no node. -/
theorem not_isChild_length (h : nodes.Forest n total active) (k : Nat) : ¬ nodes.IsChild nodes.length k := by
  rintro ⟨f, l, r, hk, hc⟩
  have := (List.getElem?_eq_some_iff.1 hk).1
  have := h.internal k f l r hk
  omega

section Merge

variable {a b : Nat} {others : List Nat}

/-- The two merged roots are different, and no longer among the others. -/
theorem distinct (h : nodes.Forest n total active) (perm : active.Perm (a :: b :: others)) :
    a ≠ b ∧ a ∉ others ∧ b ∉ others ∧ others.Nodup := by
  simpa [not_or, and_assoc] using perm.nodup_iff.1 h.nodup

theorem lt_of_mem (h : nodes.Forest n total active) (perm : active.Perm (a :: b :: others)) {j : Nat}
    (hj : j ∈ a :: b :: others) : j < nodes.length :=
  h.active_lt j (perm.mem_iff.2 hj)

/-- The roots after a merge are children of no node. -/
theorem merged_root (h : nodes.Forest n total active) (perm : active.Perm (a :: b :: others)) (f : Nat) {j : Nat}
    (hj : j ∈ others ++ [nodes.length]) (k : Nat) : ¬ Arena.IsChild (nodes ++ [.internal f a b]) j k := by
  obtain ⟨-, a_notMem, b_notMem, -⟩ := h.distinct perm
  rw [isChild_concat]
  rcases List.mem_append.1 hj with hj | hj
  · rintro (hc | ⟨-, rfl | rfl⟩)
    exacts [h.root j (perm.mem_iff.2 (by simp [hj])) k hc, a_notMem hj, b_notMem hj]
  · obtain rfl := List.mem_singleton.1 hj
    rintro (hc | ⟨-, e | e⟩)
    exacts [h.not_isChild_length k hc, (h.lt_of_mem perm (by simp)).ne e, (h.lt_of_mem perm (by simp)).ne e]

/-- The other nodes after a merge keep their parent, and the merged roots have the new node for theirs. -/
theorem merged_child (h : nodes.Forest n total active) (perm : active.Perm (a :: b :: others)) (f : Nat) {j : Nat}
    (hlt : j < nodes.length) (hj : j ∉ others) : ∃! k, Arena.IsChild (nodes ++ [.internal f a b]) j k := by
  by_cases merged : a = j ∨ b = j
  · have was_root : j ∈ active := perm.mem_iff.2 (by rcases merged with rfl | rfl <;> simp)
    refine ⟨nodes.length, isChild_concat.2 (.inr ⟨rfl, merged⟩), fun k hk => ?_⟩
    rcases isChild_concat.1 hk with hk | ⟨hk, -⟩
    exacts [absurd hk (h.root j was_root k), hk]
  · obtain ⟨not_a, not_b⟩ := not_or.1 merged
    have no_root : j ∉ active := by simp [perm.mem_iff, hj, Ne.symm not_a, Ne.symm not_b]
    simp only [isChild_concat, merged, and_false, or_false]
    exact h.child j hlt no_root

/-- One merge of two roots keeps the forest (R113). -/
theorem merge (h : nodes.Forest n total active) (perm : active.Perm (a :: b :: others)) :
    Arena.Forest n total (nodes ++ [.internal (nodes.freqAt a + nodes.freqAt b) a b]) (others ++ [nodes.length]) := by
  obtain ⟨a_ne_b, -, -, others_nodup⟩ := h.distinct perm
  have others_lt : ∀ j ∈ others, j < nodes.length := fun j hj => h.lt_of_mem perm (by simp [hj])
  have total_eq : nodes.freqAt a + (nodes.freqAt b + (others.map nodes.freqAt).sum) = total := by
    simpa [h.total_eq] using ((perm.map nodes.freqAt).sum_eq).symm
  constructor
  case nodup =>
    refine List.nodup_append.2 ⟨others_nodup, List.nodup_singleton _, fun j hj m hm => ?_⟩
    rw [List.mem_singleton.1 hm]
    exact (others_lt j hj).ne
  case active_lt =>
    intro j hj
    rw [List.length_append, List.length_singleton]
    rcases List.mem_append.1 hj with hj | hj
    · exact Nat.lt_succ_of_lt (others_lt j hj)
    · rw [List.mem_singleton.1 hj]; exact Nat.lt_succ_self _
  case le_length => exact h.le_length.trans (by simp)
  case size =>
    have := h.size
    have := perm.length_eq
    simp only [List.length_cons, List.length_append, List.length_nil] at this ⊢
    omega
  case total_eq =>
    have kept : others.map (Arena.freqAt (nodes ++ [.internal (nodes.freqAt a + nodes.freqAt b) a b])) =
        others.map nodes.freqAt := List.map_congr_left fun j hj => freqAt_concat (others_lt j hj)
    have new : Arena.freqAt (nodes ++ [.internal (nodes.freqAt a + nodes.freqAt b) a b]) nodes.length =
        nodes.freqAt a + nodes.freqAt b := freqAt_eq (getElem?_concat_eq_some.2 (.inr ⟨rfl, rfl⟩))
    simp only [List.map_append, List.map_cons, List.map_nil, kept, new, List.sum_append, List.sum_singleton]
    omega
  case freq_le =>
    intro k m hk
    rcases getElem?_concat_eq_some.1 hk with hk | ⟨-, rfl⟩
    · exact h.freq_le k m hk
    · simp only [Node.freq]; omega
  case leaf_lt =>
    intro k x f hk
    rcases getElem?_concat_eq_some.1 hk with hk | ⟨-, hm⟩
    · exact h.leaf_lt k x f hk
    · cases hm
  case internal =>
    intro k f l r hk
    rcases getElem?_concat_eq_some.1 hk with hk | ⟨rfl, hm⟩
    · exact h.internal k f l r hk
    · cases hm
      exact ⟨h.le_length, h.lt_of_mem perm (by simp), h.lt_of_mem perm (by simp), a_ne_b⟩
  case root => exact fun j hj => h.merged_root perm _ hj
  case child =>
    intro j hlt hj
    rw [List.length_append, List.length_singleton] at hlt
    rw [List.mem_append, List.mem_singleton, not_or] at hj
    exact h.merged_child perm _ (by omega) hj.1

end Merge

/-- The forest the loop starts from: the leaves, all of them roots (R111). -/
theorem of_leafNodes (xs : List Symbol) :
    (leafNodes (countFreq xs)).Forest (countFreq xs).order.length xs.length (List.range (countFreq xs).order.length) := by
  have len : (leafNodes (countFreq xs)).length = (countFreq xs).order.length := List.length_map _
  have leaf : ∀ (k : Nat) (m : Node), (leafNodes (countFreq xs))[k]? = some m →
      ∃ x, m = .leaf x (xs.count x) := fun k m hk => by
    obtain ⟨x, -, rfl⟩ := List.mem_map.1 (List.mem_of_getElem? hk)
    exact ⟨x, by rw [countFreq_count]⟩
  have no_parent : ∀ j k, ¬ (leafNodes (countFreq xs)).IsChild j k := by
    rintro j k ⟨f, l, r, hk, -⟩
    obtain ⟨x, hx⟩ := leaf k _ hk
    cases hx
  constructor
  case nodup => exact List.nodup_range
  case active_lt => intro j hj; rw [len]; exact List.mem_range.1 hj
  case le_length => exact len.ge
  case size => rw [len, List.length_range]; omega
  case total_eq =>
    rw [← sum_count_order xs]
    congr 1
    refine List.ext_getElem (by simp) fun k h₁ h₂ => ?_
    have hk : k < (countFreq xs).order.length := by simpa using h₂
    simp [Arena.freqAt, leafNodes, hk, Node.freq]
  case freq_le =>
    intro k m hk
    obtain ⟨x, rfl⟩ := leaf k m hk
    exact List.count_le_length
  case leaf_lt => intro k x f hk; rw [← len]; exact (List.getElem?_eq_some_iff.1 hk).1
  case internal =>
    intro k f l r hk
    obtain ⟨x, hx⟩ := leaf k _ hk
    cases hx
  case root => exact fun j _ => no_parent j
  case child => intro j hj hn; exact absurd (List.mem_range.2 (len ▸ hj)) hn

/-- The merge loop keeps the forest (R113). -/
theorem after_mergeLoop (h : nodes.Forest n total active) (fuel : Nat) :
    (mergeLoop fuel nodes active).1.Forest n total (mergeLoop fuel nodes active).2 := by
  induction fuel generalizing nodes active with
  | zero => exact h
  | succ fuel ih =>
    by_cases two : 2 ≤ active.length
    · obtain ⟨a, b, ha, hb, round⟩ := exists_mergeLoop_round fuel nodes two
      rw [round]
      exact ih (h.merge ((List.perm_cons_erase ha.1).trans ((List.perm_cons_erase hb.1).cons a)))
    · match active, two with
      | [], _ => exact h
      | [k], _ => exact h
      | _ :: _ :: _, two => exact absurd (by simp) two

/-- The lone root of a forest is the last node, because no node above it could be its parent (R114). -/
theorem root_eq {k : Nat} (h : nodes.Forest n total [k]) : k + 1 = nodes.length := by
  have hk := h.active_lt k (by simp)
  by_contra hne
  obtain ⟨p, ⟨f, l, r, hp, hc⟩, -⟩ := h.child (nodes.length - 1) (by omega) (by simp; omega)
  have := (List.getElem?_eq_some_iff.1 hp).1
  have := h.internal p f l r hp
  omega

/-- The lone root of a forest of at least two leaves is internal and has the total frequency (R114). -/
theorem root_internal {k : Nat} (h : nodes.Forest n total [k]) (two : 2 ≤ n) :
    ∃ l r, nodes[k]? = some (.internal total l r) := by
  have size := h.size
  rw [List.length_singleton] at size
  have last := h.root_eq
  have total_eq : nodes.freqAt k = total := by simpa using h.total_eq
  obtain ⟨m, hm⟩ : ∃ m, nodes[k]? = some m := ⟨_, List.getElem?_eq_getElem (by omega)⟩
  rw [freqAt_eq hm] at total_eq
  match m with
  | .leaf x f => exact absurd (h.leaf_lt k x f hm) (by omega)
  | .internal f l r => exact ⟨l, r, by rw [hm, ← total_eq, Node.freq]⟩

end Arena.Forest

/-! ### The tree of a stream -/

/-- BuildTree's tree is the arena and the first active index the merge loop leaves (R113). -/
theorem mergeLoop_of_buildTree {m : FreqMap} {T : Tree} (h : buildTree m = some T) :
    ∃ rest, mergeLoop m.order.length (leafNodes m) (List.range m.order.length) = (T.nodes, T.root :: rest) := by
  simp only [buildTree] at h
  generalize mergeLoop m.order.length (leafNodes m) (List.range m.order.length) = r at h
  obtain ⟨nodes, active⟩ := r
  cases active with
  | nil => cases h
  | cons root rest => cases h; exact ⟨rest, rfl⟩

namespace BuiltFor

variable {xs : List Symbol} {T : Tree} {t : HTree}

theorem leaves_length (h : BuiltFor xs T t) : t.leaves.length = (countFreq xs).order.length := by
  simpa using h.leaves_perm.length_eq

/-- The merge loop ends with the root alone, in a forest over the leaves (R113, R114). -/
theorem forest (h : BuiltFor xs T t) (hT : buildTree (countFreq xs) = some T) :
    mergeLoop (countFreq xs).order.length (leafNodes (countFreq xs)) (List.range (countFreq xs).order.length) =
      (T.nodes, [T.root]) ∧
    T.nodes.Forest (countFreq xs).order.length xs.length [T.root] := by
  obtain ⟨rest, run⟩ := mergeLoop_of_buildTree hT
  have forest := (Arena.Forest.of_leafNodes xs).after_mergeLoop (countFreq xs).order.length
  rw [run] at forest
  have lone : rest = [] := by
    have size := forest.size
    rw [List.length_cons, h.nodes_size] at size
    have := t.size_leaves
    have := h.leaves_length
    exact List.eq_nil_of_length_eq_zero (by omega)
  subst lone
  exact ⟨run, forest⟩

/-- The codes are the paths of the tree, where it is not a lone leaf (R118). -/
theorem genCodes_eq (h : BuiltFor xs T t) (two : 2 ≤ (countFreq xs).order.length) :
    genCodes T = Codes.empty.putAll t.coded := by
  obtain ⟨rep, perm, size, -⟩ := h
  have loop := genLoop_spec T.nodes.length T.nodes [(T.root, [], t)] Codes.empty (by simpa using rep) (by simp [size])
  have paths : [(T.root, ([] : BitStr), t)].flatMap stackLeaves = t.coded := by simp [stackLeaves]
  rw [paths] at loop
  cases rep with
  | leaf _ => have := perm.length_eq; simp [HTree.leaves] at this; omega
  | node get _ _ => simp only [genCodes, get]; exact loop

/-- A code of a symbol is the path of its leaf (R118). -/
theorem mem_coded (h : BuiltFor xs T t) (two : 2 ≤ (countFreq xs).order.length) {x : Symbol} {p : BitStr}
    (hp : (genCodes T).at x = some p) : (x, xs.count x, p) ∈ t.coded := by
  rw [h.genCodes_eq two, at_tree_iff h.leaves_perm] at hp
  obtain ⟨f, hf⟩ := hp
  have leaf : (x, f) ∈ t.leaves := t.coded_leaves ▸ List.mem_map.2 ⟨_, hf, rfl⟩
  obtain ⟨y, -, hy⟩ := List.mem_map.1 (h.leaves_perm.mem_iff.1 leaf)
  cases hy
  exact hf

/-- A code has fewer bits than the tree has leaves (R114). -/
theorem code_length_le (h : BuiltFor xs T t) (two : 2 ≤ (countFreq xs).order.length) {x : Symbol} {p : BitStr}
    (hp : (genCodes T).at x = some p) : p.length ≤ (countFreq xs).order.length - 1 := by
  have short := HTree.path_length_lt (h.mem_coded two hp)
  rw [h.leaves_length] at short
  exact Nat.le_sub_one_of_lt short

end BuiltFor

/-- Settles O22: the merge loop keeps the forest, and at its end the forest has one root. -/
theorem builtTreeHasTheShapeOfAHuffmanTree : Obligations.BuiltTreeHasTheShapeOfAHuffmanTree := by
  intro xs two
  have hne : xs ≠ [] := by rintro rfl; simp [countFreq] at two
  obtain ⟨T, t, hT, built⟩ := buildTree_spec hne
  obtain ⟨run, forest⟩ := built.forest hT
  have size := forest.size
  rw [List.length_singleton] at size
  have last := forest.root_eq
  refine ⟨T, hT, run, fun k hk => ?_, countFreq_order_length xs, by omega, by omega, forest.root_internal two,
    forest.freq_le, forest.internal, forest.leaf_lt, fun j hj => forest.child j (by omega) ?_,
    fun x p hp => built.code_length_le two hp⟩
  · obtain ⟨more, grown⟩ := mergeLoop_append (countFreq xs).order.length (leafNodes (countFreq xs))
      (List.range (countFreq xs).order.length)
    rw [run] at grown
    have hk' : k < (leafNodes (countFreq xs)).length := hk.trans_eq (List.length_map _).symm
    replace grown : T.nodes = leafNodes (countFreq xs) ++ more := grown
    rw [grown, List.getElem?_append_left hk']
    simp [leafNodes, hk]
  · rw [List.mem_singleton]; exact Nat.ne_of_lt hj

/-- Settles O16: a code is the path of its symbol's leaf, and no path of a tree begins another. -/
theorem generatedCodesArePrefixFree : Obligations.GeneratedCodesArePrefixFree := by
  intro xs hne
  obtain ⟨T, t, hT, built⟩ := buildTree_spec hne
  have codes := codesOf_eq hT
  refine ⟨T, hT, fun x => ?_, fun x p hp => ⟨fun one => ?_, fun two => ?_⟩, fun x y p q hp hq hxy => ?_⟩
  · rw [← Option.isSome_iff_exists, ← codes, codesOf_isSome, mem_countFreq_order]
  · obtain ⟨y, hy⟩ := List.length_eq_one_iff.1 one
    rw [← codes, codesOf_lone hy, Codes.at_put, Codes.at_empty] at hp
    split at hp <;> cases hp
    rfl
  · obtain ⟨k, reached, leaf⟩ := built.root_rep.follow_coded (built.mem_coded two hp)
    exact ⟨(codesOf_length (codes ▸ hp)).1, built.code_length_le two hp, k, reached, leaf⟩
  · rw [← codes] at hp hq
    have incomparable : ¬ p <+: q := fun h => hxy (codesOf_prefixFree hp hq h)
    exact ⟨fun h => incomparable (h ▸ List.prefix_refl p), incomparable⟩

end Sys2Proof.Machine
end

section
/-! SUPPORT. The outputs of COMPRESS: the stats, the payload, the code table, the size and the ratio (41_compress.md R141
to R150). -/

namespace Sys2Proof.Machine

/-- Settles O10: the error completion of EmptyInputError. -/
theorem compressOfEmptyInputFails : Obligations.CompressOfEmptyInputFails := by
  intro s h
  rw [exec_compress, if_pos h]
  rfl

/-! ### The stats -/

/-- ORDER has as many symbols as the stream has distinct ones (R149). -/
theorem countFreq_order_length_eq_dedup (xs : List Symbol) : (countFreq xs).order.length = xs.dedup.length := by
  have perm : (countFreq xs).order.Perm xs.dedup :=
    (List.perm_ext_iff_of_nodup (countFreq_order_nodup xs) (List.nodup_dedup xs)).2 fun x => by
      rw [mem_countFreq_order, List.mem_dedup]
  exact perm.length_eq

/-- ORIG_BITS does not wrap for a stream of at most 2^27 symbols (R146). -/
theorem compressOutputs_origBits_toNat (s : State) {xs : List Symbol} (h : xs.length ≤ 2 ^ 27) :
    (s.compressOutputs xs).origBits.toNat = 8 * xs.length :=
  toNat_ofNat_of_lt (by omega)

/-- A COMPRESS leaves the payload elements from the new PLEN up (R145). -/
theorem readPBUF_compressOutputs_of_pLen_le (s : State) {xs : List Symbol} {j : Nat}
    (h : (s.compressOutputs xs).pLen ≤ j) : (s.compressOutputs xs).readPBUF j = s.readPBUF j :=
  (readPBUF_compressOutputs s xs j).trans (dif_neg (Nat.not_lt.2 h))

/-- Settles O11: every field beside those of `State.compressOutputs` and the completion is the old state's. -/
theorem compressWritesStatsAndLeavesTheRest : Obligations.CompressWritesStatsAndLeavesTheRest := by
  intro s h
  have length := inputStream_length s
  have orig : (s.compressOutputs s.inputStream).succeed.origBits = BitVec.ofNat 32 (8 * s.iLen) := by
    rw [State.succeed_origBits, State.compressOutputs_origBits, length]
  have alpha : (s.compressOutputs s.inputStream).succeed.nAlpha = s.inputStream.dedup.length :=
    countFreq_order_length_eq_dedup s.inputStream
  refine ⟨_, exec_compress_nonempty h, ?_, fun fits => ?_, ?_, countFreq_order_length s.inputStream,
    fun j hj => readPBUF_compressOutputs_of_pLen_le s hj, fun _ => rfl, fun _ => rfl⟩
  · rw [← orig, ← alpha]; rfl
  · have exact_bits := compressOutputs_origBits_toNat s (length.trans_le fits)
    rw [length] at exact_bits
    exact ⟨exact_bits, exact_bits.trans_le (by omega)⟩
  · exact List.length_pos_of_ne_nil (order_ne_nil (inputStream_ne_nil h))

/-! ### The payload and the table -/

/-- Settles O12: the payload is the encoding by the codes of the stream, and the table holds these codes. -/
theorem compressWritesTheEncodedPayload : Obligations.CompressWritesTheEncodedPayload := by
  intro s h
  obtain ⟨T, -, hT, -⟩ := buildTree_spec (inputStream_ne_nil h)
  have bits : encodeBits (codesOf s.inputStream) s.inputStream =
      s.inputStream.flatMap (s.compressOutputs s.inputStream).succeed.codeOf := encodeBits_eq_flatMap s s.inputStream
  refine ⟨_, T, exec_compress_nonempty h, hT, fun i hi => ?_, ?_⟩
  · have mem : s.readIBUF i ∈ s.inputStream := List.mem_map.2 ⟨i, List.mem_range.2 hi, rfl⟩
    rw [← codesOf_eq hT]
    exact codeOf_compressOutputs s mem
  · rw [← bits]
    exact ⟨rfl, fun j hj => readPBUF_compressed s _ hj, fun j hj => readPBUF_compressOutputs_of_pLen_le s hj⟩

/-- The entry of a symbol of the stream, by its code (R144). -/
theorem entry_compressOutputs_of_code (s : State) {xs : List Symbol} {x : Symbol} {p : BitStr}
    (hp : (codesOf xs).at x = some p) :
    (s.compressOutputs xs).entry x =
      { valid := true, len := BitVec.ofNat 8 p.length, freq := BitVec.ofNat 32 (xs.count x), code := packCode p } := by
  rw [entry_compressOutputs, compressEntry_some hp, countFreq_count]

/-- LEN holds the length of a code, because no code is longer than 255 bits (R114, R144). -/
theorem len_toNat_of_code {xs : List Symbol} {x : Symbol} {p : BitStr} (hp : (codesOf xs).at x = some p) :
    (BitVec.ofNat 8 p.length).toNat = p.length :=
  toNat_ofNat_of_lt (Nat.lt_succ_of_le (codesOf_length hp).2)

/-- The CODE bits from the length up are 0 (R144). -/
theorem packCode_getLsbD_of_length_le {bits : BitStr} {k : Nat} (h : bits.length ≤ k) :
    (packCode bits).getLsbD k = false := by
  rw [packCode_getLsbD, List.getD_eq_default _ _ h, Bool.and_false]

/-- Settles O13: a symbol has a code, and so an entry, exactly when it is in the stream. -/
theorem compressReplacesTheCodeTable : Obligations.CompressReplacesTheCodeTable := by
  intro s h
  obtain ⟨T, -, hT, -⟩ := buildTree_spec (inputStream_ne_nil h)
  refine ⟨_, T, exec_compress_nonempty h, hT, fun x => ⟨fun hx => ?_, fun hx => ?_⟩⟩
  · obtain ⟨p, hp⟩ := codesOf_mem hx
    have entry : (s.compressOutputs s.inputStream).succeed.entry x = _ := entry_compressOutputs_of_code s hp
    refine ⟨by rw [entry], ?_, by rw [entry], fun k hk => ?_⟩
    · rw [← codesOf_eq hT]
      exact codeOf_compressOutputs s hx
    · rw [entry] at hk ⊢
      exact packCode_getLsbD_of_length_le ((len_toNat_of_code hp).symm.trans_le hk)
  · exact (entry_compressOutputs s _ x).trans (compressEntry_none (codesOf_notMem hx))

/-! ### The size -/

/-- COMP_BITS is PLEN, and does not wrap for a stream of at most 2^27 symbols (R147). -/
theorem compressOutputs_compBits_toNat (s : State) {xs : List Symbol} (h : xs.length ≤ 2 ^ 27) :
    (s.compressOutputs xs).compBits.toNat = (s.compressOutputs xs).pLen := by
  have := encodeBits_length_le xs
  exact toNat_ofNat_of_lt (by omega)

/-- The table COMPRESS leaves and ORDER list the same symbols (R144). -/
theorem tableSymbols_compressOutputs_perm (s : State) (xs : List Symbol) :
    (s.compressOutputs xs).tableSymbols.Perm (countFreq xs).order :=
  (List.perm_ext_iff_of_nodup (tableSymbols_nodup _) (countFreq_order_nodup xs)).2 fun x => by
    rw [mem_tableSymbols_compressOutputs, mem_countFreq_order]

/-- In the table COMPRESS leaves, FREQ × LEN of a symbol is its count times the length of its code (R144). -/
theorem freq_mul_len_compressOutputs (s : State) {xs : List Symbol} (h : xs.length ≤ 2 ^ 27) {x : Symbol} (hx : x ∈ xs) :
    ((s.compressOutputs xs).entry x).freq.toNat * ((s.compressOutputs xs).entry x).len.toNat =
      (countFreq xs).count x * (((codesOf xs).at x).getD []).length := by
  obtain ⟨p, hp⟩ := codesOf_mem hx
  have count_le : xs.count x ≤ xs.length := List.count_le_length
  rw [entry_compressOutputs_of_code s hp, hp, len_toNat_of_code hp, toNat_ofNat_of_lt (by omega), countFreq_count,
    Option.getD_some]

/-- PLEN is the sum of FREQ × LEN over the table COMPRESS leaves (R147). -/
theorem compressOutputs_pLen_eq_sum (s : State) {xs : List Symbol} (h : xs.length ≤ 2 ^ 27) :
    (s.compressOutputs xs).pLen = ((s.compressOutputs xs).tableSymbols.map fun x =>
      ((s.compressOutputs xs).entry x).freq.toNat * ((s.compressOutputs xs).entry x).len.toNat).sum :=
  calc (s.compressOutputs xs).pLen
    _ = totalBits (countFreq xs) (codesOf xs) := encodeBits_length_eq_total (codesOf xs) xs
    _ = ((countFreq xs).order.map fun x =>
        ((s.compressOutputs xs).entry x).freq.toNat * ((s.compressOutputs xs).entry x).len.toNat).sum :=
      congrArg List.sum (List.map_congr_left fun x hx =>
        (freq_mul_len_compressOutputs s h ((mem_countFreq_order xs x).1 hx)).symm)
    _ = _ := ((tableSymbols_compressOutputs_perm s xs).map _).sum_eq.symm

/-- PLEN lies between one and eight bits per symbol (R120, R147). -/
theorem compressOutputs_pLen_bounds (s : State) (xs : List Symbol) :
    xs.length ≤ (s.compressOutputs xs).pLen ∧ (s.compressOutputs xs).pLen ≤ 8 * xs.length :=
  ⟨encodeBits_length_ge xs, encodeBits_length_le xs⟩

/-- Settles O14: the size counted symbol by symbol, and the bounds of R120. -/
theorem compressedSizeIsAccountedAndBounded : Obligations.CompressedSizeIsAccountedAndBounded := by
  intro s h
  rw [← inputStream_length s]
  intro fits
  exact ⟨_, exec_compress_nonempty h, compressOutputs_compBits_toNat s fits, compressOutputs_pLen_eq_sum s fits,
    compressOutputs_pLen_bounds s s.inputStream⟩

/-! ### The ratio -/

section
variable {n c : Nat}

/-- At least one bit per symbol: the quotient is at most 8.0 (R148). -/
theorem ratio_quotient_le (h : n ≤ c) : 8 * n * 65536 / c ≤ 0x80000 :=
  Nat.div_le_of_le_mul (by omega)

/-- At most eight bits per symbol: the quotient is at least 1.0 (R148). -/
theorem le_ratio_quotient (hc : 0 < c) (h : c ≤ 8 * n) : 0x10000 ≤ 8 * n * 65536 / c :=
  (Nat.le_div_iff_mul_le hc).2 (by omega)

/-- RATIO does not wrap (R148). -/
theorem ratioWord_toNat (h : n ≤ c) : (ratioWord (8 * n) c).toNat = 8 * n * 65536 / c :=
  toNat_ofNat_of_lt ((ratio_quotient_le h).trans_lt (by decide))

/-- Eight bits in, eight bits out: the ratio is 1.0 (R148). -/
theorem ratioWord_one (h : n ≠ 0) : ratioWord (8 * n) (8 * n) = 0x00010000#32 := by
  rw [ratioWord, Nat.mul_div_cancel_left 65536 (by omega)]

end

/-- Settles O15: the bounds of the size are the bounds of the quotient. -/
theorem ratioIsTheRoundedQuotientInItsRange : Obligations.RatioIsTheRoundedQuotientInItsRange := by
  intro s h
  have nonempty : s.inputStream.length ≠ 0 := (inputStream_length s).trans_ne h
  rw [← inputStream_length s]
  intro fits
  obtain ⟨ge, le⟩ := compressOutputs_pLen_bounds s s.inputStream
  have pos : 0 < (s.compressOutputs s.inputStream).pLen := (Nat.pos_of_ne_zero nonempty).trans_le ge
  have ratio : (s.compressOutputs s.inputStream).succeed.ratio =
      ratioWord (8 * s.inputStream.length) (s.compressOutputs s.inputStream).pLen := rfl
  refine ⟨_, exec_compress_nonempty h, ?_⟩
  rw [ratio, State.succeed_origBits, State.succeed_compBits, compressOutputs_origBits_toNat s fits,
    compressOutputs_compBits_toNat s fits, BitVec.le_def, BitVec.le_def, ratioWord_toNat ge]
  refine ⟨pos, rfl, le_ratio_quotient pos le, ratio_quotient_le ge, fun most => ?_, fun least => ?_⟩
  · rw [most, ratioWord_one nonempty]
  · rw [least, ratioWord_eight nonempty]

end Sys2Proof.Machine
end

section
/-! SUPPORT. The decoding loop over any table: it splits the payload, and a decoder that stops early has its result
(42_decompress.md R168, R169, R172). -/

namespace Sys2Proof.Machine

/-- What the decoding loop keeps, once it has read `bits`: the bits are the codes of the emitted symbols and the accumulator,
no beginning of which is a code, and `last` is where the accumulator begins (R168, R169). -/
structure Decoding.Splits (T : List Symbol) (code : Symbol → BitStr) (bits : BitStr) (d : Decoding) : Prop where
  split : SplitsInto T code bits d.out d.acc
  last : d.last = (d.out.flatMap code).length

section
variable {T : List Symbol} {code : Symbol → BitStr}

theorem Decoding.add_some {i : Nat} {b : Bool} {d : Decoding} {x : Symbol} (h : lookupCode T code (d.acc ++ [b]) = some x) :
    d.add T code i b = { acc := [], out := d.out ++ [x], last := i + 1 } := by
  rw [Decoding.add, h]

theorem Decoding.add_none {i : Nat} {b : Bool} {d : Decoding} (h : lookupCode T code (d.acc ++ [b]) = none) :
    d.add T code i b = { d with acc := d.acc ++ [b] } := by
  rw [Decoding.add, h]

/-- One more bit: it completes the code of a symbol, or it makes the accumulator longer (R168). -/
theorem Decoding.Splits.add {bits : BitStr} {d : Decoding} (h : d.Splits T code bits) (b : Bool) :
    (d.add T code bits.length b).Splits T code (bits ++ [b]) := by
  obtain ⟨⟨split, emitted, fragment⟩, last⟩ := h
  cases found : lookupCode T code (d.acc ++ [b]) with
  | some x =>
    obtain ⟨mem, code_x⟩ := lookupCode_some found
    have split_x : bits ++ [b] = (d.out ++ [x]).flatMap code := by simp [split, code_x]
    rw [add_some found]
    refine ⟨⟨by simpa using split_x, fun y hy => ?_, fun p hp hne => absurd (List.prefix_nil.1 hp) hne⟩, ?_⟩
    · rcases List.mem_append.1 hy with hy | hy
      · exact emitted y hy
      · obtain rfl := List.mem_singleton.1 hy
        exact ⟨mem, by simp [code_x]⟩
    · exact (by simp : bits.length + 1 = (bits ++ [b]).length).trans (congrArg List.length split_x)
  | none =>
    rw [add_none found]
    refine ⟨⟨by simp [split], emitted, fun p hp hne => ?_⟩, last⟩
    rcases List.prefix_concat_iff.1 hp with rfl | hp
    · exact (lookupCode_eq_none_iff ..).1 found
    · exact fragment p hp hne

theorem Decoding.Splits.decodeFrom {read : BitStr} {d : Decoding} (h : d.Splits T code read) (bits : BitStr) :
    (decodeFrom T code read.length bits d).Splits T code (read ++ bits) := by
  induction bits generalizing read d with
  | nil => simpa [Machine.decodeFrom] using h
  | cons b bits ih => simpa [Machine.decodeFrom] using ih (h.add b)

theorem decodeBits_splits (T : List Symbol) (code : Symbol → BitStr) (bits : BitStr) :
    (decodeBits T code bits).Splits T code bits :=
  have start : Decoding.Splits T code [] { acc := [], out := [], last := 0 } :=
    ⟨⟨rfl, by simp, fun _ hp hne => absurd (List.prefix_nil.1 hp) hne⟩, rfl⟩
  start.decodeFrom bits

/-! ### The early stop -/

theorem Decoding.result_of_acc_ne_nil {d : Decoding} (h : d.acc ≠ []) : d.result = .error (.incompleteCode d.last) :=
  if_neg h

/-- An accumulator that begins no code grows to the end of the payload, so the result is already decided (R172). -/
theorem decodeFrom_result_of_dead {d : Decoding} (hne : d.acc ≠ []) (dead : ∀ x ∈ T, ¬ d.acc <+: code x) (i : Nat)
    (bits : BitStr) : (decodeFrom T code i bits d).result = d.result := by
  rw [decodeFrom_fragment T code bits d.acc d.out i d.last fun p _ _ x hx h => dead x hx (h ▸ List.prefix_append _ _),
    Decoding.result_of_acc_ne_nil hne, Decoding.result_of_acc_ne_nil (by simp [hne])]

theorem decodeEarlyStop_result (i : Nat) (bits : BitStr) (d : Decoding) :
    (decodeEarlyStop T code i bits d).result = (decodeFrom T code i bits d).result := by
  induction bits generalizing i d with
  | nil => rfl
  | cons b bits ih =>
    rw [decodeEarlyStop, decodeFrom]
    split
    · exact ih _ _
    · next stops =>
      obtain ⟨hne, dead⟩ : (d.add T code i b).acc ≠ [] ∧ ∀ x ∈ T, ¬ (d.add T code i b).acc <+: code x := by
        simpa using stops
      exact (decodeFrom_result_of_dead hne dead (i + 1) bits).symm

end

/-! ### The statements -/

/-- Settles O27, by the invariant of the decoding loop. -/
theorem everyPayloadSplitsIntoCodesAndAFragment : Obligations.EveryPayloadSplitsIntoCodesAndAFragment := fun T code bits =>
  have ⟨split, last⟩ := decodeBits_splits T code bits
  ⟨split, last⟩

/-- Settles O30: the loops part only where the accumulator begins no code. -/
theorem earlyStopDecoderHasTheSameResult : Obligations.EarlyStopDecoderHasTheSameResult := fun _ _ bits =>
  decodeEarlyStop_result 0 bits _

end Sys2Proof.Machine
end

section
/-! SUPPORT. The table check: it finds the smallest pair, and CHECK_TABLE and DECOMPRESS report it alike (42_decompress.md
R161 to R167, R173, R216). -/

namespace Sys2Proof.Machine

/-! ### The smallest pair -/

/-- A search through a list in lexicographic order finds the least pair of those it looks for (R162). -/
theorem find?_eq_some_of_leastPair {l : List (Symbol × Symbol)} {test : Symbol × Symbol → Bool} {P : Symbol → Symbol → Prop}
    {x y : Symbol} (sorted : l.Pairwise (Prod.Lex (· < ·) (· < ·))) (iff : ∀ a b, (a, b) ∈ l ∧ test (a, b) = true ↔ P a b)
    (least : LeastPair P x y) : l.find? test = some (x, y) := by
  obtain ⟨holds, least⟩ := least
  obtain ⟨mem, pass⟩ := (iff x y).2 holds
  obtain ⟨⟨a, b⟩, found⟩ := Option.isSome_iff_exists.1 (List.find?_isSome.2 ⟨(x, y), mem, pass⟩)
  obtain ⟨pass', before, after, rfl, fails⟩ := List.find?_eq_some_iff_append.1 found
  have le := least a b ((iff a b).1 ⟨by simp, pass'⟩)
  rcases List.mem_append.1 mem with h | h
  · exact absurd pass (by simpa using fails _ h)
  · rcases List.mem_cons.1 h with h | h
    · rw [h]; exact found
    · obtain ⟨-, from_found, -⟩ := List.pairwise_append.1 sorted
      have lt : a < x ∨ a = x ∧ b < y := Prod.lex_def.1 (List.rel_of_pairwise_cons from_found h)
      exfalso; bv_omega

/-- The pairs of a rising list, first by first, are in lexicographic order (R162). -/
theorem pairs_sorted {T : List Symbol} (hT : T.Pairwise (· < ·)) (q : Symbol → Symbol → Bool) :
    (T.flatMap fun s => (T.filter (q s)).map fun t => (s, t)).Pairwise (Prod.Lex (· < ·) (· < ·)) := by
  rw [List.pairwise_flatMap]
  refine ⟨fun s _ => List.pairwise_map.2 ((hT.filter _).imp fun lt => .right s lt), hT.imp fun lt p hp p' hp' => ?_⟩
  obtain ⟨t, -, rfl⟩ := List.mem_map.1 hp
  obtain ⟨t', -, rfl⟩ := List.mem_map.1 hp'
  exact .left _ _ lt

section
variable {T : List Symbol} {code : Symbol → BitStr} {x y : Symbol}

theorem mem_pairsLt_test (a b : Symbol) :
    ((a, b) ∈ pairsLt T ∧ (code a == code b) = true) ↔ DuplicatePair T code a b := by
  simp [mem_pairsLt, DuplicatePair, and_assoc]

theorem mem_pairsNe_test (a b : Symbol) :
    ((a, b) ∈ pairsNe T ∧ properPrefix (code a) (code b) = true) ↔ PrefixPair T code a b := by
  simp [mem_pairsNe, properPrefix_iff, PrefixPair, and_assoc]

theorem find?_duplicatePair (hT : T.Pairwise (· < ·)) (least : LeastPair (DuplicatePair T code) x y) :
    (pairsLt T).find? (fun p => code p.1 == code p.2) = some (x, y) :=
  find?_eq_some_of_leastPair (pairs_sorted hT fun s t => decide (s < t)) mem_pairsLt_test least

theorem find?_prefixPair (hT : T.Pairwise (· < ·)) (least : LeastPair (PrefixPair T code) x y) :
    (pairsNe T).find? (fun p => properPrefix (code p.1) (code p.2)) = some (x, y) :=
  find?_eq_some_of_leastPair (pairs_sorted hT fun s t => s != t) mem_pairsNe_test least

theorem tableCheck_duplicatePair (hT : T.Pairwise (· < ·)) (least : LeastPair (DuplicatePair T code) x y) :
    tableCheck T code = some (.duplicateCode x y) := by
  rw [tableCheck, find?_duplicatePair hT least]

theorem tableCheck_prefixPair (hT : T.Pairwise (· < ·)) (unique : ∀ a b, ¬ DuplicatePair T code a b)
    (least : LeastPair (PrefixPair T code) x y) : tableCheck T code = some (.nonPrefixFree x y) := by
  have no_duplicate : (pairsLt T).find? (fun p => code p.1 == code p.2) = none :=
    List.find?_eq_none.2 fun (a, b) mem same => unique a b ((mem_pairsLt_test a b).1 ⟨mem, same⟩)
  simp only [tableCheck, no_duplicate, find?_prefixPair hT least]

end

/-- The two symbols of a pair in ERRINFO (R211). -/
theorem pairInfo_eq (x y : Symbol) : pairInfo x y = BitVec.ofNat 32 (x.toNat + 256 * y.toNat) := by
  have hx := x.isLt
  have hy := y.isLt
  have high : (0#16 ++ y).toNat = y.toNat := by rw [BitVec.toNat_append]; simp
  apply BitVec.eq_of_toNat_eq
  change BitVec.toNat (w := 16 + 8 + 8) (0#16 ++ y ++ x) = _
  rw [BitVec.toNat_append, high, ← Nat.shiftLeft_add_eq_or_of_lt hx, Nat.shiftLeft_eq, BitVec.toNat_ofNat]
  omega

/-! ### The checks of a state -/

theorem tableSymbols_eq_nil_iff (s : State) : s.tableSymbols = [] ↔ ∀ x, (s.entry x).valid = false := by
  simp [List.eq_nil_iff_forall_not_mem]

theorem checkTable_empty {s : State} (h : s.tableSymbols = []) : s.checkTable = some .emptyTable := if_pos h

theorem checkTable_nonempty {s : State} (h : s.tableSymbols ≠ []) : s.checkTable = tableCheck s.tableSymbols s.codeOf :=
  if_neg h

/-- A table of one symbol at least in which no code begins another passes the check (R162, R173). -/
theorem checkTable_eq_none_iff (s : State) :
    s.checkTable = none ↔ s.tableSymbols ≠ [] ∧ PrefixFree s.tableSymbols s.codeOf := by
  by_cases h : s.tableSymbols = []
  · simp [checkTable_empty h, h]
  · simp [checkTable_nonempty h, h, tableCheck_eq_none_iff]

/-- The errors CHECK_TABLE can find in a table that is not empty (R162, R210). -/
theorem checkTable_some_code {s : State} (hT : s.tableSymbols ≠ []) {e : CmdError} (h : s.checkTable = some e) :
    e.code = 5#4 ∨ e.code = 6#4 := by
  rw [checkTable_nonempty hT] at h
  rcases tableCheck_some h with ⟨x, y, rfl⟩ | ⟨x, y, rfl⟩
  exacts [.inl rfl, .inr rfl]

/-- With a non-empty binary payload DECOMPRESS finds what CHECK_TABLE finds, and decodes when that is nothing (R216). -/
theorem decompressResult_of_binary {s : State} (hp : s.pLen ≠ 0) (binary : s.PayloadBinary) :
    (∀ e, s.checkTable = some e → s.decompressResult = .error e) ∧
    (s.checkTable = none →
      s.decompressResult = (decodeBits s.tableSymbols s.codeOf (s.payload.map charBit)).result) := by
  have good := (firstMalformed_eq_none_iff s).2 binary
  rw [State.checkTable]
  rcases decompressResult_cases s with ⟨h, -⟩ | ⟨-, hT, hr⟩ | ⟨-, -, i, h, -⟩ | ⟨-, hT, -, e, hc, hr⟩ | ⟨-, hT, -, hc, hr⟩
  · exact absurd h hp
  · simp [hT, hr]
  · cases good.symm.trans h
  · simp [hT, hc, hr]
  · simp [hT, hc, hr]

/-- A fault of the table is CHECK_TABLE's error, and DECOMPRESS's for a non-empty binary payload (R173, R216). -/
theorem exec_of_checkTable_some {s : State} {e : CmdError} (fault : s.checkTable = some e) :
    exec .checkTable s = .next (s.raise e) ∧
    (s.pLen ≠ 0 → s.PayloadBinary → exec .decompress s = exec .checkTable s) := by
  refine ⟨exec_checkTable_error fault, fun hp binary => ?_⟩
  obtain ⟨fails, -⟩ := decompressResult_of_binary hp binary
  rw [exec_checkTable_error fault, exec_decompress_error (fails e fault)]

/-- Settles O24: the checks in their order; the first malformed character is the first that is not binary. -/
theorem decompressChecksItsPreconditionsInOrder : Obligations.DecompressChecksItsPreconditionsInOrder := by
  intro s
  refine ⟨fun hp => ?_, fun hp invalid => ?_, fun i hp ⟨x, valid⟩ hi h₀ h₁ before => ?_⟩
  · exact exec_decompress_error (e := .emptyPayload) (by simp [State.decompressResult, hp])
  · have hT := (tableSymbols_eq_nil_iff s).2 invalid
    exact exec_decompress_error (e := .emptyTable) (by simp [State.decompressResult, hp, hT])
  · have hT : s.tableSymbols ≠ [] := List.ne_nil_of_mem ((mem_tableSymbols s x).2 valid)
    have first : firstMalformed s.payload = some i := by
      rw [firstMalformed, List.findIdx?_eq_some_iff_getElem]
      refine ⟨by simpa using hi, by simp [payload_getElem, malformed, h₀, h₁], fun j hj => ?_⟩
      rw [payload_getElem]
      rcases before j hj with h | h <;> simp [malformed, h]
    exact exec_decompress_error (e := .malformedPayload i) (by simp [State.decompressResult, hp, hT, first])

/-- Settles O25: the searches find the least pairs, and both commands report what TableCheck finds. -/
theorem tableFaultsReportTheSmallestPair : Obligations.TableFaultsReportTheSmallestPair := by
  intro s x y
  rw [← pairInfo_eq]
  refine ⟨fun least => exec_of_checkTable_some (e := .duplicateCode x y) ?_,
    fun unique least => exec_of_checkTable_some (e := .nonPrefixFree x y) ?_⟩
  · have ⟨⟨mem, _⟩, _⟩ := least
    rw [checkTable_nonempty (List.ne_nil_of_mem mem), tableCheck_duplicatePair (tableSymbols_sorted s) least]
  · have ⟨⟨mem, _⟩, _⟩ := least
    rw [checkTable_nonempty (List.ne_nil_of_mem mem), tableCheck_prefixPair (tableSymbols_sorted s) unique least]

/-- Settles O32: a table passes exactly when it is not empty and no code of it begins another. -/
theorem checkTableDecidesPrefixFreedom : Obligations.CheckTableDecidesPrefixFreedom := by
  intro s
  refine ⟨fun hT => exec_checkTable_error (checkTable_empty hT), fun hT free => ?_, fun notFree => ?_⟩
  · exact exec_checkTable_ok ((checkTable_eq_none_iff s).2 ⟨hT, free⟩)
  · have hT : s.tableSymbols ≠ [] := fun h => notFree (by simp [h, PrefixFree])
    cases fault : s.checkTable with
    | none => exact absurd ((checkTable_eq_none_iff s).1 fault).2 notFree
    | some e => exact ⟨e.code, e.info, checkTable_some_code hT fault, exec_checkTable_error fault⟩

/-- Settles O33: what CHECK_TABLE finds DECOMPRESS finds, and after a pass only the decoding can fail. -/
theorem checkTableForetellsDecompress : Obligations.CheckTableForetellsDecompress := by
  intro s hp binary
  obtain ⟨fails, passes⟩ := decompressResult_of_binary hp binary
  cases fault : s.checkTable with
  | some e =>
    exact ⟨s.raise e, s.raise e, exec_checkTable_error fault, exec_decompress_error (fails e fault), fun _ => rfl,
      fun h => absurd h e.code_ne_zero⟩
  | none =>
    have hr := passes fault
    rw [Decoding.result] at hr
    split at hr
    · exact ⟨s.succeed, _, exec_checkTable_ok fault, exec_decompress_ok hr, fun h => absurd rfl h, fun _ => .inl rfl⟩
    · exact ⟨s.succeed, _, exec_checkTable_ok fault, exec_decompress_error hr, fun h => absurd rfl h, fun _ => .inr rfl⟩

/-! ### What the decoders read -/

section
variable {T : List Symbol} {code code' : Symbol → BitStr} (same : ∀ x ∈ T, code x = code' x)
include same

theorem tableCheck_congr : tableCheck T code = tableCheck T code' := by
  have duplicate : (pairsLt T).find? (fun p => code p.1 == code p.2) =
      (pairsLt T).find? fun p => code' p.1 == code' p.2 :=
    List.find?_congr fun p hp => by
      obtain ⟨h₁, h₂, -⟩ := (mem_pairsLt T p).1 hp
      rw [same _ h₁, same _ h₂]
  have prefixes : (pairsNe T).find? (fun p => properPrefix (code p.1) (code p.2)) =
      (pairsNe T).find? fun p => properPrefix (code' p.1) (code' p.2) :=
    List.find?_congr fun p hp => by
      obtain ⟨h₁, h₂, -⟩ := (mem_pairsNe T p).1 hp
      rw [same _ h₁, same _ h₂]
  rw [tableCheck, tableCheck, duplicate, prefixes]

theorem lookupCode_congr : lookupCode T code = lookupCode T code' :=
  funext fun _ => List.find?_congr fun x hx => by rw [same x hx]

theorem decodeFrom_congr (i : Nat) (bits : BitStr) (d : Decoding) :
    decodeFrom T code i bits d = decodeFrom T code' i bits d := by
  induction bits generalizing i d with
  | nil => rfl
  | cons b bits ih => rw [decodeFrom, decodeFrom, Decoding.add, Decoding.add, lookupCode_congr same, ih]

end

/-- What the decoders read is the same in both states: the payload, the symbols of the table and their codes (R161). -/
structure SameForDecoders (s s' : State) : Prop where
  payload : s.payload = s'.payload
  tableSymbols : s.tableSymbols = s'.tableSymbols
  codeOf : ∀ x ∈ s.tableSymbols, s.codeOf x = s'.codeOf x

theorem SameForDecoders.checkTable {s s' : State} (h : SameForDecoders s s') : s.checkTable = s'.checkTable := by
  rw [State.checkTable, State.checkTable, tableCheck_congr h.codeOf, h.tableSymbols]

theorem SameForDecoders.decompressResult {s s' : State} (h : SameForDecoders s s') :
    s.decompressResult = s'.decompressResult := by
  have pLen : s.pLen = s'.pLen := by rw [← payload_length, h.payload, payload_length]
  rw [State.decompressResult, State.decompressResult, tableCheck_congr h.codeOf, decodeBits, decodeFrom_congr h.codeOf, pLen,
    h.payload, h.tableSymbols]
  rfl

theorem codeBits_congr {e e' : CTEntry} (len : e.len = e'.len)
    (bits : ∀ k < e.len.toNat, e.code.getLsbD k = e'.code.getLsbD k) : e.codeBits = e'.codeBits := by
  rw [CTEntry.codeBits, CTEntry.codeBits, ← len]
  exact List.map_congr_left fun k hk => bits k (List.mem_range.1 hk)

/-- Settles O29: both results are functions of the payload, the table's symbols and their codes. -/
theorem decodersReadOnlyTheCodesOfValidEntries : Obligations.DecodersReadOnlyTheCodesOfValidEntries := by
  intro s s' payload valid entries
  have same : SameForDecoders s s' :=
    { payload := payload
      tableSymbols := List.filter_congr fun x _ => valid x
      codeOf := fun x hx =>
        have ⟨len, bits⟩ := entries x ((mem_tableSymbols s x).1 hx)
        codeBits_congr len bits }
  constructor
  · cases hr : s.decompressResult with
    | error e =>
      exact ⟨s.raise e, s'.raise e, exec_decompress_error hr, exec_decompress_error (same.decompressResult ▸ hr), rfl, rfl,
        fun h => absurd h e.code_ne_zero⟩
    | ok out =>
      refine ⟨_, _, exec_decompress_ok hr, exec_decompress_ok (same.decompressResult ▸ hr), rfl, rfl,
        fun _ => ⟨rfl, fun j hj => ?_⟩⟩
      calc (s.decompressOutputs out).readOBUF j = out[j] := (readOBUF_decompressOutputs s out j).trans (dif_pos hj)
        _ = (s'.decompressOutputs out).readOBUF j := ((readOBUF_decompressOutputs s' out j).trans (dif_pos hj)).symm
  · cases fault : s.checkTable with
    | some e =>
      exact ⟨s.raise e, s'.raise e, exec_checkTable_error fault, exec_checkTable_error (same.checkTable ▸ fault), rfl, rfl⟩
    | none => exact ⟨s.succeed, s'.succeed, exec_checkTable_ok fault, exec_checkTable_ok (same.checkTable ▸ fault), rfl, rfl⟩

end Sys2Proof.Machine
end

section
/-! SUPPORT. DECOMPRESS of a payload that is split into codes, and the round trip (42_decompress.md R168 to R171). -/

namespace Sys2Proof.Machine

/-! ### A payload and its split -/

theorem State.PayloadIs.payload_eq {s : State} {bits : BitStr} (h : s.PayloadIs bits) : s.payload = bits.map bitChar := by
  obtain ⟨pLen, chars⟩ := h
  refine List.ext_getElem (by simp [pLen]) fun i hi hi' => ?_
  rw [payload_getElem, List.getElem_map, chars i (by simpa using hi')]

theorem State.PayloadIs.binary {s : State} {bits : BitStr} (h : s.PayloadIs bits) : s.PayloadBinary := by
  rw [State.PayloadBinary, ← firstMalformed_eq_none_iff, h.payload_eq, firstMalformed, List.findIdx?_eq_none_iff]
  rintro c hc
  obtain ⟨b, -, rfl⟩ := List.mem_map.1 hc
  exact malformed_bitChar b

/-- A binary character is the one of its bit (R40). -/
theorem bitChar_charBit {c : Byte} (h : c = 0x30#8 ∨ c = 0x31#8) : bitChar (charBit c) = c := by
  rcases h with rfl | rfl <;> decide

/-- A binary payload stands for the bits of its characters (R40, R168). -/
theorem State.PayloadBinary.payloadIs {s : State} (h : s.PayloadBinary) : s.PayloadIs (s.payload.map charBit) := by
  refine ⟨by simp, fun i hi => ?_⟩
  rw [List.getElem_map, payload_getElem, bitChar_charBit (h i (by simpa using hi))]

/-- The decoding loop has one answer for a split over a table no code of which begins another (R168, R169). -/
theorem decodeBits_of_splitsInto {T : List Symbol} {code : Symbol → BitStr} (free : PrefixFree T code) {bits : BitStr}
    {xs : List Symbol} {tail : BitStr} (h : SplitsInto T code bits xs tail) :
    decodeBits T code bits = { acc := tail, out := xs, last := (xs.flatMap code).length } := by
  have last := (decodeBits_splits T code bits).last
  obtain ⟨rfl, coded, fragment⟩ := h
  obtain ⟨n, emitted⟩ := decodeFrom_flatMap free xs coded 0 0 []
  have decoded : decodeBits T code (xs.flatMap code ++ tail) = { acc := tail, out := xs, last := n } := by
    rw [decodeBits, decodeFrom_append, emitted, decodeFrom_fragment T code tail [] _ _ _ fragment]
    rfl
  rw [decoded] at last
  rw [decoded, ← last]

/-- What DECOMPRESS computes from a split of its payload: the symbols, or where the fragment begins (R169, R170). -/
theorem decompressResult_of_splitsInto {s : State} (hT : s.tableSymbols ≠ []) (free : PrefixFree s.tableSymbols s.codeOf)
    (hp : s.pLen ≠ 0) {bits : BitStr} (payload : s.PayloadIs bits) {xs : List Symbol} {tail : BitStr}
    (split : SplitsInto s.tableSymbols s.codeOf bits xs tail) :
    s.decompressResult = if tail = [] then .ok xs else .error (.incompleteCode (xs.flatMap s.codeOf).length) := by
  have bits_eq : s.payload.map charBit = bits := by simp [payload.payload_eq, Function.comp_def]
  rw [(decompressResult_of_binary hp payload.binary).2 ((checkTable_eq_none_iff s).2 ⟨hT, free⟩), bits_eq,
    decodeBits_of_splitsInto free split, Decoding.result]

/-- Settles O26: the decoding loop gives the split, and DECOMPRESS answers by it. -/
theorem decompressEmitsTheSymbolsOrReportsTheFragment : Obligations.DecompressEmitsTheSymbolsOrReportsTheFragment := by
  intro s hT free hp
  refine ⟨fun binary => ⟨_, _, _, binary.payloadIs, (decodeBits_splits ..).split⟩, fun bits xs tail payload split => ?_⟩
  have result := decompressResult_of_splitsInto hT free hp payload split
  refine ⟨fun complete => ?_, fun incomplete => ?_⟩
  · rw [if_pos complete] at result
    refine ⟨_, exec_decompress_ok result, rfl, fun j hj => ?_, fun j hj => ?_, decompressResult_ok_length result⟩
    · exact (readOBUF_decompressOutputs s xs j).trans (dif_pos hj)
    · exact (readOBUF_decompressOutputs s xs j).trans (dif_neg (Nat.not_lt.2 hj))
  · rw [if_neg incomplete] at result
    exact exec_decompress_error result

/-! ### After a COMPRESS -/

section
variable (s : State) {xs : List Symbol}

theorem tableSymbols_compressOutputs_ne_nil (h : xs ≠ []) : (s.compressOutputs xs).tableSymbols ≠ [] := by
  obtain ⟨x, hx⟩ := List.exists_mem_of_ne_nil xs h
  exact List.ne_nil_of_mem ((mem_tableSymbols_compressOutputs s xs x).2 hx)

theorem payloadIs_compressOutputs : (s.compressOutputs xs).PayloadIs (encodeBits (codesOf xs) xs) :=
  ⟨rfl, fun i hi => (readPBUF_compressOutputs s xs i).trans (dif_pos hi)⟩

/-- The payload COMPRESS writes is the codes of its stream, with no fragment (R143). -/
theorem splitsInto_compressOutputs :
    SplitsInto (s.compressOutputs xs).tableSymbols (s.compressOutputs xs).codeOf (encodeBits (codesOf xs) xs) xs [] := by
  refine ⟨by rw [List.append_nil, encodeBits_eq_flatMap s], fun x hx => ⟨?_, ?_⟩, fun p hp hne => ?_⟩
  · exact (mem_tableSymbols_compressOutputs s xs x).2 hx
  · exact List.ne_nil_of_length_pos (codesOf_length (codeOf_compressOutputs s hx)).1
  · exact absurd (List.prefix_nil.1 hp) hne

/-- What DECOMPRESS computes from the outputs of COMPRESS is the stream (R171). -/
theorem decompressResult_compressOutputs (h : xs ≠ []) : (s.compressOutputs xs).decompressResult = .ok xs := by
  have hp : (s.compressOutputs xs).pLen ≠ 0 := by
    have := encodeBits_length_ge xs
    have := List.length_pos_of_ne_nil h
    rw [State.compressOutputs_pLen]
    omega
  rw [decompressResult_of_splitsInto (tableSymbols_compressOutputs_ne_nil s h) (prefixFree_compressOutputs s xs) hp
    (payloadIs_compressOutputs s) (splitsInto_compressOutputs s), if_pos rfl]

end

/-- Settles O17: the table COMPRESS leaves is not empty, and no code of it begins another. -/
theorem checkTablePassesAfterCompress : Obligations.CheckTablePassesAfterCompress := by
  intro s h
  have passes : (s.compressOutputs s.inputStream).checkTable = none :=
    (checkTable_eq_none_iff _).2
      ⟨tableSymbols_compressOutputs_ne_nil s (inputStream_ne_nil h), prefixFree_compressOutputs s s.inputStream⟩
  have same : SameForDecoders (s.compressOutputs s.inputStream).succeed (s.compressOutputs s.inputStream) :=
    ⟨rfl, rfl, fun _ _ => rfl⟩
  exact ⟨_, exec_compress_nonempty h, exec_checkTable_ok (same.checkTable.trans passes)⟩

/-! ### Runs of a command -/

/-- Host reads change the list of turns and the model's own draws and records, and nothing else (R61). -/
theorem stepsTo_reads {s : State} (hr : s.rst = false) (reads : List (Space × Word)) {rest : List Turn}
    (ht : s.turns = reads.map (fun a => rd a.1 a.2) ++ rest) :
    ∃ n r, StepsTo reads.length s { s with turns := rest, draws := n, trace := r } := by
  induction reads generalizing s with
  | nil => exact ⟨s.draws, s.trace, by rw [← ht.trans (List.nil_append rest)]; rfl⟩
  | cons a reads ih =>
    obtain ⟨w, m, move⟩ := step_read hr ht
    obtain ⟨n, r, moves⟩ := ih (s := { s with
      turns := reads.map (fun a => rd a.1 a.2) ++ rest, draws := m, trace := ⟨.r, a.1, a.2, w⟩ :: s.trace }) hr rfl
    exact ⟨n, r, _, move, moves⟩

/-- A CMD write while idle, host reads and the CORE's turn run the command, on the operands as they are at the issue
(R29, R45, R61). -/
theorem stepsTo_command {s : State} (hb : s.busy = false) (hr : s.rst = false) (i : Instr) (reads : List (Space × Word))
    {rest : List Turn} (ht : s.turns = wr 0#3 4#32 (encode i) :: (reads.map (fun a => rd a.1 a.2) ++ .core :: rest)) :
    ∃ n r, ∀ t, exec i { s with turns := rest, draws := n, trace := r, pend := encode i, busy := true, done := false } =
      .next t → StepsTo (reads.length + 2) s t := by
  have issue := step_write_cmd hr hb ht
  obtain ⟨n, r, moves⟩ := stepsTo_reads (s := { s with
    turns := reads.map (fun a => rd a.1 a.2) ++ .core :: rest, trace := ⟨.w, 0#3, 4#32, encode i⟩ :: s.trace
    pend := encode i, busy := true, done := false }) hr reads rfl
  refine ⟨n, r, fun t hx => ⟨_, issue, stepsTo_trans moves (stepsTo_one (Eq.trans ?_ hx))⟩⟩
  refine step_core_command ?from_next_turn ?enabled ?decoded
  case from_next_turn => exact .inr ⟨rest, rfl, rfl⟩
  case enabled => exact (coreEnabled_iff _).2 ⟨rfl, hr⟩
  case decoded => exact decode_encode i

/-- COMPRESS of a non-empty input and reads after it leave an idle state from which DECOMPRESS computes the stream (R171). -/
theorem stepsTo_compressed {s : State} (hb : s.busy = false) (hr : s.rst = false) (hi : s.iLen ≠ 0)
    (reads₁ reads₂ : List (Space × Word)) {rest : List Turn}
    (ht : s.turns = wr 0#3 4#32 (encode .compress) :: (reads₁.map (fun a => rd a.1 a.2) ++
      .core :: (reads₂.map (fun a => rd a.1 a.2) ++ rest))) :
    ∃ u, StepsTo (reads₁.length + 2 + reads₂.length) s u ∧ u.busy = false ∧ u.rst = false ∧ u.turns = rest ∧
      u.decompressResult = .ok s.inputStream := by
  obtain ⟨n₁, r₁, run⟩ := stepsTo_command hb hr .compress reads₁ ht
  have compressed := run _ (exec_compress_nonempty hi)
  obtain ⟨n₂, r₂, read⟩ := stepsTo_reads (s := State.succeed (State.compressOutputs { s with
    turns := reads₂.map (fun a => rd a.1 a.2) ++ rest, draws := n₁, trace := r₁
    pend := encode .compress, busy := true, done := false } s.inputStream)) hr reads₂ rfl
  refine ⟨_, stepsTo_trans compressed read, rfl, hr, rfl, ?_⟩
  rw [← decompressResult_compressOutputs s (inputStream_ne_nil hi)]
  exact SameForDecoders.decompressResult ⟨rfl, rfl, fun _ _ => rfl⟩

/-- Settles O18: the two commands run one after the other, and the second computes the stream from the outputs of the
first. -/
theorem decompressAfterCompressRestoresTheInput : Obligations.DecompressAfterCompressRestoresTheInput := by
  intro s reads₁ reads₂ reads₃ rest hb hr hi ht
  have nonempty : s.iLen ≠ 0 := Nat.ne_of_gt hi
  simp only [List.append_assoc, List.cons_append] at ht
  obtain ⟨u, compress, idle, out_of_reset, turns, result⟩ := stepsTo_compressed hb hr nonempty reads₁ reads₂ ht
  obtain ⟨n, r, run⟩ := stepsTo_command idle out_of_reset .decompress reads₃ turns
  have restored : State.decompressResult { u with
      turns := rest, draws := n, trace := r, pend := encode .decompress, busy := true, done := false } = .ok s.inputStream :=
    (SameForDecoders.decompressResult ⟨rfl, rfl, fun _ _ => rfl⟩).trans result
  have steps := stepsTo_trans compress (run _ (exec_decompress_ok restored))
  rw [show reads₁.length + 2 + reads₂.length + (reads₃.length + 2) =
    reads₁.length + reads₂.length + reads₃.length + 4 by omega] at steps
  refine ⟨_, steps, rfl, rfl, rfl, rfl, inputStream_length s, fun i hlt => ?_⟩
  have hlt' : i < s.inputStream.length := by rwa [inputStream_length]
  rw [← inputStream_getElem s i hlt']
  exact (readOBUF_decompressOutputs _ s.inputStream i).trans (dif_pos hlt')

end Sys2Proof.Machine
end

section
/-! SUPPORT. The binary trie of a table no code of which begins another, and the walk over it (42_decompress.md R172). -/

namespace Sys2Proof.Machine

/-! ### Places in a trie -/

/-- The trie below the place that the bits lead to from the root: what `trieWalk` stands at after it has read them (R172). -/
def Trie.descend (t : Trie) (bits : BitStr) : Trie := bits.foldl Trie.child t

@[simp] theorem Trie.descend_nil (t : Trie) : t.descend [] = t := rfl

@[simp] theorem Trie.descend_cons (t : Trie) (b : Bool) (bits : BitStr) :
    t.descend (b :: bits) = (t.child b).descend bits := rfl

theorem Trie.descend_append (t : Trie) (bits more : BitStr) : t.descend (bits ++ more) = (t.descend bits).descend more :=
  List.foldl_append

@[simp] theorem Trie.descend_empty (bits : BitStr) : Trie.empty.descend bits = .empty := by
  induction bits with
  | nil => rfl
  | cons b bits ih => exact ih

@[simp] theorem Trie.child_leaf (x : Symbol) (b : Bool) : (Trie.leaf x).child b = .empty := by cases b <;> rfl

/-- Nothing stands below a leaf. -/
theorem Trie.descend_leaf_eq_leaf {x y : Symbol} {bits : BitStr} (h : (Trie.leaf x).descend bits = .leaf y) :
    bits = [] ∧ x = y := by
  cases bits with
  | nil => exact ⟨rfl, Trie.leaf.inj h⟩
  | cons b bits => simp at h

/-! ### Putting a code in -/

theorem Trie.insert_leaf (y : Symbol) (bs : BitStr) (x : Symbol) : (Trie.leaf y).insert bs x = .leaf y := by
  rw [Trie.insert]

/-- The code goes on in the child of its first bit; the other child is kept (R172). -/
theorem Trie.child_insert {t : Trie} (inner : ∀ y, t ≠ .leaf y) (b c : Bool) (bs : BitStr) (x : Symbol) :
    (t.insert (b :: bs) x).child c = if c = b then (t.child b).insert bs x else t.child c := by
  cases t with
  | empty => cases b <;> cases c <;> rfl
  | leaf y => exact absurd rfl (inner y)
  | node l r => cases b <;> cases c <;> rfl

/-- A leaf stays where it is. -/
theorem Trie.descend_insert_of_leaf (bs : BitStr) (x : Symbol) {t : Trie} {y : Symbol} {p : BitStr}
    (h : t.descend p = .leaf y) : (t.insert bs x).descend p = .leaf y := by
  induction bs generalizing t p with
  | nil =>
    cases t with
    | empty => simp at h
    | leaf z => exact h
    | node l r => exact h
  | cons b bs ih =>
    by_cases inner : ∀ z, t ≠ .leaf z
    · cases p with
      | nil => exact absurd h (inner y)
      | cons c p =>
        rw [descend_cons, child_insert inner]
        split
        · next same => exact ih (same ▸ h)
        · exact h
    · obtain ⟨z, rfl⟩ : ∃ z, t = .leaf z := by simpa using inner
      rwa [insert_leaf]

/-- A place of the trie was there before, or is on the way to the new code. -/
theorem Trie.descend_insert_ne_empty {bs : BitStr} {x : Symbol} {t : Trie} {p : BitStr}
    (h : (t.insert bs x).descend p ≠ .empty) : t.descend p ≠ .empty ∨ p <+: bs := by
  induction bs generalizing t p with
  | nil =>
    cases t with
    | empty =>
      cases p with
      | nil => exact .inr List.nil_prefix
      | cons c p => simp [Trie.insert] at h
    | leaf z => exact .inl h
    | node l r => exact .inl h
  | cons b bs ih =>
    by_cases inner : ∀ z, t ≠ .leaf z
    · cases p with
      | nil => exact .inr List.nil_prefix
      | cons c p =>
        rw [descend_cons, child_insert inner] at h
        split at h
        · next same => subst same; exact (ih h).imp_right fun hp => List.cons_prefix_cons.2 ⟨rfl, hp⟩
        · exact .inl h
    · obtain ⟨z, rfl⟩ : ∃ z, t = .leaf z := by simpa using inner
      rw [insert_leaf] at h
      exact .inl h

/-- The code is put in where its way is free. -/
theorem Trie.descend_insert_self (x : Symbol) {bs : BitStr} {t : Trie} (free : t.descend bs = .empty)
    (way : ∀ p y, p <+: bs → t.descend p ≠ .leaf y) : (t.insert bs x).descend bs = .leaf x := by
  induction bs generalizing t with
  | nil => rw [show t = .empty from free]; rfl
  | cons b bs ih =>
    have inner : ∀ y, t ≠ .leaf y := fun y => way [] y List.nil_prefix
    rw [descend_cons, child_insert inner, if_pos rfl]
    exact ih free fun p y hp => way (b :: p) y (List.cons_prefix_cons.2 ⟨rfl, hp⟩)

/-! ### The trie of a table -/

/-- The trie holds the table: each code leads to its symbol's leaf, and every place is on the way to some code (R172). -/
structure Trie.Holds (t : Trie) (T : List Symbol) (code : Symbol → BitStr) : Prop where
  leaf_of_mem : ∀ x ∈ T, t.descend (code x) = .leaf x
  on_the_way : ∀ p, t.descend p ≠ .empty → ∃ x ∈ T, p <+: code x

section
variable {T : List Symbol} {code : Symbol → BitStr}

/-- A leaf is at the code of its symbol. -/
theorem Trie.Holds.code_of_leaf {t : Trie} (h : t.Holds T code) {p : BitStr} {y : Symbol} (leaf : t.descend p = .leaf y) :
    y ∈ T ∧ code y = p := by
  obtain ⟨x, hx, more, split⟩ := h.on_the_way p (by simp [leaf])
  have below : (Trie.leaf y).descend more = .leaf x := by
    rw [← leaf, ← Trie.descend_append, split, h.leaf_of_mem x hx]
  obtain ⟨rfl, rfl⟩ := Trie.descend_leaf_eq_leaf below
  exact ⟨hx, by simp [← split]⟩

/-- A code that neither begins nor follows one of the table is put in beside them. -/
theorem Trie.Holds.insert {t : Trie} (h : t.Holds T code) {x : Symbol} (free : PrefixFree (T ++ [x]) code) :
    (t.insert (code x) x).Holds (T ++ [x]) code where
  leaf_of_mem y hy := by
    by_cases mem : y ∈ T
    · exact Trie.descend_insert_of_leaf _ _ (h.leaf_of_mem y mem)
    · obtain rfl : y = x := by simpa [mem] using hy
      refine Trie.descend_insert_self y ?_ fun p z hp leaf => ?_
      · by_contra place
        obtain ⟨z, hz, hp⟩ := h.on_the_way _ place
        exact mem (free y hy z (by simp [hz]) hp ▸ hz)
      · obtain ⟨hz, rfl⟩ := h.code_of_leaf leaf
        exact mem (free z (by simp [hz]) y hy hp ▸ hz)
  on_the_way p place := by
    rcases Trie.descend_insert_ne_empty place with old | hp
    · obtain ⟨z, hz, hp⟩ := h.on_the_way p old
      exact ⟨z, by simp [hz], hp⟩
    · exact ⟨x, by simp, hp⟩

theorem trieOf_holds (free : PrefixFree T code) : (trieOf T code).Holds T code := by
  induction T using List.reverseRecOn with
  | nil => exact ⟨by simp, fun p place => absurd (Trie.descend_empty p) place⟩
  | append_singleton T x ih =>
    have before : (trieOf T code).Holds T code := ih fun y hy z hz => free y (by simp [hy]) z (by simp [hz])
    rw [trieOf, List.foldl_append]
    exact before.insert free

/-! ### The walk -/

/-- From the place of an accumulator that completes no code, the walk has the result of the loop (R172). -/
theorem Trie.Holds.trieWalk_eq {root : Trie} (h : root.Holds T code) (i : Nat) (bits acc : BitStr) (out : List Symbol)
    (last : Nat) : trieWalk root i bits (root.descend acc) (decide (acc ≠ [])) out last =
      (decodeFrom T code i bits { acc := acc, out := out, last := last }).result := by
  induction bits generalizing i acc out last with
  | nil => by_cases hacc : acc = [] <;> simp [trieWalk, decodeFrom, Decoding.result, hacc]
  | cons b bits ih =>
    have place : (root.descend acc).child b = root.descend (acc ++ [b]) := by simp [Trie.descend_append]
    rw [trieWalk.eq_def, decodeFrom]
    simp only [place]
    cases found : lookupCode T code (acc ++ [b]) with
    | some x =>
      obtain ⟨mem, code_x⟩ := lookupCode_some found
      rw [← code_x, h.leaf_of_mem x mem, Decoding.add_some found]
      exact ih (i + 1) [] (out ++ [x]) (i + 1)
    | none =>
      rw [Decoding.add_none found, ← ih (i + 1) (acc ++ [b])]
      split
      · next x leaf =>
        obtain ⟨mem, code_x⟩ := h.code_of_leaf leaf
        exact absurd code_x ((lookupCode_eq_none_iff ..).1 found x mem)
      · simp

end

/-- Settles O31: the trie of a table that passes has its leaves at the codes, so a bit that completes a code leads to its
leaf. -/
theorem trieDecoderHasTheSameResult : Obligations.TrieDecoderHasTheSameResult := fun T code bits passes =>
  (trieOf_holds ((tableCheck_eq_none_iff T code).1 passes)).trieWalk_eq 0 bits [] [] 0

end Sys2Proof.Machine
end

section
/-! SUPPORT. CLEAR and the commands after it, and the CORE's step on an illegal command word (43_control.md R190 to R192). -/

namespace Sys2Proof.Machine

/-! ### CLEAR -/

/-- CLEAR leaves the zero entry for every symbol (R190). -/
theorem entry_clearOutputs (s : State) (x : Symbol) : s.clearOutputs.entry x = CTEntry.zero := by
  simp [State.entry]

/-- No entry is valid after CLEAR, so the decoder sees an empty table (R161, R190). -/
theorem tableSymbols_clearOutputs (s : State) : s.clearOutputs.tableSymbols = [] :=
  (tableSymbols_eq_nil_iff _).2 fun x => by rw [entry_clearOutputs]; rfl

/-- Settles O34: CLEAR leaves the zero entries and zero lengths, on which each command's first check fails; the completions
find DONE, BUSY and ERRINFO as CLEAR's own completion left them. -/
theorem clearZeroesTableAndRegisters : Obligations.ClearZeroesTableAndRegisters := by
  intro s
  obtain ⟨decompressOfNoPayload, -, -⟩ := decompressChecksItsPreconditionsInOrder s.clearOutputs.succeed
  obtain ⟨checkOfEmptyTable, -, -⟩ := checkTableDecidesPrefixFreedom s.clearOutputs.succeed
  exact ⟨s.clearOutputs.succeed, exec_clear s, rfl, entry_clearOutputs s, fun _ => ⟨rfl, rfl, rfl⟩, Bool.true_and s.ie,
    exec_clear _, decompressOfNoPayload rfl, checkOfEmptyTable (tableSymbols_clearOutputs s),
    compressOfEmptyInputFails _ rfl⟩

/-! ### Illegal command words -/

/-- A word with RSV not 0, or with an OP that is 0 or at least 5, is no command (R95). -/
theorem decode_error_of_illegal {v : Word} (h : rsvField v ≠ 0#24 ∨ opField v = 0#8 ∨ 5#8 ≤ opField v) :
    ∃ e, decode v = .error e := by
  rcases decode_cases v with ⟨-, hd⟩ | ⟨hr, i, ho, -⟩ | ⟨-, -, hd⟩ | ⟨-, -, hd⟩
  · exact ⟨_, hd⟩
  · obtain ⟨ne_zero, lt_five⟩ := opcode_range i
    simp [hr, ho, ne_zero, lt_five] at h
  · exact ⟨_, hd⟩
  · exact ⟨_, hd⟩

/-- A busy CORE out of reset that has the move completes a word that is no command with its error (R45, R192). -/
theorem step_core_illegal {s s₁ : State} (hm : CoreMovesFrom s s₁) (he : s.coreEnabled = true) {e : DecodeReject}
    (hd : decode s.pend = .error e) : step s = .next (s₁.illegalCommand s.pend) := by
  rw [step_of_coreMovesFrom hm, ← hm.pend, coreMove_illegal (hm.coreEnabled.trans he) (hm.pend ▸ hd)]

/-- Settles O5: the decoder rejects the word, and the CORE's move is the error completion with the word as ERRINFO. -/
theorem illegalWordCompletesWithItsError : Obligations.IllegalWordCompletesWithItsError := by
  intro s rest hb hr ht illegal
  obtain ⟨e, hd⟩ := decode_error_of_illegal illegal
  exact step_core_illegal (.inr ⟨rest, ht, rfl⟩) ((coreEnabled_iff s).2 ⟨hb, hr⟩) hd

end Sys2Proof.Machine
end

section
/-! SUPPORT. Every step answers, a failed command writes only the completion, and each command has its own errors
(60_exceptions.md R214 to R218). -/

namespace Sys2Proof.Machine

/-! ### Every step answers -/

/-- Settles O8: the CORE's move answers, and so do a transaction and a level of the reset input. -/
theorem everyStepAnswersNext : Obligations.EveryStepAnswersNext := by
  intro s
  cases ht : s.turns with
  | nil => exact step_nil ht ▸ coreMove_answers s
  | cons move rest =>
    cases move with
    | core => exact step_core ht ▸ coreMove_answers _
    | bus op => exact ⟨_, step_bus ht⟩
    | rst asserted => exact ⟨_, step_rst ht⟩

/-! ### Error completions -/

/-- A command ends with success or as the error completion of the state it started in (R210, R214). -/
theorem exec_success_or_raise {i : Instr} {s t : State} (h : exec i s = .next t) : t.err = 0#4 ∨ ∃ e, t = s.raise e := by
  rcases exec_cases h with ⟨-, -, rfl⟩ | ⟨-, -, rfl⟩ | ⟨-, e, -, rfl⟩ | ⟨-, out, -, rfl⟩ | ⟨-, e, -, rfl⟩ | ⟨-, -, rfl⟩ |
    ⟨-, rfl⟩
  · exact .inr ⟨_, rfl⟩
  · exact .inl rfl
  · exact .inr ⟨e, rfl⟩
  · exact .inl rfl
  · exact .inr ⟨e, rfl⟩
  · exact .inl rfl
  · exact .inl rfl

/-- Settles O35: the error completion is that of the state the command started in. -/
theorem failedCommandWritesOnlyStatus : Obligations.FailedCommandWritesOnlyStatus := by
  intro i s t h failed
  rcases exec_success_or_raise h with success | ⟨e, rfl⟩
  · exact absurd success failed
  · rfl

/-! ### The errors of each command -/

/-- The errors CHECK_TABLE can find in any table (R173). -/
theorem checkTable_error_code {s : State} {e : CmdError} (h : s.checkTable = some e) :
    e.code = 3#4 ∨ e.code = 5#4 ∨ e.code = 6#4 := by
  by_cases hT : s.tableSymbols = []
  · cases (checkTable_empty hT).symm.trans h
    exact .inl rfl
  · exact .inr (checkTable_some_code hT h)

/-- A decoding can fail with IncompleteCodeError only (R169). -/
theorem Decoding.result_error {d : Decoding} {e : CmdError} (h : d.result = .error e) : e = .incompleteCode d.last := by
  by_cases hacc : d.acc = []
  · simp [Decoding.result, hacc] at h
  · exact (Except.error.inj ((Decoding.result_of_acc_ne_nil hacc).symm.trans h)).symm

/-- The errors DECOMPRESS can find (R160, R216). -/
theorem decompressResult_error_code {s : State} {e : CmdError} (h : s.decompressResult = .error e) :
    e.code = 2#4 ∨ e.code = 3#4 ∨ e.code = 4#4 ∨ e.code = 5#4 ∨ e.code = 6#4 ∨ e.code = 7#4 := by
  rcases decompressResult_cases s with ⟨-, hr⟩ | ⟨-, -, hr⟩ | ⟨-, -, i, -, hr⟩ | ⟨-, hT, -, e', fault, hr⟩ | ⟨-, -, -, -, hr⟩
    <;> rw [hr] at h
  · cases h; simp [CmdError.code]
  · cases h; simp [CmdError.code]
  · cases h; simp [CmdError.code]
  · cases h
    rcases checkTable_some_code hT ((checkTable_nonempty hT).trans fault) with h₅ | h₆
    · simp [h₅]
    · simp [h₆]
  · rw [Decoding.result_error h]; simp [CmdError.code]

/-- Settles O37: a command that does not succeed has the code of an error its own checks find. -/
theorem commandsReportOnlyTheirOwnErrors : Obligations.CommandsReportOnlyTheirOwnErrors := by
  intro s t
  refine ⟨fun h => ?_, fun h => ?_, fun h => ?_, fun h => ?_⟩
  · rw [exec_compress] at h
    split at h
    · cases h; exact .inr rfl
    · cases h; exact .inl rfl
  · cases hr : s.decompressResult with
    | error e => cases (exec_decompress_error hr).symm.trans h; exact .inr (decompressResult_error_code hr)
    | ok out => cases (exec_decompress_ok hr).symm.trans h; exact .inl rfl
  · cases fault : s.checkTable with
    | some e => cases (exec_checkTable_error fault).symm.trans h; exact .inr (checkTable_error_code fault)
    | none => cases (exec_checkTable_ok fault).symm.trans h; exact .inl rfl
  · cases (exec_clear s).symm.trans h; rfl

end Sys2Proof.Machine
end

section
/-! SUPPORT. The writes of ILEN and PLEN while idle, legal or not (10_state.md R32, R33), and the steps of the reset input and
under reset (70_reset_and_hazards.md R240, R241, R251). -/

namespace Sys2Proof.Machine

/-! ### ILEN and PLEN -/

/-- A write of ILEN above I_MAX leaves the old value (R32, R251). -/
theorem writeWord_iLen (s : State) (v : Word) :
    s.writeWord 0#3 7 v = { s with iLen := if v.toNat ≤ s.iMax then v.toNat else s.iLen } := by
  by_cases legal : v.toNat ≤ s.iMax
  · rw [if_pos legal]; exact if_pos legal
  · rw [if_neg legal]; exact if_neg legal

/-- A write of PLEN above P_MAX leaves the old value (R33, R251). -/
theorem writeWord_pLen (s : State) (v : Word) :
    s.writeWord 0#3 8 v = { s with pLen := if v.toNat ≤ 8 * s.iMax then v.toNat else s.pLen } := by
  by_cases legal : v.toNat ≤ 8 * s.iMax
  · rw [if_pos legal]; exact if_pos legal
  · rw [if_neg legal]; exact if_neg legal

/-- Settles O39: while idle the step is the write at the location, the range being that of the write. -/
theorem lengthWritesKeepTheLegalRange : Obligations.LengthWritesKeepTheLegalRange := by
  intro s v rest hb hr
  refine ⟨fun ht => ?_, fun ht => ?_⟩
  · rw [step_write_idle hb hr ht, show (7#32).toNat = 7 from rfl, writeWord_iLen]
  · rw [step_write_idle hb hr ht, show (8#32).toNat = 8 from rfl, writeWord_pLen]

/-! ### Reset -/

/-- Every entry is the zero entry after a level of the reset input (R48, R240). -/
theorem entry_setReset (s : State) (asserted : Bool) (x : Symbol) : (s.setReset asserted).entry x = CTEntry.zero := by
  simp [State.setReset, State.entry]

/-- A transaction under reset leaves no record and changes nothing (R240, log 7). -/
theorem busTransaction_underReset {s : State} (hr : s.rst = true) (op : BusOp) : s.busTransaction op = s :=
  if_pos hr

/-- Settles O52: a level of the reset input is a reset event, a transaction under reset changes nothing, and a CORE under
reset has no step. -/
theorem resetAbandonsTheCommandAndZeroesTheState : Obligations.ResetAbandonsTheCommandAndZeroesTheState := by
  intro s rest
  refine ⟨fun b ht => ?level, fun hr op ht => ?transaction, fun hr ht => ?core⟩
  case level =>
    exact ⟨_, step_rst ht, rfl, rfl, rfl, rfl, rfl, rfl, rfl, rfl, rfl, rfl, rfl, rfl, rfl, rfl, rfl, rfl, rfl,
      entry_setReset _ b⟩
  case transaction => rw [step_bus ht, busTransaction_underReset (s := { s with turns := rest }) hr]
  case core =>
    have disabled : s.coreEnabled = false := by simp [State.coreEnabled, hr]
    exact step_core_idle (.inr ⟨rest, ht, rfl⟩) disabled

end Sys2Proof.Machine
end
